-- ==== Sys2Proof/Word.lean ====
section
/-! DEFINITION. Bytes, words, blocks, key-schedule words and the three round counts. -/

namespace Sys2Proof

/-- A byte: an unsigned 8-bit value (R4), also an element of GF(2^8) (R100). -/
abbrev Byte := BitVec 8

/-- A register value of the window, 32 bits (R2). -/
abbrev Word := BitVec 32

/-- A block: 16 bytes, B[0] first (R4). -/
abbrev Block := Vector Byte 16

/-- A word of the key schedule: 4 bytes (a0, a1, a2, a3) (R141). -/
abbrev KeyWord := Vector Byte 4

/-- The value of NR: 10, 12 or 14 (R20), one for each legal key length (R140). -/
inductive Rounds where
  | r10
  | r12
  | r14
  deriving DecidableEq, Repr, Inhabited

end Sys2Proof
end

