-- ==== Sys2Proof/Syntax.lean ====
section
/-! DEFINITION. The commands: one constructor per row of the opcode table (R86). -/

namespace Sys2Proof

/-- The DIR bit: 0 Encrypt, 1 Decrypt (R80). -/
inductive Dir where
  | encrypt
  | decrypt
  deriving DecidableEq, Repr, Inhabited

/-- The seven commands. Length operands are unsigned byte counts (m is a count of bits), as R84 reads LENA and LENB.
An operand that the command ignores is kept, so that no bit of the word is dropped (R84: "ignored"). Log entry 17. -/
inductive Instr where
  /-- SET_KEY, LENA = keylen (R148). -/
  | setKey (keylen : Nat)
  /-- ENCRYPT, LENA = inlen, LENB = outlen (R186). -/
  | encrypt (inlen outlen : Nat)
  /-- DECRYPT, LENA = inlen, LENB = outlen (R187). -/
  | decrypt (inlen outlen : Nat)
  /-- MODE_INIT.ECB, LENA and LENB ignored (R211). -/
  | modeInitEcb (dir : Dir) (lena lenb : Nat)
  /-- MODE_INIT.CBC, LENA = ivlen, LENB ignored (R212). -/
  | modeInitCbc (dir : Dir) (ivlen lenb : Nat)
  /-- MODE_INIT.CTR, LENA = ivlen, LENB = m (R213). -/
  | modeInitCtr (dir : Dir) (ivlen m : Nat)
  /-- PROCESS, LENA = inlen, LENB = outlen (R230). -/
  | process (inlen outlen : Nat)
  deriving DecidableEq, Repr, Inhabited

end Sys2Proof
end

