-- ==== Sys2Proof/WellFormed.lean ====
section
/-! DEFINITION. Which commands a word can carry: every length operand fits its 8-bit field (R80, R84). -/

namespace Sys2Proof

/-- A count that an 8-bit length field holds (R84). -/
def fitsLengthField (n : Nat) : Bool := decide (n < 256)

/-- The check of a command: each of its length operands fits LENA or LENB. -/
def Instr.wellFormed : Instr → Bool
  | .setKey keylen => fitsLengthField keylen
  | .encrypt inlen outlen => fitsLengthField inlen && fitsLengthField outlen
  | .decrypt inlen outlen => fitsLengthField inlen && fitsLengthField outlen
  | .modeInitEcb _ lena lenb => fitsLengthField lena && fitsLengthField lenb
  | .modeInitCbc _ ivlen lenb => fitsLengthField ivlen && fitsLengthField lenb
  | .modeInitCtr _ ivlen m => fitsLengthField ivlen && fitsLengthField m
  | .process inlen outlen => fitsLengthField inlen && fitsLengthField outlen

end Sys2Proof
end

