-- ==== Sys2Proof/Decode.lean ====
section
/-! DEFINITION. Decoding a command word (R80 to R86), total on all 32-bit words, and the encoder. -/

namespace Sys2Proof

/-! ## The fields of the one format (R80) -/

/-- OP, bits 3:0. -/
def opField (c : Word) : BitVec 4 := c.extractLsb' 0 4

/-- MODE, bits 5:4. -/
def modeField (c : Word) : BitVec 2 := c.extractLsb' 4 2

/-- DIR, bit 6. -/
def dirField (c : Word) : Bool := c.getLsbD 6

/-- RSV0, bit 7. -/
def rsv0Field (c : Word) : Bool := c.getLsbD 7

/-- LENA, bits 15:8, zero-extended (R84). -/
def lenaField (c : Word) : Nat := (c.extractLsb' 8 8).toNat

/-- LENB, bits 23:16, zero-extended (R84). -/
def lenbField (c : Word) : Nat := (c.extractLsb' 16 8).toNat

/-- RSV1, bits 31:24. -/
def rsv1Field (c : Word) : BitVec 8 := c.extractLsb' 24 8

/-- The direction a DIR bit stands for (R80). -/
def dirOfBit : Bool → Dir
  | false => .encrypt
  | true => .decrypt

/-- The DIR bit of a direction (R80). -/
def dirBit : Dir → BitVec 1
  | .encrypt => 0#1
  | .decrypt => 1#1

/-! ## Decoding (R83) -/

/-- Why a word is ILLEGAL (R261, code 1). The engine reports the one code for all of them. -/
inductive IllegalCause where
  /-- RSV0 or RSV1 is not zero. -/
  | reservedBit
  /-- OP is 0 or 6 to 15 (R81). -/
  | unassignedOp
  /-- A field that must be 0 for this OP is not. -/
  | fieldNotZero
  /-- MODE_INIT with MODE = 3, which would be GCM (R82). -/
  | gcmMode
  deriving DecidableEq, Repr

/-- What a word decodes as: one command, or ILLEGAL with its cause. -/
inductive Decoded where
  | legal (i : Instr)
  | illegal (why : IllegalCause)
  deriving DecidableEq, Repr

/-- Decoding, in the order of R83. It reads nothing but the word. -/
def decode (c : Word) : Decoded :=
  if rsv1Field c ≠ 0#8 ∨ rsv0Field c = true then .illegal .reservedBit
  else
    match (opField c).toNat with
    | 1 =>
      if modeField c ≠ 0#2 ∨ dirField c = true ∨ lenbField c ≠ 0 then .illegal .fieldNotZero
      else .legal (.setKey (lenaField c))
    | 2 =>
      if modeField c ≠ 0#2 ∨ dirField c = true then .illegal .fieldNotZero
      else .legal (.encrypt (lenaField c) (lenbField c))
    | 3 =>
      if modeField c ≠ 0#2 ∨ dirField c = true then .illegal .fieldNotZero
      else .legal (.decrypt (lenaField c) (lenbField c))
    | 4 =>
      match (modeField c).toNat with
      | 0 => .legal (.modeInitEcb (dirOfBit (dirField c)) (lenaField c) (lenbField c))
      | 1 => .legal (.modeInitCbc (dirOfBit (dirField c)) (lenaField c) (lenbField c))
      | 2 => .legal (.modeInitCtr (dirOfBit (dirField c)) (lenaField c) (lenbField c))
      | _ => .illegal .gcmMode
    | 5 =>
      if modeField c ≠ 0#2 ∨ dirField c = true then .illegal .fieldNotZero
      else .legal (.process (lenaField c) (lenbField c))
    | _ => .illegal .unassignedOp

/-! ## Encoding (R80, R86) -/

/-- A field of a word, its lowest bit at place `lo`. -/
def placeField {n : Nat} (field : BitVec n) (lo : Nat) : Word := field.setWidth 32 <<< lo

/-- A word from its fields, RSV0 and RSV1 zero (R80). -/
def packWord (op : BitVec 4) (mode : BitVec 2) (dir : BitVec 1) (lena lenb : Nat) : Word :=
  placeField op 0 ||| placeField mode 4 ||| placeField dir 6 ||| placeField (BitVec.ofNat 8 lena) 8 |||
    placeField (BitVec.ofNat 8 lenb) 16

/-- The word of a command (R86). -/
def encode : Instr → Word
  | .setKey keylen => packWord 1#4 0#2 0#1 keylen 0
  | .encrypt inlen outlen => packWord 2#4 0#2 0#1 inlen outlen
  | .decrypt inlen outlen => packWord 3#4 0#2 0#1 inlen outlen
  | .modeInitEcb dir lena lenb => packWord 4#4 0#2 (dirBit dir) lena lenb
  | .modeInitCbc dir ivlen lenb => packWord 4#4 1#2 (dirBit dir) ivlen lenb
  | .modeInitCtr dir ivlen m => packWord 4#4 2#2 (dirBit dir) ivlen m
  | .process inlen outlen => packWord 5#4 0#2 0#1 inlen outlen

/-! ## The opcode map (R86) -/

/-- One row of the opcode map: a word w is the row's when w & mask = match. -/
structure OpcodeRow where
  mnemonic : String
  matchBits : Word
  maskBits : Word
  deriving DecidableEq, Repr

/-- The seven rows of R86. -/
def opcodeRows : List OpcodeRow :=
  [⟨"SET_KEY", 0x00000001#32, 0xFFFF00FF#32⟩,
   ⟨"ENCRYPT", 0x00000002#32, 0xFF0000FF#32⟩,
   ⟨"DECRYPT", 0x00000003#32, 0xFF0000FF#32⟩,
   ⟨"MODE_INIT.ECB", 0x00000004#32, 0xFF0000BF#32⟩,
   ⟨"MODE_INIT.CBC", 0x00000014#32, 0xFF0000BF#32⟩,
   ⟨"MODE_INIT.CTR", 0x00000024#32, 0xFF0000BF#32⟩,
   ⟨"PROCESS", 0x00000005#32, 0xFF0000FF#32⟩]

/-- The mnemonic of a command's row (R86). -/
def Instr.mnemonic : Instr → String
  | .setKey _ => "SET_KEY"
  | .encrypt _ _ => "ENCRYPT"
  | .decrypt _ _ => "DECRYPT"
  | .modeInitEcb _ _ _ => "MODE_INIT.ECB"
  | .modeInitCbc _ _ _ => "MODE_INIT.CBC"
  | .modeInitCtr _ _ _ => "MODE_INIT.CTR"
  | .process _ _ => "PROCESS"

/-- A word is a row's when its fixed bits are the row's (R86). -/
def OpcodeRow.covers (r : OpcodeRow) (c : Word) : Bool := decide (c &&& r.maskBits = r.matchBits)

/-! ## The host's reading of a table word -/

/-- What the decoder reads from a table row's word. A command is one 32-bit word (R80), so a longer pattern with a
bit above bit 31 is none. -/
def decodeTableWord (nbits w : Nat) : Option Instr :=
  if w % 2 ^ nbits < 2 ^ 32 then
    match decode (BitVec.ofNat 32 (w % 2 ^ nbits)) with
    | .legal i => some i
    | .illegal _ => none
  else none

end Sys2Proof
end

