-- ==== Sys2Proof/Machine/Counter.lean ====
section
/-! DEFINITION. The CTR counter (R220 to R222). -/

namespace Sys2Proof.Machine

/-- cb = ceil(m/8), how many bytes hold the counter (R220). -/
def counterBytes (m : Nat) : Nat := (m + 7) / 8

/-- lo = 16 - cb, the first byte that holds the counter (R220). -/
def counterLow (m : Nat) : Nat := 16 - counterBytes m

/-- A byte string read as one big-endian integer (R63, R220). -/
def bigEndian (bs : List Byte) : Nat := bs.foldl (fun n b => 256 * n + b.toNat) 0

/-- N, the integer of the bytes CV[lo..15] (R220). -/
def counterValue (cv : Block) (m : Nat) : Nat := bigEndian (cv.toList.drop (counterLow m))

/-- The whole block as a 128-bit big-endian integer (R223). -/
def blockValue (b : Block) : Nat := bigEndian b.toList

/-- CtrLoad(iv, m): the high bits of the partial counter byte are cleared (R221; `92_eei_decisions.md` D28). -/
def ctrLoad (iv : Block) (m : Nat) : Block :=
  Vector.ofFn fun i =>
    if m % 8 ≠ 0 ∧ i.val = counterLow m then iv[i] &&& BitVec.ofNat 8 (2 ^ (m % 8) - 1) else iv[i]

/-- CtrInc(cv, m): the low m bits advance by one modulo 2^m and nothing else changes (R222). -/
def ctrInc (cv : Block) (m : Nat) : Block :=
  let n := counterValue cv m
  let win := n % 2 ^ m
  let high := n - win
  let n' := high + (win + 1) % 2 ^ m
  Vector.ofFn fun i =>
    if i.val < counterLow m then cv[i] else BitVec.ofNat 8 (n' / 256 ^ (15 - i.val))

end Sys2Proof.Machine
end

