-- ==== Sys2Proof/Config.lean ====
section
/-! DEFINITION. What the platform fixes, and the free values: constants with no body, so nothing can be proved of
what they are. -/

namespace Sys2Proof.Config

/-- The window's place, in units of the window's size: BASE_ADDR is open (R2, R61). Log entry 5. -/
opaque baseIndex : Nat

/-- BASE_ADDR, a multiple of 0x100 (R61). -/
def baseAddr : Nat := 0x100 * baseIndex

/-- The size of the register window in bytes (R2, R22). -/
def windowSize : Nat := 0x100

/-- Free blocks: EK and DK entries the spec leaves unspecified (R34, R149), and LIV and LDIN after a reset event
(R290). Log entries 7 and 8. -/
opaque freeBlock : Nat → Block

/-- A free NR: unspecified after a failed SET_KEY (R149) and after a reset event (R290). Log entries 7 and 8. -/
opaque freeRounds : Nat → Rounds

/-- A free LCMD: unspecified after a reset event (R290). Log entry 8. -/
opaque freeWord : Nat → Word

/-- A free LKEY: unspecified after a reset event (R290). Log entry 8. -/
opaque freeKeyBytes : Nat → Vector Byte 32

/-- Rcon(0): the schedule never uses it, so it is any value (`93_implementation_defined.md` I27). Log entry 13. -/
opaque rconZero : Byte

end Sys2Proof.Config
end

