-- ==== Sys2Proof/Machine/State.lean ====
section
/-! DEFINITION. The state of the engine (R20), what arrives at its port, the reasons a step can stop, and reset. -/

namespace Sys2Proof.Machine

/-- MODE: 0 ECB, 1 CBC, 2 CTR, never 3 (R20, R32). -/
inductive Mode where
  | ecb
  | cbc
  | ctr
  deriving DecidableEq, Repr, Inhabited

/-- The error codes that STATUS.ERR can hold; 8 to 15 are never written (R261). -/
inductive ErrCode where
  /-- 0 NONE: the command succeeded. -/
  | none
  /-- 1 ILLEGAL: the word decodes as no command. -/
  | illegal
  /-- 2 KEY_LENGTH: SET_KEY with a length other than 16, 24, 32. -/
  | keyLength
  /-- 3 KEY_INVALID: no valid key is loaded. -/
  | keyInvalid
  /-- 4 BLOCK_SIZE: an input or output length other than 16. -/
  | blockSize
  /-- 5 IV_LENGTH: MODE_INIT for CBC or CTR with ivlen other than 16. -/
  | ivLength
  /-- 6 CTR_WIDTH: MODE_INIT.CTR with m outside 1..128. -/
  | ctrWidth
  /-- 7 MODE_NOT_INIT: PROCESS while MODE_PARAMS_OK = 0. -/
  | modeNotInit
  deriving DecidableEq, Repr, Inhabited

/-- What a bus access does: MemRead or MemWrite of a value (R5, R62). -/
inductive BusOp where
  | read
  | write (v : Word)
  deriving DecidableEq, Repr

/-- One bus access of a master: the byte address, the width in bytes, and what it does (R62, R66). -/
structure Access where
  addr : Nat
  size : Nat
  op : BusOp
  deriving DecidableEq, Repr

/-- What comes next at the engine's port. Log entry 1. -/
inductive PortEvent where
  /-- A bus access arrives (R69). -/
  | access (a : Access)
  /-- The engine has its turn: a command in flight completes (R296, R301). -/
  | engine
  /-- Reset is asserted, as one atomic step (R291, R292). -/
  | reset
  deriving DecidableEq, Repr

/-- What the bus answered to the last access. Log entry 12. -/
inductive BusAnswer where
  | nothing
  | written
  | readData (v : Word)
  deriving DecidableEq, Repr

/-- The state record of R20, and three fields of the model's own at the end. -/
structure State where
  /-- KEY[0..7], the staged key words (R23). -/
  key : Vector Word 8
  /-- IV[0..3], the staged IV (R24). -/
  iv : Vector Word 4
  /-- DIN[0..3], the staged input block (R25). -/
  din : Vector Word 4
  /-- DOUT, the output block (R26). -/
  dout : Block
  /-- CV, the chaining vector (R27). -/
  cv : Block
  /-- KEY_VALID (R34). -/
  keyValid : Bool
  /-- KEY_BITS (R31, R34). -/
  keyBits : BitVec 16
  /-- NR (R34). -/
  nr : Rounds
  /-- EK[0..14], the encryption round keys (R34). -/
  ek : Vector Block 15
  /-- DK[0..14], the decryption round keys (R34). -/
  dk : Vector Block 15
  /-- MODE_PARAMS_OK (R35). -/
  modeParamsOk : Bool
  /-- MODE (R32). -/
  mode : Mode
  /-- DIR (R32). -/
  dir : Dir
  /-- CTR_M (R32). -/
  ctrM : BitVec 8
  /-- BUSY (R30). -/
  busy : Bool
  /-- DONE (R30). -/
  done : Bool
  /-- FAIL (R30). -/
  fail : Bool
  /-- ERR (R30, R261). -/
  err : ErrCode
  /-- LCMD, the latched command word (R37). -/
  lcmd : Word
  /-- LKEY, the latched key bytes (R37). -/
  lkey : Vector Byte 32
  /-- LIV, the latched IV (R37). -/
  liv : Block
  /-- LDIN, the latched input block (R37). -/
  ldin : Block
  /-- The model's own: what happens next at the port, oldest first. Log entry 1. -/
  arrivals : List PortEvent
  /-- The model's own: the bus's answer to the last access. Log entry 12. -/
  answer : BusAnswer
  /-- The model's own: how many free values have been drawn. Log entry 7. -/
  draws : Nat
  deriving DecidableEq, Repr

/-- Why a step stops with a fault. -/
inductive Fault where
  /-- Raised by a bus access inside the window that is not 32 bits wide at a multiple of 4: the bus answers with an
  error response and the data 0, no engine state changes, and the host's program is at fault (R66, R274). Safe: the
  hardware goes on, the model stops. -/
  | busError (a : Access) (data : Word)
  deriving DecidableEq, Repr

/-- Why a step is refused. -/
inductive Refusal where
  /-- Raised by exec for a command that has no meaning yet. No arm raises it. Safe. -/
  | notModelled (mnemonic : String)
  /-- Raised by a bus access whose address lies outside the window: it does not reach the engine (R60), and what
  answers it is another device. Log entry 4. Safe. -/
  | outsideWindow (a : Access)
  deriving DecidableEq, Repr

/-- The state right after reset (R20, R290). NR, EK, DK, LCMD, LKEY, LIV and LDIN are unspecified there; the values
named here are the model's own (DESIGN CHOICE, log entry 6). -/
def State.reset : State where
  key := Vector.replicate 8 0#32
  iv := Vector.replicate 4 0#32
  din := Vector.replicate 4 0#32
  dout := Vector.replicate 16 0#8
  cv := Vector.replicate 16 0#8
  keyValid := false
  keyBits := 0#16
  nr := .r10
  ek := Vector.replicate 15 (Vector.replicate 16 0#8)
  dk := Vector.replicate 15 (Vector.replicate 16 0#8)
  modeParamsOk := false
  mode := .ecb
  dir := .encrypt
  ctrM := 0#8
  busy := false
  done := false
  fail := false
  err := .none
  lcmd := 0#32
  lkey := Vector.replicate 32 0#8
  liv := Vector.replicate 16 0#8
  ldin := Vector.replicate 16 0#8
  arrivals := []
  answer := .nothing
  draws := 0

end Sys2Proof.Machine
end

