-- ==== Sys2Proof/Machine/Flags.lean ====
section
/-! DEFINITION. What STATUS, INFO and MODECFG read as (R30 to R32), and the numbers of the codes in them. -/

namespace Sys2Proof.Machine

/-- The number of an error code (R261). -/
def errBits : ErrCode → BitVec 4
  | .none => 0#4
  | .illegal => 1#4
  | .keyLength => 2#4
  | .keyInvalid => 3#4
  | .blockSize => 4#4
  | .ivLength => 5#4
  | .ctrWidth => 6#4
  | .modeNotInit => 7#4

/-- The number of a mode (R32). -/
def modeBits : Mode → BitVec 2
  | .ecb => 0#2
  | .cbc => 1#2
  | .ctr => 2#2

/-- The number of a direction in MODECFG (R32). -/
def dirBits : Dir → BitVec 1
  | .encrypt => 0#1
  | .decrypt => 1#1

/-- MODE_READY, computed whenever it is read (R30, R35). -/
def modeReady (s : State) : Bool := s.keyValid && s.modeParamsOk

/-- STATUS: each field at its place, the reserved bits 0 (R30). -/
def statusWord (s : State) : Word :=
  placeField (BitVec.ofBool s.busy) 0 ||| placeField (BitVec.ofBool s.done) 1 |||
    placeField (BitVec.ofBool s.fail) 2 ||| placeField (errBits s.err) 4 |||
    placeField (BitVec.ofBool s.keyValid) 8 ||| placeField (BitVec.ofBool s.modeParamsOk) 9 |||
    placeField (BitVec.ofBool (modeReady s)) 10

/-- INFO: BLOCK_BITS is always 128, KEY_BITS is 0 while no key is valid (R31). -/
def infoWord (s : State) : Word :=
  placeField (if s.keyValid then s.keyBits else 0#16) 0 ||| placeField 128#16 16

/-- MODECFG: each field at its place, the reserved bits 0 (R32). -/
def modecfgWord (s : State) : Word :=
  placeField (modeBits s.mode) 0 ||| placeField (dirBits s.dir) 2 ||| placeField s.ctrM 8

end Sys2Proof.Machine
end

