-- ==== Sys2Proof/Machine/Field.lean ====
section
/-! DEFINITION. Arithmetic of GF(2^8) (R100 to R105). -/

namespace Sys2Proof.Machine

/-- Doubling in the field: shift left, and reduce by 0x1B when bit 7 was set (R101). -/
def xtime (a : Byte) : Byte := if a.getLsbD 7 then (a <<< 1) ^^^ 0x1B#8 else a <<< 1

/-- The loop of gmul: `n` bits of y are left, the next one is bit `i`; `acc` is the sum so far and `p` is x times
x^i (R102). -/
def gmulLoop (y : Byte) : (n i : Nat) → (acc p : Byte) → Byte
  | 0, _, acc, _ => acc
  | n + 1, i, acc, p => gmulLoop y n (i + 1) (if y.getLsbD i then acc ^^^ p else acc) (xtime p)

/-- Multiplication in the field (R102). -/
def gmul (x y : Byte) : Byte := gmulLoop y 8 0 0#8 x

/-- The loop of gpow, with fuel: e halves at each turn, so fuel e is enough (R103). -/
def gpowLoop : (fuel e : Nat) → (r b : Byte) → Byte
  | 0, _, r, _ => r
  | fuel + 1, e, r, b =>
    if e = 0 then r else gpowLoop fuel (e / 2) (if e % 2 = 1 then gmul r b else r) (gmul b b)

/-- Exponentiation by square-and-multiply (R103). -/
def gpow (a : Byte) (e : Nat) : Byte := gpowLoop e e 0x01#8 a

/-- The multiplicative inverse a^254, and 0 for 0 (R104). -/
def ginv (a : Byte) : Byte := if a = 0x00#8 then 0x00#8 else gpow a 254

/-- Left rotation of a byte, n in 0..7 (R105). -/
def rotl8 (x : Byte) (n : Nat) : Byte := if n = 0 then x else (x <<< n) ||| (x >>> (8 - n))

end Sys2Proof.Machine
end

