-- ==== Sys2Proof/Machine/Cipher.lean ====
section
/-! DEFINITION. The round transform and the block functions (R170 to R182). A block is read as the 4 by 4 matrix
s[r][c] = B[r + 4c] (R170). -/

namespace Sys2Proof.Machine

/-- AddRoundKey (R171). -/
def addRoundKey (s k : Block) : Block := Vector.ofFn fun i => s[i] ^^^ k[i]

/-- SubBytes (R172). -/
def subBytes (s : Block) : Block := Vector.ofFn fun i => sbox s[i]

/-- InvSubBytes (R173). -/
def invSubBytes (s : Block) : Block := Vector.ofFn fun i => invSbox s[i]

/-- ShiftRows: row r moves left by r places (R174). Byte i stands in row i mod 4 and column i / 4. -/
def shiftRows (s : Block) : Block :=
  Vector.ofFn fun i => s[4 * ((i.val / 4 + i.val % 4) % 4) + i.val % 4]

/-- InvShiftRows: row r moves right by r places (R175). Adding 4 - r is subtracting r modulo 4. -/
def invShiftRows (s : Block) : Block :=
  Vector.ofFn fun i => s[4 * ((i.val / 4 + (4 - i.val % 4)) % 4) + i.val % 4]

/-- The matrix M of MixColumns (R176). -/
def mixMatrix : Vector (Vector Byte 4) 4 :=
  #v[#v[0x02#8, 0x03#8, 0x01#8, 0x01#8],
     #v[0x01#8, 0x02#8, 0x03#8, 0x01#8],
     #v[0x01#8, 0x01#8, 0x02#8, 0x03#8],
     #v[0x03#8, 0x01#8, 0x01#8, 0x02#8]]

/-- The matrix IM of InvMixColumns (R177). -/
def invMixMatrix : Vector (Vector Byte 4) 4 :=
  #v[#v[0x0E#8, 0x0B#8, 0x0D#8, 0x09#8],
     #v[0x09#8, 0x0E#8, 0x0B#8, 0x0D#8],
     #v[0x0D#8, 0x09#8, 0x0E#8, 0x0B#8],
     #v[0x0B#8, 0x0D#8, 0x09#8, 0x0E#8]]

/-- Each column multiplied by a matrix over the field (R176, R177). -/
def mulColumns (m : Vector (Vector Byte 4) 4) (s : Block) : Block :=
  Vector.ofFn fun i =>
    gmul m[i.val % 4][0] s[4 * (i.val / 4)] ^^^ gmul m[i.val % 4][1] s[4 * (i.val / 4) + 1] ^^^
      gmul m[i.val % 4][2] s[4 * (i.val / 4) + 2] ^^^ gmul m[i.val % 4][3] s[4 * (i.val / 4) + 3]

/-- MixColumns (R176). -/
def mixColumns (s : Block) : Block := mulColumns mixMatrix s

/-- InvMixColumns (R177). -/
def invMixColumns (s : Block) : Block := mulColumns invMixMatrix s

/-- A full encryption round (R178). -/
def roundEnc (s k : Block) : Block := addRoundKey (mixColumns (shiftRows (subBytes s))) k

/-- The last encryption round, without MixColumns (R178). -/
def roundEncLast (s k : Block) : Block := addRoundKey (shiftRows (subBytes s)) k

/-- A full decryption round of the equivalent inverse cipher: InvMixColumns stands before AddRoundKey (R179; the
source's printed order is corrected, `90_conflicts.md` C1). -/
def roundDec (s k : Block) : Block := addRoundKey (invMixColumns (invSubBytes (invShiftRows s))) k

/-- The last decryption round (R179). -/
def roundDecLast (s k : Block) : Block := addRoundKey (invSubBytes (invShiftRows s)) k

/-- The number of rounds Nr as a number (R20, R140). -/
def roundCount : Rounds → Nat
  | .r10 => 10
  | .r12 => 12
  | .r14 => 14

theorem roundCount_le (n : Rounds) : roundCount n ≤ 14 := by cases n <;> decide

theorem roundCount_lt (n : Rounds) : roundCount n < 15 := Nat.lt_succ_of_le (roundCount_le n)

/-- The round keys of the middle rounds 1..Nr-1, in rising order. -/
def middleKeys (ks : Vector Block 15) (n : Rounds) : List Block := (ks.toList.drop 1).take (roundCount n - 1)

/-- The round key of the last index, Nr. -/
def lastKey (ks : Vector Block 15) (n : Rounds) : Block := ks[roundCount n]'(roundCount_lt n)

/-- Cipher(EK, Nr, p): round 0, rounds 1..Nr-1 upward, then round Nr (R180). -/
def cipher (ek : Vector Block 15) (n : Rounds) (p : Block) : Block :=
  roundEncLast ((middleKeys ek n).foldl roundEnc (addRoundKey p ek[0])) (lastKey ek n)

/-- InvCipher(DK, Nr, c): round Nr, rounds Nr-1 down to 1, then round 0 (R181). -/
def invCipher (dk : Vector Block 15) (n : Rounds) (c : Block) : Block :=
  roundDecLast ((middleKeys dk n).foldr (fun k s => roundDec s k) (addRoundKey c (lastKey dk n))) dk[0]

end Sys2Proof.Machine
end

