-- ==== Sys2Proof/Machine/KeySchedule.lean ====
section
/-! DEFINITION. The key schedule (R140 to R147). -/

namespace Sys2Proof.Machine

/-- The rounds for a key length in bytes: 16, 24 and 32 give 10, 12 and 14; every other length is invalid (R140). -/
def roundsOfKeyLength (keylen : Nat) : Option Rounds :=
  if keylen = 16 then some .r10
  else if keylen = 24 then some .r12
  else if keylen = 32 then some .r14
  else none

/-- Nk, the number of key words: Nr = Nk + 6 (R140). -/
def keyWordCount (n : Rounds) : Nat := roundCount n - 6

/-- The number of words of the schedule, 4(Nr+1) (R140). -/
def scheduleLength (n : Rounds) : Nat := 4 * (roundCount n + 1)

theorem keyWordCount_pos (n : Rounds) : 0 < keyWordCount n := by cases n <;> decide

theorem keyWordCount_le (n : Rounds) : keyWordCount n ≤ 8 := by cases n <;> decide

theorem keyWordCount_add (n : Rounds) :
    keyWordCount n + (scheduleLength n - keyWordCount n) = scheduleLength n := by cases n <;> decide

/-- XOR of words, bytewise (R141). -/
def keyWordXor (a b : KeyWord) : KeyWord := Vector.ofFn fun t => a[t] ^^^ b[t]

/-- Rcon(j) for j in 1..10 (R142). Rcon(0) is never used, so it is free (log entry 13). -/
def rcon : Nat → Byte
  | 0 => Config.rconZero
  | 1 => 0x01#8
  | j + 2 => xtime (rcon (j + 1))

/-- Rcon(j) as a word: it enters at byte a0 (R142). -/
def rconWord (j : Nat) : KeyWord := #v[rcon j, 0x00#8, 0x00#8, 0x00#8]

/-- RotWord: one place toward index 0 (R143). -/
def rotWord (a : KeyWord) : KeyWord := #v[a[1], a[2], a[3], a[0]]

/-- SubWord: the S-box on each byte (R143). -/
def subWord (a : KeyWord) : KeyWord := #v[sbox a[0], sbox a[1], sbox a[2], sbox a[3]]

/-- The T of the recurrence at word i, applied to w[i-1] (R144). -/
def scheduleTemp (nk i : Nat) (t : KeyWord) : KeyWord :=
  if i % nk = 0 then keyWordXor (subWord (rotWord t)) (rconWord (i / nk))
  else if 6 < nk ∧ i % nk = 4 then subWord t
  else t

/-- The first Nk words, from the key bytes (R141). -/
def firstWords (n : Rounds) (key : Vector Byte 32) : Vector KeyWord (keyWordCount n) :=
  Vector.ofFn fun i => Vector.ofFn fun t =>
    key[4 * i.val + t.val]'(by have h := keyWordCount_le n; omega)

/-- The first Nk + k words of the schedule: each new one is w[i-Nk] ^ T(w[i-1]), here with i = Nk + k (R144). -/
def expandWords (n : Rounds) (key : Vector Byte 32) : (k : Nat) → Vector KeyWord (keyWordCount n + k)
  | 0 => firstWords n key
  | k + 1 =>
    let w := expandWords n key k
    w.push (keyWordXor (w[k]'(by have h := keyWordCount_pos n; omega))
      (scheduleTemp (keyWordCount n) (keyWordCount n + k)
        (w[keyWordCount n + k - 1]'(by have h := keyWordCount_pos n; omega))))

/-- KeyExpansion(key), the words w[0..4(Nr+1)-1] (R144). -/
def keyExpansion (n : Rounds) (key : Vector Byte 32) : Vector KeyWord (scheduleLength n) :=
  (expandWords n key (scheduleLength n - keyWordCount n)).cast (keyWordCount_add n)

/-- EK[r] = w[4r] ‖ w[4r+1] ‖ w[4r+2] ‖ w[4r+3]: block byte 4k+t is byte t of w[4r+k] (R145). -/
def roundKeyBlock (n : Rounds) (w : Vector KeyWord (scheduleLength n)) (r : Nat) (h : r ≤ roundCount n) : Block :=
  Vector.ofFn fun i => (w[4 * r + i.val / 4]'(by unfold scheduleLength; omega))[i.val % 4]

/-- The encryption round keys 0..Nr; the entries above Nr are unspecified and take free values (R34, R145). -/
def encryptionKeys (n : Rounds) (key : Vector Byte 32) (draws : Nat) : Vector Block 15 :=
  Vector.ofFn fun r =>
    if h : r.val ≤ roundCount n then roundKeyBlock n (keyExpansion n key) r.val h
    else Config.freeBlock (draws + r.val)

/-- The decryption round keys: the first and the last are the encryption keys, those between are InvMixColumns of
them; the entries above Nr are unspecified and take free values (R34, R146). -/
def decryptionKeys (n : Rounds) (ek : Vector Block 15) (draws : Nat) : Vector Block 15 :=
  Vector.ofFn fun r =>
    if r.val = 0 ∨ r.val = roundCount n then ek[r]
    else if r.val < roundCount n then invMixColumns ek[r]
    else Config.freeBlock (draws + 15 + r.val)

end Sys2Proof.Machine
end

