-- ==== Sys2Proof/Machine/Operands.lean ====
section
/-! DEFINITION. Byte lanes (R23 to R25, R62) and the operands a command latches (R294). -/

namespace Sys2Proof.Machine

/-- Byte t of a register: bits [31-8t : 24-8t], big-endian within the word (R62). -/
def laneByte (w : Word) (t : Nat) : Byte := w.extractLsb' (24 - 8 * t) 8

/-- The register that holds four bytes, the first in bits 31:24 (R62, R64). -/
def wordOfBytes (b0 b1 b2 b3 : Byte) : Word :=
  placeField b0 24 ||| placeField b1 16 ||| placeField b2 8 ||| placeField b3 0

/-- The block in four consecutive registers: byte 4j+t is lane t of register j (R62). -/
def blockOfWords (ws : Vector Word 4) : Block := Vector.ofFn fun i => laneByte ws[i.val / 4] (i.val % 4)

/-- The key bytes in KEY0..KEY7: byte 4j+t is lane t of KEY[j] (R23). -/
def keyBytesOfWords (ws : Vector Word 8) : Vector Byte 32 :=
  Vector.ofFn fun i => laneByte ws[i.val / 4] (i.val % 4)

/-- Register j of the four that show a block (R62, R64). -/
def wordOfBlock (b : Block) (j : Fin 4) : Word :=
  wordOfBytes b[4 * j.val] b[4 * j.val + 1] b[4 * j.val + 2] b[4 * j.val + 3]

/-- XOR of two blocks, bytewise (R4). -/
def blockXor (a b : Block) : Block := Vector.ofFn fun i => a[i] ^^^ b[i]

/-- The only legal length of a block or an IV in bytes (R2, R84). -/
def blockBytes : Nat := 16

/-- The length checks of ENCRYPT, DECRYPT and PROCESS: both claimed lengths are one block (R186, R230). -/
def blockLengthsOk (inlen outlen : Nat) : Bool := decide (inlen = blockBytes ∧ outlen = blockBytes)

end Sys2Proof.Machine
end

