-- ==== Sys2Proof/Machine/Ops.lean ====
section
/-! DEFINITION. The shared operations on the state: accepting a command, its two ways to complete (the engine has no
trap, R267: `raiseFailure` is what it does instead), writing the results, and reset as an event. -/

namespace Sys2Proof.Machine

/-- Acceptance of the word v: all staging groups are latched, the result of the last command is cleared (R294). -/
def accept (v : Word) (s : State) : State :=
  { s with
    lcmd := v
    lkey := keyBytesOfWords s.key
    liv := blockOfWords s.iv
    ldin := blockOfWords s.din
    busy := true
    done := false
    fail := false
    err := .none }

/-- `complete Success` (R5, R296). -/
def completeSuccess (s : State) : State :=
  { s with busy := false, done := true, fail := false, err := .none }

/-- `raise Failure(E)`: the command ends, and its result is recorded (R5, R260, R262, R296). -/
def raiseFailure (e : ErrCode) (s : State) : State :=
  { s with busy := false, done := true, fail := true, err := e }

/-- DOUT <- b (R26). -/
def setDout (b : Block) (s : State) : State := { s with dout := b }

/-- CV <- b (R27). -/
def setCv (b : Block) (s : State) : State := { s with cv := b }

/-- MODE, DIR and CTR_M of a successful MODE_INIT, with MODE_PARAMS_OK <- 1 (R211 to R213). -/
def configureMode (mode : Mode) (dir : Dir) (m : Nat) (s : State) : State :=
  { s with mode := mode, dir := dir, ctrM := BitVec.ofNat 8 m, modeParamsOk := true }

/-- MODE_PARAMS_OK <- 0 and nothing else (R214). -/
def invalidateMode (s : State) : State := { s with modeParamsOk := false }

/-- How many free values one replacement of the key store draws. -/
def keyStoreDraws : Nat := 30

/-- The key store of a successful SET_KEY, replaced whole (R148). -/
def loadKey (n : Rounds) (s : State) : State :=
  { s with
    keyValid := true
    keyBits := BitVec.ofNat 16 (32 * keyWordCount n)
    nr := n
    ek := encryptionKeys n s.lkey s.draws
    dk := decryptionKeys n (encryptionKeys n s.lkey s.draws) s.draws
    draws := s.draws + keyStoreDraws }

/-- The key store of a failed SET_KEY: no valid key, and NR, EK, DK become unspecified, so they take free values
(R149, R262). Log entry 7. -/
def invalidateKey (s : State) : State :=
  { s with
    keyValid := false
    keyBits := 0#16
    nr := Config.freeRounds s.draws
    ek := Vector.ofFn fun r => Config.freeBlock (s.draws + r.val)
    dk := Vector.ofFn fun r => Config.freeBlock (s.draws + 15 + r.val)
    draws := s.draws + keyStoreDraws }

/-- Reset as one atomic step: a command in flight is abandoned, every specified field takes its reset value, and the
unspecified ones take free values (R290, R291, R292). What arrives later is kept. Log entries 8 and 10. -/
def resetEvent (s : State) : State :=
  { State.reset with
    nr := Config.freeRounds s.draws
    ek := Vector.ofFn fun r => Config.freeBlock (s.draws + r.val)
    dk := Vector.ofFn fun r => Config.freeBlock (s.draws + 15 + r.val)
    lcmd := Config.freeWord s.draws
    lkey := Config.freeKeyBytes s.draws
    liv := Config.freeBlock (s.draws + keyStoreDraws)
    ldin := Config.freeBlock (s.draws + keyStoreDraws + 1)
    arrivals := s.arrivals
    draws := s.draws + keyStoreDraws + 2 }

/-- The list of what arrives next, replaced. -/
def withArrivals (es : List PortEvent) (s : State) : State := { s with arrivals := es }

end Sys2Proof.Machine
end

