-- ==== Sys2Proof/Machine/Bus.lean ====
section
/-! DEFINITION. The register window (R22 to R29) and a bus access to it (R60 to R69). -/

namespace Sys2Proof.Machine

/-- The 64 registers of the window (R22). -/
inductive WindowReg where
  | cmd
  | status
  | info
  | modecfg
  | key (j : Fin 8)
  | iv (j : Fin 4)
  | din (j : Fin 4)
  | dout (j : Fin 4)
  | cv (j : Fin 4)
  /-- The reserved registers 0x70, 0x74, ..., 0xFC (R29). -/
  | reserved (k : Fin 36)
  deriving DecidableEq, Repr

/-- The byte offset of a register (R22). -/
def regOffset : WindowReg → Nat
  | .cmd => 0x00
  | .status => 0x04
  | .info => 0x08
  | .modecfg => 0x0C
  | .key j => 0x10 + 4 * j.val
  | .iv j => 0x30 + 4 * j.val
  | .din j => 0x40 + 4 * j.val
  | .dout j => 0x50 + 4 * j.val
  | .cv j => 0x60 + 4 * j.val
  | .reserved k => 0x70 + 4 * k.val

/-- The register at an offset of the window (R22). It is used at multiples of 4 only (R62). -/
def regAt (off : Fin 256) : WindowReg :=
  if off.val < 0x04 then .cmd
  else if off.val < 0x08 then .status
  else if off.val < 0x0C then .info
  else if off.val < 0x10 then .modecfg
  else if off.val < 0x30 then .key ⟨(off.val - 0x10) / 4 % 8, by omega⟩
  else if off.val < 0x40 then .iv ⟨(off.val - 0x30) / 4 % 4, by omega⟩
  else if off.val < 0x50 then .din ⟨(off.val - 0x40) / 4 % 4, by omega⟩
  else if off.val < 0x60 then .dout ⟨(off.val - 0x50) / 4 % 4, by omega⟩
  else if off.val < 0x70 then .cv ⟨(off.val - 0x60) / 4 % 4, by omega⟩
  else .reserved ⟨(off.val - 0x70) / 4, by omega⟩

/-- What a 32-bit read of a register returns (R64). KEY and CMD are write-only and read 0 (R23, R28). -/
def readReg (r : WindowReg) (s : State) : Word :=
  match r with
  | .cmd => 0#32
  | .status => statusWord s
  | .info => infoWord s
  | .modecfg => modecfgWord s
  | .key _ => 0#32
  | .iv j => s.iv[j]
  | .din j => s.din[j]
  | .dout j => wordOfBlock s.dout j
  | .cv j => wordOfBlock s.cv j
  | .reserved _ => 0#32

/-- What a 32-bit write of v to a register does while the write is not held (R65). Read-only and reserved registers
ignore it (R29). -/
def writeReg (r : WindowReg) (v : Word) (s : State) : State :=
  match r with
  | .cmd => accept v s
  | .status => s
  | .info => s
  | .modecfg => s
  | .key j => { s with key := s.key.set j v }
  | .iv j => { s with iv := s.iv.set j v }
  | .din j => { s with din := s.din.set j v }
  | .dout _ => s
  | .cv _ => s
  | .reserved _ => s

/-- The offset of an address in the window, if it lies there (R22, R60). -/
def windowOffset (addr : Nat) : Option (Fin 256) :=
  if h : Config.baseAddr ≤ addr ∧ addr < Config.baseAddr + Config.windowSize then
    some ⟨addr - Config.baseAddr, by have h2 : Config.windowSize = 256 := rfl; omega⟩
  else none

/-- The one supported form of an access: 32 bits at a multiple of 4 (R62, R66). -/
def accessAligned (a : Access) : Bool := decide (a.size = 4 ∧ a.addr % 4 = 0)

/-- A supported write to CMD: the one access with a side effect (R68), held while BUSY = 1 (R295). -/
def isCmdWrite (a : Access) : Bool :=
  match a.op with
  | .read => false
  | .write _ => accessAligned a && decide (windowOffset a.addr = some 0)

/-- The access is held at the port: the bus does not finish it until the command in flight completes (R295). -/
def heldAccess (a : Access) (s : State) : Bool := s.busy && isCmdWrite a

/-- One bus access that is not held. -/
def busAccess (a : Access) (s : State) : Host.Outcome State Fault Refusal :=
  match windowOffset a.addr with
  | none => .refused (.outsideWindow a)
  | some off =>
    if accessAligned a = false then .fault (.busError a 0#32)
    else
      match a.op with
      | .read => .next { s with answer := .readData (readReg (regAt off) s) }
      | .write v => .next { writeReg (regAt off) v s with answer := .written }

end Sys2Proof.Machine
end

