-- ==== Sys2Proof/Machine/BlockCommands.lean ====
section
/-! DEFINITION. ENCRYPT and DECRYPT (R186, R187). -/

namespace Sys2Proof.Machine

/-- The checks of the block commands, in order: BLOCK_SIZE, then KEY_INVALID (R186, R187, R263). -/
def blockCommandError (inlen outlen : Nat) (s : State) : Option ErrCode :=
  if blockLengthsOk inlen outlen = false then some .blockSize
  else if s.keyValid = false then some .keyInvalid
  else none

/-- ENCRYPT: DOUT <- Cipher(EK, NR, LDIN) (R186). -/
def execEncrypt (inlen outlen : Nat) (s : State) : Host.Outcome State Fault Refusal :=
  match blockCommandError inlen outlen s with
  | some e => .next (raiseFailure e s)
  | none => .next (completeSuccess (setDout (cipher s.ek s.nr s.ldin) s))

/-- DECRYPT: DOUT <- InvCipher(DK, NR, LDIN) (R187). -/
def execDecrypt (inlen outlen : Nat) (s : State) : Host.Outcome State Fault Refusal :=
  match blockCommandError inlen outlen s with
  | some e => .next (raiseFailure e s)
  | none => .next (completeSuccess (setDout (invCipher s.dk s.nr s.ldin) s))

end Sys2Proof.Machine
end

