-- ==== Sys2Proof/Machine/KeyCommands.lean ====
section
/-! DEFINITION. SET_KEY (R148, R149). -/

namespace Sys2Proof.Machine

/-- SET_KEY loads and expands the first keylen bytes of LKEY, or leaves no valid key (R148, R149). -/
def execSetKey (keylen : Nat) (s : State) : Host.Outcome State Fault Refusal :=
  match roundsOfKeyLength keylen with
  | none => .next (raiseFailure .keyLength (invalidateKey s))
  | some n => .next (completeSuccess (loadKey n s))

end Sys2Proof.Machine
end

