-- ==== Sys2Proof/Machine/ModeCommands.lean ====
section
/-! DEFINITION. MODE_INIT for ECB, CBC and CTR (R210 to R214). None of them reads the key store (R210). -/

namespace Sys2Proof.Machine

/-- MODE_INIT.ECB: it cannot fail, and CV is not written (R211). -/
def execModeInitEcb (dir : Dir) (s : State) : Host.Outcome State Fault Refusal :=
  .next (completeSuccess (configureMode .ecb dir 0 s))

/-- MODE_INIT.CBC: CV <- LIV, or IV_LENGTH (R212, R214). -/
def execModeInitCbc (dir : Dir) (ivlen : Nat) (s : State) : Host.Outcome State Fault Refusal :=
  if ivlen ≠ blockBytes then .next (raiseFailure .ivLength (invalidateMode s))
  else .next (completeSuccess (setCv s.liv (configureMode .cbc dir 0 s)))

/-- MODE_INIT.CTR: CV <- CtrLoad(LIV, m), or IV_LENGTH, or CTR_WIDTH (R213, R214). -/
def execModeInitCtr (dir : Dir) (ivlen m : Nat) (s : State) : Host.Outcome State Fault Refusal :=
  if ivlen ≠ blockBytes then .next (raiseFailure .ivLength (invalidateMode s))
  else if m < 1 ∨ 128 < m then .next (raiseFailure .ctrWidth (invalidateMode s))
  else .next (completeSuccess (setCv (ctrLoad s.liv m) (configureMode .ctr dir m s)))

end Sys2Proof.Machine
end

