-- ==== Sys2Proof/Machine/ProcessCommand.lean ====
section
/-! DEFINITION. PROCESS (R230 to R235). -/

namespace Sys2Proof.Machine

/-- The checks of PROCESS, in order: MODE_NOT_INIT, BLOCK_SIZE, KEY_INVALID (R230, R263). -/
def processError (inlen outlen : Nat) (s : State) : Option ErrCode :=
  if s.modeParamsOk = false then some .modeNotInit
  else if blockLengthsOk inlen outlen = false then some .blockSize
  else if s.keyValid = false then some .keyInvalid
  else none

/-- ECB, Encrypt: CV is neither read nor written (R231). -/
def processEcbEnc (s : State) : State := setDout (cipher s.ek s.nr s.ldin) s

/-- ECB, Decrypt (R232). -/
def processEcbDec (s : State) : State := setDout (invCipher s.dk s.nr s.ldin) s

/-- CBC, Encrypt: DOUT and CV both take Cipher(LDIN ^ CV) (R233). -/
def processCbcEnc (s : State) : State :=
  setDout (cipher s.ek s.nr (blockXor s.ldin s.cv)) (setCv (cipher s.ek s.nr (blockXor s.ldin s.cv)) s)

/-- CBC, Decrypt: the XOR is with the old CV, and CV takes the input (R234). -/
def processCbcDec (s : State) : State :=
  setDout (blockXor (invCipher s.dk s.nr s.ldin) s.cv) (setCv s.ldin s)

/-- CTR, in either direction: the keystream block is Cipher(CV), and the counter advances (R235). -/
def processCtr (s : State) : State :=
  setDout (blockXor (cipher s.ek s.nr s.cv) s.ldin) (setCv (ctrInc s.cv s.ctrM.toNat) s)

/-- The block through the configured mode and direction (R230). -/
def processBlock (s : State) : State :=
  match s.mode, s.dir with
  | .ecb, .encrypt => processEcbEnc s
  | .ecb, .decrypt => processEcbDec s
  | .cbc, .encrypt => processCbcEnc s
  | .cbc, .decrypt => processCbcDec s
  | .ctr, _ => processCtr s

/-- PROCESS (R230). -/
def execProcess (inlen outlen : Nat) (s : State) : Host.Outcome State Fault Refusal :=
  match processError inlen outlen s with
  | some e => .next (raiseFailure e s)
  | none => .next (completeSuccess (processBlock s))

end Sys2Proof.Machine
end

