-- ==== Sys2Proof/Machine/Dispatch.lean ====
section
/-! DEFINITION. One arm per command: what its completion does to the state (R296). -/

namespace Sys2Proof.Machine

def exec (i : Instr) (s : State) : Host.Outcome State Fault Refusal :=
  match i with
  | .setKey keylen => Sys2Proof.Machine.execSetKey keylen s
  | .encrypt inlen outlen => Sys2Proof.Machine.execEncrypt inlen outlen s
  | .decrypt inlen outlen => Sys2Proof.Machine.execDecrypt inlen outlen s
  | .modeInitEcb dir _ _ => Sys2Proof.Machine.execModeInitEcb dir s
  | .modeInitCbc dir ivlen _ => Sys2Proof.Machine.execModeInitCbc dir ivlen s
  | .modeInitCtr dir ivlen m => Sys2Proof.Machine.execModeInitCtr dir ivlen m s
  | .process inlen outlen => Sys2Proof.Machine.execProcess inlen outlen s

end Sys2Proof.Machine
end

