-- ==== Sys2Proof/Machine/Engine.lean ====
section
/-! DEFINITION. The engine's turn, and the next thing that happens at its port. -/

namespace Sys2Proof.Machine

/-- Completion of the command in flight: LCMD is decoded and run, or ends with Failure(ILLEGAL) (R85, R296). -/
def completeCommand (s : State) : Host.Outcome State Fault Refusal :=
  match decode s.lcmd with
  | .legal i => exec i s
  | .illegal _ => .next (raiseFailure .illegal s)

/-- The engine's turn: a command in flight completes; with none in flight the engine waits. Log entries 2 and 16. -/
def engineTurn (s : State) : Host.Outcome State Fault Refusal :=
  if s.busy then completeCommand s else .next s

/-- The next thing at the port happens. With nothing left to arrive the engine has its turn, and while BUSY = 1 a CMD
write has no step of its own: it stays where it is and the engine has its turn (R295). Log entries 1 and 2. -/
def portStep (s : State) : Host.Outcome State Fault Refusal :=
  match s.arrivals with
  | [] => engineTurn s
  | .engine :: rest => engineTurn (withArrivals rest s)
  | .reset :: rest => .next (resetEvent (withArrivals rest s))
  | .access a :: rest => if heldAccess a s then engineTurn s else busAccess a (withArrivals rest s)

/-- A command word placed as the next thing to run: accepted now, the engine's turn next. Log entry 11. -/
def placeCommand (w : Word) (s : State) : State :=
  withArrivals (.engine :: s.arrivals) (accept w s)

end Sys2Proof.Machine
end

