-- ==== Sys2Proof/Machine/Step.lean ====
section
/-! DEFINITION. One step of the machine, and the state in which the very next step runs a given word. -/

namespace Sys2Proof.Machine

/-- One step: the next thing at the engine's port happens (R1, R69, R296). -/
def step (s : State) : Host.Outcome State Fault Refusal := portStep s

/-- The state in which the next step completes the command with this word: the word has been accepted, with the
staging registers as they stand, and the engine has its turn (R294). The engine fetches nothing (R39), so this stands
for the host's CMD write. Log entry 11. -/
def State.withFetchWord (s : State) (nbits w : Nat) : State := placeCommand (BitVec.ofNat 32 (w % 2 ^ nbits)) s

end Sys2Proof.Machine
end

