-- ==== Sys2Proof/Machine/Assembler.lean ====
section
/-! DEFINITION. The assembler syntax and its pseudo-instructions (R88, R89), as lists of things that arrive at the
port. The source has no assembler; a host program is what arrives. -/

namespace Sys2Proof.Machine

/-- The command forms of R88. A left-out length is 16, a left-out direction ENC. -/
inductive AsmCommand where
  | setKey (keylen : Nat)
  | encrypt (inlen : Nat := 16) (outlen : Nat := 16)
  | decrypt (inlen : Nat := 16) (outlen : Nat := 16)
  | modeInitEcb (dir : Dir)
  | modeInitCbc (dir : Dir) (ivlen : Nat := 16)
  | modeInitCtr (m : Nat) (ivlen : Nat := 16) (dir : Dir := .encrypt)
  | process (inlen : Nat := 16) (outlen : Nat := 16)
  /-- `.word`: a raw or illegal word. -/
  | word (v : Word)
  deriving DecidableEq, Repr

/-- ENC is dir = 0 and DEC is dir = 1 (R88). -/
def asmDir : Dir → Word
  | .encrypt => 0#32
  | .decrypt => 1#32

/-- The word that a command form writes to CMD, by the formula of R88. -/
def asmWord : AsmCommand → Word
  | .setKey keylen => 0x00000001#32 ||| BitVec.ofNat 32 keylen <<< 8
  | .encrypt inlen outlen => 0x00000002#32 ||| BitVec.ofNat 32 inlen <<< 8 ||| BitVec.ofNat 32 outlen <<< 16
  | .decrypt inlen outlen => 0x00000003#32 ||| BitVec.ofNat 32 inlen <<< 8 ||| BitVec.ofNat 32 outlen <<< 16
  | .modeInitEcb dir => 0x00000004#32 ||| asmDir dir <<< 6
  | .modeInitCbc dir ivlen => 0x00000014#32 ||| asmDir dir <<< 6 ||| BitVec.ofNat 32 ivlen <<< 8
  | .modeInitCtr m ivlen dir =>
    0x00000024#32 ||| asmDir dir <<< 6 ||| BitVec.ofNat 32 ivlen <<< 8 ||| BitVec.ofNat 32 m <<< 16
  | .process inlen outlen => 0x00000005#32 ||| BitVec.ofNat 32 inlen <<< 8 ||| BitVec.ofNat 32 outlen <<< 16
  | .word v => v

/-- `MemWrite(BASE_ADDR + offset(reg), 4, v)` (R88). -/
def memWrite (r : WindowReg) (v : Word) : PortEvent :=
  .access { addr := Config.baseAddr + regOffset r, size := 4, op := .write v }

/-- `MemRead(BASE_ADDR + offset(reg), 4)` (R88). -/
def memRead (r : WindowReg) : PortEvent := .access { addr := Config.baseAddr + regOffset r, size := 4, op := .read }

/-- `WR CMD` with a command's word (R88). -/
def commandWrite (c : AsmCommand) : List PortEvent := [memWrite .cmd (asmWord c)]

/-- `WAIT`: reads of STATUS that see BUSY = 1, then the engine's turn, then the read that sees BUSY = 0 (R89). How many
reads come before depends on LATENCY, so the number is an argument. Log entry 15. -/
def waitEvents (polls : Nat) : List PortEvent :=
  List.replicate polls (memRead .status) ++ [.engine, memRead .status]

/-- The lines of a host program: bus accesses, commands and pseudo-instructions (R88, R89). -/
inductive AsmLine where
  | wr (r : WindowReg) (v : Word)
  | rd (r : WindowReg)
  | command (c : AsmCommand)
  | wait (polls : Nat)
  /-- `LDKEY`: the key has 4n bytes, n = 4, 6 or 8 words. -/
  | ldkey (n : Rounds) (key : Vector Byte 32)
  | ldiv (b : Block)
  | ldin (b : Block)
  | rdout
  | rdcv
  | check (c : AsmCommand) (polls : Nat)
  deriving DecidableEq, Repr

/-- `WR KEYj` with key bytes 4j..4j+3, big-endian (R89). -/
def keyWrite (key : Vector Byte 32) (j : Fin 8) : PortEvent :=
  memWrite (.key j) (wordOfBytes key[4 * j.val] key[4 * j.val + 1] key[4 * j.val + 2] key[4 * j.val + 3])

/-- The expansion of a line (R88, R89). -/
def asmEvents : AsmLine → List PortEvent
  | .wr r v => [memWrite r v]
  | .rd r => [memRead r]
  | .command c => commandWrite c
  | .wait polls => waitEvents polls
  | .ldkey n key => ((List.finRange 8).take (keyWordCount n)).map (keyWrite key)
  | .ldiv b => (List.finRange 4).map fun j => memWrite (.iv j) (wordOfBlock b j)
  | .ldin b => (List.finRange 4).map fun j => memWrite (.din j) (wordOfBlock b j)
  | .rdout => (List.finRange 4).map fun j => memRead (.dout j)
  | .rdcv => (List.finRange 4).map fun j => memRead (.cv j)
  | .check c polls => commandWrite c ++ waitEvents polls ++ [memRead .status]

/-- A host program, line by line (R88). -/
def asmProgram (lines : List AsmLine) : List PortEvent := lines.flatMap asmEvents

end Sys2Proof.Machine
end

