-- ==== Sys2Proof/Safety.lean ====
section
/-! DEFINITION. The terms that claims use: the invariant of the state, the kinds of step, states that no program can
tell apart, messages of several blocks, and what counts as a clean run. -/

namespace Sys2Proof.Machine

/-! ## The invariant -/

/-- While a key is valid, the decryption keys are those of the encryption keys (R34). -/
def keyStoreOk (s : State) : Prop :=
  s.keyValid = true →
    s.dk[0] = s.ek[0] ∧ lastKey s.dk s.nr = lastKey s.ek s.nr ∧
      ∀ r : Fin 15, 1 ≤ r.val → r.val < roundCount s.nr → s.dk[r] = invMixColumns s.ek[r]

/-- While a key is valid, the encryption keys are the schedule of some key (R147). -/
def keyScheduleOk (s : State) : Prop :=
  s.keyValid = true →
    ∃ key : Vector Byte 32, ∀ r : Fin 15, ∀ h : r.val ≤ roundCount s.nr,
      s.ek[r] = roundKeyBlock s.nr (keyExpansion s.nr key) r.val h

/-- KEY_BITS is the size of the valid key, and 0 while there is none (R20, R148, R149). -/
def keyBitsOk (s : State) : Prop :=
  s.keyBits.toNat = if s.keyValid then 32 * keyWordCount s.nr else 0

/-- CTR_M is a legal width in CTR mode, and 0 in the others (R32). -/
def modeStateOk (s : State) : Prop :=
  (s.mode = .ctr → 1 ≤ s.ctrM.toNat ∧ s.ctrM.toNat ≤ 128) ∧ (s.mode ≠ .ctr → s.ctrM = 0#8)

/-- A command in flight has no result yet; FAIL says whether ERR holds a code; only a completed command has failed
(R30, R294, R296). -/
def commandStateOk (s : State) : Prop :=
  (s.busy = true → s.done = false ∧ s.fail = false ∧ s.err = .none) ∧ (s.fail = true ↔ s.err ≠ .none) ∧
    (s.fail = true → s.done = true)

/-- The invariant of the engine's state. -/
structure Inv (s : State) : Prop where
  keyStore : keyStoreOk s
  keySchedule : keyScheduleOk s
  keyBits : keyBitsOk s
  modeState : modeStateOk s
  commandState : commandStateOk s

/-! ## The kinds of step -/

/-- The step from s to t completes the command in flight (R296). -/
def Completes (s t : State) : Prop :=
  s.busy = true ∧ ∃ es, completeCommand (withArrivals es s) = .next t

/-- The next thing to arrive is a supported write of v to CMD (R28, R65). -/
def CmdWriteNext (v : Word) (rest : List PortEvent) (s : State) : Prop :=
  ∃ a, s.arrivals = .access a :: rest ∧ isCmdWrite a = true ∧ a.op = .write v

/-- The step from s accepts a command (R294). -/
def Accepts (s : State) : Prop := s.busy = false ∧ ∃ v rest, CmdWriteNext v rest s

/-- The next thing to arrive is a reset (R291). -/
def ResetNext (s : State) : Prop := ∃ rest, s.arrivals = .reset :: rest

/-- The next thing to arrive is a supported 32-bit write to this register (R65). -/
def WriteNext (r : WindowReg) (v : Word) (rest : List PortEvent) (s : State) : Prop :=
  s.arrivals = .access { addr := Config.baseAddr + regOffset r, size := 4, op := .write v } :: rest

/-- The command that runs at a completion is an ENCRYPT, DECRYPT or PROCESS (R26). -/
def isBlockCommand : Instr → Bool
  | .setKey _ => false
  | .encrypt _ _ => true
  | .decrypt _ _ => true
  | .modeInitEcb _ _ _ => false
  | .modeInitCbc _ _ _ => false
  | .modeInitCtr _ _ _ => false
  | .process _ _ => true

/-- The command is a MODE_INIT (R210). -/
def isModeInit : Instr → Bool
  | .setKey _ => false
  | .encrypt _ _ => false
  | .decrypt _ _ => false
  | .modeInitEcb _ _ _ => true
  | .modeInitCbc _ _ _ => true
  | .modeInitCtr _ _ _ => true
  | .process _ _ => false

/-- The command writes CV when it succeeds with this MODE: MODE_INIT for CBC or CTR, and PROCESS in CBC or CTR
(R27). -/
def writesCv (mode : Mode) : Instr → Bool
  | .setKey _ => false
  | .encrypt _ _ => false
  | .decrypt _ _ => false
  | .modeInitEcb _ _ _ => false
  | .modeInitCbc _ _ _ => true
  | .modeInitCtr _ _ _ => true
  | .process _ _ => decide (mode ≠ .ecb)

/-- A staging register: KEY, IV or DIN (R23 to R25). -/
def isStaging : WindowReg → Bool
  | .key _ => true
  | .iv _ => true
  | .din _ => true
  | _ => false

/-! ## Clean runs -/

/-- An event that neither faults nor is refused: a supported access of the window (R62), or no access at all. -/
def cleanEvent : PortEvent → Bool
  | .access a => accessAligned a && (windowOffset a.addr).isSome
  | .engine => true
  | .reset => true

/-- Everything that is still to arrive is clean. -/
def cleanArrivals (s : State) : Bool := s.arrivals.all cleanEvent

/-! ## States that cannot be told apart (R20: "Unspecified values are never observable") -/

/-- The same values wherever the spec gives one: the key store counts while a key is valid, and only up to NR; the
latched operands count while a command is in flight; how many free values were drawn does not count. -/
structure Alike (s t : State) : Prop where
  key : s.key = t.key
  iv : s.iv = t.iv
  din : s.din = t.din
  dout : s.dout = t.dout
  cv : s.cv = t.cv
  keyValid : s.keyValid = t.keyValid
  keyBits : s.keyBits = t.keyBits
  modeParamsOk : s.modeParamsOk = t.modeParamsOk
  mode : s.mode = t.mode
  dir : s.dir = t.dir
  ctrM : s.ctrM = t.ctrM
  busy : s.busy = t.busy
  done : s.done = t.done
  fail : s.fail = t.fail
  err : s.err = t.err
  arrivals : s.arrivals = t.arrivals
  answer : s.answer = t.answer
  rounds : s.keyValid = true → s.nr = t.nr
  roundKeys : s.keyValid = true → ∀ r : Fin 15, r.val ≤ roundCount s.nr → s.ek[r] = t.ek[r] ∧ s.dk[r] = t.dk[r]
  latched : s.busy = true → s.lcmd = t.lcmd ∧ s.lkey = t.lkey ∧ s.liv = t.liv ∧ s.ldin = t.ldin

/-- The same outcome as far as it can be seen. -/
def AlikeOutcome : Host.Outcome State Fault Refusal → Host.Outcome State Fault Refusal → Prop
  | .next s, .next t => Alike s t
  | .fault a, .fault b => a = b
  | .refused a, .refused b => a = b
  | _, _ => False

/-! ## Other formulations of decryption (R182) -/

/-- The straightforward inverse cipher, with the encryption keys (R182 (b)). -/
def straightInverse (ek : Vector Block 15) (n : Rounds) (c : Block) : Block :=
  roundDecLast
    ((middleKeys ek n).foldr (fun k s => invMixColumns (addRoundKey (invSubBytes (invShiftRows s)) k))
      (addRoundKey c (lastKey ek n)))
    ek[0]

/-! ## Messages (R236) -/

/-- The host writes x to DIN and issues a command word, and the command completes (R299). -/
def issueOnBlock (w : Word) (x : Block) (s : State) : Host.Outcome State Fault Refusal :=
  completeCommand (accept w { s with din := Vector.ofFn fun j => wordOfBlock x j })

/-- The host writes v to IV and issues a command word, and the command completes (R299). -/
def issueOnIv (w : Word) (v : Block) (s : State) : Host.Outcome State Fault Refusal :=
  completeCommand (accept w { s with iv := Vector.ofFn fun j => wordOfBlock v j })

/-- PROCESS 16,16 on each block in turn (R236): the outputs and the state after, if every PROCESS succeeds. -/
def processMessage : List Block → State → Option (List Block × State)
  | [], s => some ([], s)
  | x :: xs, s =>
    match issueOnBlock 0x00101005#32 x s with
    | .next t =>
      if t.fail then none
      else
        match processMessage xs t with
        | some (ys, u) => some (t.dout :: ys, u)
        | none => none
    | .fault _ => none
    | .refused _ => none

/-- CBC encryption from the vector v: Yi = E(Xi ^ Y(i-1)) (R236). -/
def cbcEncrypt (e : Block → Block) : (v : Block) → List Block → List Block
  | _, [] => []
  | v, x :: xs => e (blockXor x v) :: cbcEncrypt e (e (blockXor x v)) xs

/-- CBC decryption from the vector v: Yi = D(Xi) ^ X(i-1) (R236). -/
def cbcDecrypt (d : Block → Block) : (v : Block) → List Block → List Block
  | _, [] => []
  | v, x :: xs => blockXor (d x) v :: cbcDecrypt d x xs

/-- CTR from the counter block v: Yi = E(Ti) ^ Xi, T(i+1) = CtrInc(Ti, m) (R236). -/
def ctrCrypt (e : Block → Block) (m : Nat) : (v : Block) → List Block → List Block
  | _, [] => []
  | v, x :: xs => blockXor (e v) x :: ctrCrypt e m (ctrInc v m) xs

end Sys2Proof.Machine
end

