-- ==== Sys2Proof/Certificates/Slice0/Obligations.lean ====
section
/-! DEFINITION. The statements for the provers, in the order of the spec's files. -/

open Sys2Proof Sys2Proof.Machine

/-! ## The field and the S-box (`40_gf_sbox.md`) -/

/-- R106: the field laws. -/
def Obligations.FieldLawsOfGmul : Prop :=
  (∀ a b : Byte, gmul a b = gmul b a) ∧ (∀ a b c : Byte, gmul (gmul a b) c = gmul a (gmul b c)) ∧
    (∀ a : Byte, gmul 0x01#8 a = a ∧ gmul a 0x01#8 = a) ∧
    (∀ a b c : Byte, gmul a (b ^^^ c) = gmul a b ^^^ gmul a c ∧ gmul (a ^^^ b) c = gmul a c ^^^ gmul b c) ∧
    (∀ a : Byte, a ≠ 0x00#8 → gmul a (ginv a) = 0x01#8) ∧ (∀ a : Byte, xtime a = gmul a 0x02#8)

/-- R103 read as exponentiation: square-and-multiply gives the e-fold product, for every e. -/
def Obligations.PowerIsRepeatedProduct : Prop :=
  ∀ (a : Byte) (e : Nat), gpow a e = (gmul a)^[e] 0x01#8

/-- R114: the two S-boxes are inverse permutations of the bytes. -/
def Obligations.SboxesAreInversePermutations : Prop :=
  (∀ x : Byte, invSbox (sbox x) = x) ∧ (∀ x : Byte, sbox (invSbox x) = x)

/-- R36, R111, R113: the tables that the spec prints are the values of the functions, and S has no fixed point and no
opposite fixed point. -/
def Obligations.SboxFunctionsMatchPrintedTables : Prop :=
  table40_1.length = 256 ∧ table40_2.length = 256 ∧
    (∀ x : Byte, table40_1[x.toNat]? = some (sbox x) ∧ table40_2[x.toNat]? = some (invSbox x)) ∧
    ∀ x : Byte, sbox x ≠ x ∧ sbox x ≠ x ^^^ 0xFF#8

/-! ## The key schedule and SET_KEY (`41_key_schedule.md`) -/

/-- R144: the words of the schedule, with the rule's examples for the key 000102...0f. -/
def Obligations.KeyExpansionRecurrence : Prop :=
  (∀ (n : Rounds) (key : Vector Byte 32) (i : Nat) (h : i < scheduleLength n),
    (i < keyWordCount n → ∀ t : Fin 4, some ((keyExpansion n key)[i])[t] = key[4 * i + t.val]?) ∧
    (keyWordCount n ≤ i →
      (keyExpansion n key)[i] =
        keyWordXor ((keyExpansion n key)[i - keyWordCount n]'(Nat.lt_of_le_of_lt (Nat.sub_le _ _) h))
          (if i % keyWordCount n = 0 then
            keyWordXor
              (subWord (rotWord ((keyExpansion n key)[i - 1]'(Nat.lt_of_le_of_lt (Nat.sub_le _ _) h))))
              #v[rcon (i / keyWordCount n), 0x00#8, 0x00#8, 0x00#8]
          else if keyWordCount n > 6 ∧ i % keyWordCount n = 4 then
            subWord ((keyExpansion n key)[i - 1]'(Nat.lt_of_le_of_lt (Nat.sub_le _ _) h))
          else (keyExpansion n key)[i - 1]'(Nat.lt_of_le_of_lt (Nat.sub_le _ _) h)))) ∧
  (∀ key : Vector Byte 32, (∀ i : Fin 16, key[i.val] = BitVec.ofNat 8 i.val) →
    (keyExpansion .r10 key)[4]? = some #v[0xD6#8, 0xAA#8, 0x74#8, 0xFD#8] ∧
    (keyExpansion .r10 key)[43]? = some #v[0x4D#8, 0x2B#8, 0x30#8, 0xC5#8])

/-- R140, R145, R146, R148: a SET_KEY of a legal length answers the next state in which the key store holds the
schedule of the latched key bytes and KEY_VALID = 1; the store's unused entries, the count of free values and the
command state apart, nothing else changes. -/
def Obligations.SetKeyLoadsTheSchedule : Prop :=
  ∀ (s : State) (n : Rounds) (keylen : Nat),
    (n = .r10 ∧ keylen = 16 ∨ n = .r12 ∧ keylen = 24 ∨ n = .r14 ∧ keylen = 32) →
    ∃ t, exec (.setKey keylen) s = .next t ∧
      t.nr = n ∧ roundCount n = keylen / 4 + 6 ∧
      (∀ (r : Fin 15) (k t' : Fin 4) (h : 4 * r.val + k.val < scheduleLength n),
        t.ek[r][4 * k.val + t'.val] = ((keyExpansion n s.lkey)[4 * r.val + k.val])[t']) ∧
      t.dk[0] = t.ek[0] ∧ lastKey t.dk n = lastKey t.ek n ∧
      (∀ r : Fin 15, 1 ≤ r.val → r.val < roundCount n → t.dk[r] = invMixColumns t.ek[r]) ∧
      t.keyBits.toNat = 8 * keylen ∧
      t = { s with
        keyValid := true, keyBits := t.keyBits, nr := t.nr, ek := t.ek, dk := t.dk, draws := t.draws
        busy := false, done := true, fail := false, err := .none }

/-- R148: staging bytes past keylen are ignored. -/
def Obligations.SetKeyIgnoresBytesPastItsLength : Prop :=
  ∀ (s t : State) (keylen : Nat) (other : Vector Byte 32),
    (∀ i : Fin 32, i.val < keylen → other[i] = s.lkey[i]) →
    exec (.setKey keylen) s = .next t →
    exec (.setKey keylen) { s with lkey := other } = .next { t with lkey := other }

/-- R149: a SET_KEY of any other length leaves no valid key and fails with KEY_LENGTH; NR, EK, DK, the count of free
values and the command state apart, nothing else changes; the block commands then fail with KEY_INVALID, and only a
SET_KEY that succeeds ends that. -/
def Obligations.BadKeyLengthInvalidatesTheKey : Prop :=
  (∀ (s : State) (keylen : Nat), keylen ≠ 16 → keylen ≠ 24 → keylen ≠ 32 →
    ∃ t, exec (.setKey keylen) s = .next t ∧
      t = { s with
        keyValid := false, keyBits := 0#16, nr := t.nr, ek := t.ek, dk := t.dk, draws := t.draws
        busy := false, done := true, fail := true, err := .keyLength }) ∧
  (∀ s : State, s.keyValid = false →
    exec (.encrypt 16 16) s = .next { s with busy := false, done := true, fail := true, err := .keyInvalid } ∧
    exec (.decrypt 16 16) s = .next { s with busy := false, done := true, fail := true, err := .keyInvalid } ∧
    (s.modeParamsOk = true →
      exec (.process 16 16) s = .next { s with busy := false, done := true, fail := true, err := .keyInvalid })) ∧
  (∀ s t : State, s.keyValid = false → step s = .next t → t.keyValid = true →
    Completes s t ∧ t.fail = false ∧ ∃ keylen, decode s.lcmd = .legal (.setKey keylen))

/-- R150: SET_KEY keeps the mode state whether it succeeds or fails, and readiness follows the key. -/
def Obligations.SetKeyKeepsTheModeState : Prop :=
  ∀ (s : State) (keylen : Nat),
    ∃ t, exec (.setKey keylen) s = .next t ∧
      t.modeParamsOk = s.modeParamsOk ∧ t.mode = s.mode ∧ t.dir = s.dir ∧ t.ctrM = s.ctrM ∧ t.cv = s.cv ∧
      (t.fail = true → modeReady t = false) ∧ (t.fail = false → modeReady t = s.modeParamsOk)

/-! ## The round transform, ENCRYPT and DECRYPT (`42_round_transform.md`) -/

/-- R170 to R175, R178: AddRoundKey undoes itself, the byte substitutions undo each other, SubBytes commutes with
ShiftRows, and in the matrix s[r][c] = B[r + 4c] the row shifts move row r left by r places, and back. -/
def Obligations.ByteStepsInvertAndRowsShift : Prop :=
  (∀ s k : Block, addRoundKey (addRoundKey s k) k = s) ∧
    (∀ s : Block, invSubBytes (subBytes s) = s ∧ subBytes (invSubBytes s) = s) ∧
    (∀ s : Block, invShiftRows (shiftRows s) = s ∧ shiftRows (invShiftRows s) = s) ∧
    (∀ s : Block, shiftRows (subBytes s) = subBytes (shiftRows s)) ∧
    ∀ (s : Block) (r c : Fin 4),
      (shiftRows s)[r.val + 4 * c.val] = s[r.val + 4 * (c + r).val] ∧
        (invShiftRows s)[r.val + 4 * c.val] = s[r.val + 4 * (c - r).val]

/-- R176, R177: the two column mixes undo each other, and InvMixColumns is linear. -/
def Obligations.MixColumnsInverts : Prop :=
  (∀ s : Block, invMixColumns (mixColumns s) = s ∧ mixColumns (invMixColumns s) = s) ∧
    ∀ a b : Block, invMixColumns (blockXor a b) = blockXor (invMixColumns a) (invMixColumns b)

/-- R182: InvSubBytes and InvShiftRows may be applied in either order; the straightforward inverse cipher with the
encryption keys equals InvCipher; the source's printed order with the decryption keys does not. -/
def Obligations.EquivalentDecryptionFormulations : Prop :=
  (∀ s : Block, invSubBytes (invShiftRows s) = invShiftRows (invSubBytes s)) ∧
  (∀ s : State, s.keyValid = true → keyStoreOk s → ∀ c : Block,
    invCipher s.dk s.nr c = straightInverse s.ek s.nr c) ∧
  (∃ s : State, s.keyValid = true ∧ keyStoreOk s ∧ ∃ c : Block, invCipher s.dk s.nr c ≠ straightInverse s.dk s.nr c)

/-- R183: under the key store of any SET_KEY of a legal length, Cipher and InvCipher undo each other, so Cipher is a
permutation of the blocks. -/
def Obligations.CipherRoundTripForEveryKey : Prop :=
  ∀ (s : State) (keylen : Nat), keylen = 16 ∨ keylen = 24 ∨ keylen = 32 →
    ∃ t, exec (.setKey keylen) s = .next t ∧
      (∀ p : Block, invCipher t.dk t.nr (cipher t.ek t.nr p) = p) ∧
      (∀ c : Block, cipher t.ek t.nr (invCipher t.dk t.nr c) = c) ∧
      Function.Bijective (cipher t.ek t.nr)

/-- R186: ENCRYPT, for every operand and state: BLOCK_SIZE, then KEY_INVALID, else DOUT takes Cipher of the latched
input. Nothing but DOUT and the command state changes, and on a failure DOUT does not either. -/
def Obligations.EncryptResult : Prop :=
  ∀ (s : State) (inlen outlen : Nat),
    (¬(inlen = 16 ∧ outlen = 16) →
      exec (.encrypt inlen outlen) s =
        .next { s with busy := false, done := true, fail := true, err := .blockSize }) ∧
    (inlen = 16 ∧ outlen = 16 → s.keyValid = false →
      exec (.encrypt inlen outlen) s =
        .next { s with busy := false, done := true, fail := true, err := .keyInvalid }) ∧
    (inlen = 16 ∧ outlen = 16 → s.keyValid = true →
      exec (.encrypt inlen outlen) s =
        .next { s with
          dout := cipher s.ek s.nr s.ldin, busy := false, done := true, fail := false, err := .none })

/-- R187: DECRYPT, for every operand and state, as ENCRYPT with InvCipher and DK. -/
def Obligations.DecryptResult : Prop :=
  ∀ (s : State) (inlen outlen : Nat),
    (¬(inlen = 16 ∧ outlen = 16) →
      exec (.decrypt inlen outlen) s =
        .next { s with busy := false, done := true, fail := true, err := .blockSize }) ∧
    (inlen = 16 ∧ outlen = 16 → s.keyValid = false →
      exec (.decrypt inlen outlen) s =
        .next { s with busy := false, done := true, fail := true, err := .keyInvalid }) ∧
    (inlen = 16 ∧ outlen = 16 → s.keyValid = true →
      exec (.decrypt inlen outlen) s =
        .next { s with
          dout := invCipher s.dk s.nr s.ldin, busy := false, done := true, fail := false, err := .none })

/-- R187, R183: DECRYPT of the DOUT of an ENCRYPT under the same key gives the original block. -/
def Obligations.DecryptUndoesEncrypt : Prop :=
  ∀ s : State, s.keyValid = true → keyStoreOk s →
    ∃ t u, exec (.encrypt 16 16) s = .next t ∧ exec (.decrypt 16 16) { t with ldin := t.dout } = .next u ∧
      u.dout = s.ldin ∧ u.fail = false

/-- R38: ENCRYPT and DECRYPT neither read nor write the mode state: run beside any other mode state they do the same,
and that mode state comes out as it went in. -/
def Obligations.BlockCommandsIgnoreTheModeState : Prop :=
  ∀ (i : Instr) (inlen outlen : Nat), (i = .encrypt inlen outlen ∨ i = .decrypt inlen outlen) →
    ∀ (s : State) (ok : Bool) (md : Mode) (d : Dir) (m : BitVec 8) (v : Block),
      ∃ t, exec i s = .next t ∧
        t.modeParamsOk = s.modeParamsOk ∧ t.mode = s.mode ∧ t.dir = s.dir ∧ t.ctrM = s.ctrM ∧ t.cv = s.cv ∧
        exec i { s with modeParamsOk := ok, mode := md, dir := d, ctrM := m, cv := v } =
          .next { t with modeParamsOk := ok, mode := md, dir := d, ctrM := m, cv := v }

/-! ## The modes (`43_modes.md`) -/

/-- R211: MODE_INIT.ECB succeeds in every state, whatever its ignored operands are, and keeps CV. -/
def Obligations.ModeInitEcbResult : Prop :=
  ∀ (s : State) (d : Dir) (lena lenb : Nat),
    exec (.modeInitEcb d lena lenb) s =
      .next { s with
        mode := .ecb, dir := d, ctrM := 0#8, modeParamsOk := true
        busy := false, done := true, fail := false, err := .none }

/-- R212: MODE_INIT.CBC with ivlen 16 loads CV from the latched IV, whatever the ignored LENB is. -/
def Obligations.ModeInitCbcResult : Prop :=
  ∀ (s : State) (d : Dir) (ivlen lenb : Nat),
    (ivlen = 16 →
      exec (.modeInitCbc d ivlen lenb) s =
        .next { s with
          mode := .cbc, dir := d, ctrM := 0#8, cv := s.liv, modeParamsOk := true
          busy := false, done := true, fail := false, err := .none }) ∧
    (ivlen ≠ 16 →
      exec (.modeInitCbc d ivlen lenb) s =
        .next { s with modeParamsOk := false, busy := false, done := true, fail := true, err := .ivLength })

/-- R213: MODE_INIT.CTR with ivlen 16 and a width in 1..128 loads CV with CtrLoad and CTR_M with m; IV_LENGTH is
checked before CTR_WIDTH. -/
def Obligations.ModeInitCtrResult : Prop :=
  ∀ (s : State) (d : Dir) (ivlen m : Nat),
    (ivlen = 16 → 1 ≤ m → m ≤ 128 →
      ∃ t, exec (.modeInitCtr d ivlen m) s = .next t ∧ t.ctrM.toNat = m ∧
        t = { s with
          mode := .ctr, dir := d, ctrM := t.ctrM, cv := ctrLoad s.liv m, modeParamsOk := true
          busy := false, done := true, fail := false, err := .none }) ∧
    (ivlen = 16 → m < 1 ∨ 128 < m →
      exec (.modeInitCtr d ivlen m) s =
        .next { s with modeParamsOk := false, busy := false, done := true, fail := true, err := .ctrWidth }) ∧
    (ivlen ≠ 16 →
      exec (.modeInitCtr d ivlen m) s =
        .next { s with modeParamsOk := false, busy := false, done := true, fail := true, err := .ivLength })

/-- R214: a MODE_INIT that fails a parameter check clears MODE_PARAMS_OK and nothing else; the mode is then
Uninitialized and every PROCESS fails with MODE_NOT_INIT until a MODE_INIT succeeds; an ILLEGAL word changes nothing
at all but the command state. -/
def Obligations.FailedModeInitClearsOnlyParamsOk : Prop :=
  (∀ (s : State) (d : Dir) (ivlen lenb m : Nat), ∀ i, (i = .modeInitCbc d ivlen lenb ∨ i = .modeInitCtr d ivlen m) →
    ∀ t, exec i s = .next t → t.fail = true →
      (t.err = .ivLength ∨ t.err = .ctrWidth) ∧
        t = { s with modeParamsOk := false, busy := false, done := true, fail := true, err := t.err } ∧
        modeReady t = false) ∧
  (∀ (s : State) (inlen outlen : Nat), s.modeParamsOk = false →
    exec (.process inlen outlen) s =
      .next { s with busy := false, done := true, fail := true, err := .modeNotInit }) ∧
  (∀ s t : State, s.modeParamsOk = false → step s = .next t → t.modeParamsOk = true →
    Completes s t ∧ t.fail = false ∧ ∃ i, decode s.lcmd = .legal i ∧ isModeInit i = true) ∧
  (∀ (s : State) (why : IllegalCause), decode s.lcmd = .illegal why →
    completeCommand s = .next { s with busy := false, done := true, fail := true, err := .illegal })

/-- R221: CtrLoad clears the bits of the partial counter byte above the window and keeps every other bit, so for a
width that is a multiple of 8 it is the identity. -/
def Obligations.CounterLoadClearsPartialByte : Prop :=
  ∀ (iv : Block) (m : Nat), 1 ≤ m → m ≤ 128 →
    blockValue (ctrLoad iv m) =
        blockValue iv / 256 ^ ((m + 7) / 8) * 256 ^ ((m + 7) / 8) + blockValue iv % 2 ^ m ∧
      (m % 8 = 0 → ctrLoad iv m = iv)

/-- R223: the counter laws, for every block and every width in 1..128. -/
def Obligations.CounterIncrementLaws : Prop :=
  ∀ (cv : Block) (m : Nat), 1 ≤ m → m ≤ 128 →
    counterValue cv m % 2 ^ m = blockValue cv % 2 ^ m ∧
    blockValue (ctrInc cv m) / 2 ^ m = blockValue cv / 2 ^ m ∧
    blockValue (ctrInc cv m) % 2 ^ m = (blockValue cv % 2 ^ m + 1) % 2 ^ m ∧
    ((fun b => ctrInc b m)^[2 ^ m] cv = cv ∧
      ∀ k, 0 < k → k < 2 ^ m → (fun b => ctrInc b m)^[k] cv ≠ cv) ∧
    ctrInc (ctrLoad cv m) m = ctrLoad (ctrInc cv m) m ∧
    blockValue (ctrInc cv m) =
      (blockValue cv - blockValue cv % 2 ^ m) + (blockValue cv % 2 ^ m + 1) % 2 ^ m

/-- R230 to R235: PROCESS, for every operand and state. On a Ready engine with both lengths 16, what DOUT and CV take
in each mode and direction; otherwise the first failing check of MODE_NOT_INIT, BLOCK_SIZE, KEY_INVALID. Nothing else
but the command state changes, and on a failure DOUT and CV do not either. -/
def Obligations.ProcessResult : Prop :=
  (∀ s : State, s.modeParamsOk = true → s.keyValid = true →
      (s.mode = .ecb → s.dir = .encrypt →
        exec (.process 16 16) s =
          .next { s with
            dout := cipher s.ek s.nr s.ldin, busy := false, done := true, fail := false, err := .none }) ∧
      (s.mode = .ecb → s.dir = .decrypt →
        exec (.process 16 16) s =
          .next { s with
            dout := invCipher s.dk s.nr s.ldin, busy := false, done := true, fail := false, err := .none }) ∧
      (s.mode = .cbc → s.dir = .encrypt →
        exec (.process 16 16) s =
          .next { s with
            dout := cipher s.ek s.nr (blockXor s.ldin s.cv), cv := cipher s.ek s.nr (blockXor s.ldin s.cv)
            busy := false, done := true, fail := false, err := .none }) ∧
      (s.mode = .cbc → s.dir = .decrypt →
        exec (.process 16 16) s =
          .next { s with
            dout := blockXor (invCipher s.dk s.nr s.ldin) s.cv, cv := s.ldin
            busy := false, done := true, fail := false, err := .none }) ∧
      (s.mode = .ctr →
        exec (.process 16 16) s =
          .next { s with
            dout := blockXor (cipher s.ek s.nr s.cv) s.ldin, cv := ctrInc s.cv s.ctrM.toNat
            busy := false, done := true, fail := false, err := .none })) ∧
  ∀ (s : State) (inlen outlen : Nat),
    (s.modeParamsOk = false →
      exec (.process inlen outlen) s =
        .next { s with busy := false, done := true, fail := true, err := .modeNotInit }) ∧
    (s.modeParamsOk = true → ¬(inlen = 16 ∧ outlen = 16) →
      exec (.process inlen outlen) s =
        .next { s with busy := false, done := true, fail := true, err := .blockSize }) ∧
    (s.modeParamsOk = true → inlen = 16 ∧ outlen = 16 → s.keyValid = false →
      exec (.process inlen outlen) s =
        .next { s with busy := false, done := true, fail := true, err := .keyInvalid })

/-- R236: the outputs and the chaining vector of a message of any number of blocks, in each mode. -/
def Obligations.MessageFormulas : Prop :=
  ∀ (s : State) (xs : List Block), s.modeParamsOk = true → s.keyValid = true →
    (s.mode = .ecb → s.dir = .encrypt →
      ∃ t, processMessage xs s = some (xs.map (cipher s.ek s.nr), t) ∧ t.cv = s.cv) ∧
    (s.mode = .ecb → s.dir = .decrypt →
      ∃ t, processMessage xs s = some (xs.map (invCipher s.dk s.nr), t) ∧ t.cv = s.cv) ∧
    (s.mode = .cbc → s.dir = .encrypt →
      ∃ t, processMessage xs s = some (cbcEncrypt (cipher s.ek s.nr) s.cv xs, t) ∧
        t.cv = (cbcEncrypt (cipher s.ek s.nr) s.cv xs).getLast?.getD s.cv) ∧
    (s.mode = .cbc → s.dir = .decrypt →
      ∃ t, processMessage xs s = some (cbcDecrypt (invCipher s.dk s.nr) s.cv xs, t) ∧
        t.cv = xs.getLast?.getD s.cv) ∧
    (s.mode = .ctr →
      ∃ t, processMessage xs s = some (ctrCrypt (cipher s.ek s.nr) s.ctrM.toNat s.cv xs, t) ∧
        t.cv = (fun b => ctrInc b s.ctrM.toNat)^[xs.length] s.cv)

/-- R236: for every key and every mode, decrypting the outputs of a message in order, after a MODE_INIT with the same
IV, gives the message back. `we` and `wd` are the mode's command words for the two directions. -/
def Obligations.MessageRoundTripInEveryMode : Prop :=
  ∀ (s : State) (v : Block) (xs : List Block) (we wd : Word), s.keyValid = true → keyStoreOk s →
    (we = 0x00000004#32 ∧ wd = 0x00000044#32 ∨ we = 0x00001014#32 ∧ wd = 0x00001054#32 ∨
      ∃ m : Nat, 1 ≤ m ∧ m ≤ 128 ∧ we = encode (.modeInitCtr .encrypt 16 m) ∧
        wd = encode (.modeInitCtr .decrypt 16 m)) →
    ∃ s1 ys s2 s3 s4, issueOnIv we v s = .next s1 ∧ processMessage xs s1 = some (ys, s2) ∧
      issueOnIv wd v s2 = .next s3 ∧ processMessage ys s3 = some (xs, s4)

/-- R302: after 2^m successful PROCESS commands in CTR mode CV is back where it was, with no error. -/
def Obligations.CounterExhaustionIsSilent : Prop :=
  ∀ (s : State) (xs : List Block), s.modeParamsOk = true → s.keyValid = true → s.mode = .ctr →
    modeStateOk s → xs.length = 2 ^ s.ctrM.toNat →
    ∃ ys t, processMessage xs s = some (ys, t) ∧ t.cv = s.cv ∧ t.fail = false ∧ t.err = .none

/-! ## Encoding (`30_encoding.md`) -/

/-- R83, R86: decoding the word of a well-formed command gives it back, and a word that decodes as a command is that
command's word. -/
def Obligations.DecodeAndEncodeAgree : Prop :=
  (∀ i : Instr, i.wellFormed = true → decode (encode i) = .legal i) ∧
    ∀ (c : Word) (i : Instr), decode c = .legal i → i.wellFormed = true ∧ encode i = c

/-- R86: the opcode map: a row's words are those of its command, with the operands in the row's a, b and d bits; a word
that matches no row is ILLEGAL, and no word matches two rows. -/
def Obligations.OpcodeMapIsTheDecoder : Prop :=
  ∀ c : Word,
    (∀ (d : Dir) (a b : Nat),
      (decode c = .legal (.setKey a) ↔ c &&& 0xFFFF00FF#32 = 0x00000001#32 ∧ a = (c.extractLsb' 8 8).toNat) ∧
      (decode c = .legal (.encrypt a b) ↔
        c &&& 0xFF0000FF#32 = 0x00000002#32 ∧ a = (c.extractLsb' 8 8).toNat ∧ b = (c.extractLsb' 16 8).toNat) ∧
      (decode c = .legal (.decrypt a b) ↔
        c &&& 0xFF0000FF#32 = 0x00000003#32 ∧ a = (c.extractLsb' 8 8).toNat ∧ b = (c.extractLsb' 16 8).toNat) ∧
      (decode c = .legal (.modeInitEcb d a b) ↔
        c &&& 0xFF0000BF#32 = 0x00000004#32 ∧ (d = .decrypt ↔ c.getLsbD 6 = true) ∧
          a = (c.extractLsb' 8 8).toNat ∧ b = (c.extractLsb' 16 8).toNat) ∧
      (decode c = .legal (.modeInitCbc d a b) ↔
        c &&& 0xFF0000BF#32 = 0x00000014#32 ∧ (d = .decrypt ↔ c.getLsbD 6 = true) ∧
          a = (c.extractLsb' 8 8).toNat ∧ b = (c.extractLsb' 16 8).toNat) ∧
      (decode c = .legal (.modeInitCtr d a b) ↔
        c &&& 0xFF0000BF#32 = 0x00000024#32 ∧ (d = .decrypt ↔ c.getLsbD 6 = true) ∧
          a = (c.extractLsb' 8 8).toNat ∧ b = (c.extractLsb' 16 8).toNat) ∧
      (decode c = .legal (.process a b) ↔
        c &&& 0xFF0000FF#32 = 0x00000005#32 ∧ a = (c.extractLsb' 8 8).toNat ∧ b = (c.extractLsb' 16 8).toNat)) ∧
    ((∃ why, decode c = .illegal why) ↔ ∀ r ∈ opcodeRows, r.covers c = false) ∧
    (∀ r ∈ opcodeRows, ∀ q ∈ opcodeRows, r.covers c = true → q.covers c = true → r = q)

/-- R87: the common encodings. -/
def Obligations.CommonEncodings : Prop :=
  (∀ p ∈ [(Instr.setKey 16, 0x00001001#32), (.setKey 24, 0x00001801#32), (.setKey 32, 0x00002001#32),
      (.encrypt 16 16, 0x00101002#32), (.decrypt 16 16, 0x00101003#32), (.process 16 16, 0x00101005#32),
      (.process 15 16, 0x00100F05#32), (.process 17 16, 0x00101105#32), (.process 16 15, 0x000F1005#32)],
    encode p.1 = p.2 ∧ decode p.2 = .legal p.1) ∧
  (∀ p ∈ [(Instr.modeInitEcb .encrypt 0 0, 0x00000004#32), (.modeInitEcb .decrypt 0 0, 0x00000044#32),
      (.modeInitCbc .encrypt 16 0, 0x00001014#32), (.modeInitCbc .decrypt 16 0, 0x00001054#32),
      (.modeInitCtr .encrypt 16 1, 0x00011024#32), (.modeInitCtr .encrypt 16 8, 0x00081024#32),
      (.modeInitCtr .encrypt 16 12, 0x000C1024#32), (.modeInitCtr .encrypt 16 32, 0x00201024#32),
      (.modeInitCtr .encrypt 16 64, 0x00401024#32), (.modeInitCtr .encrypt 16 128, 0x00801024#32),
      (.modeInitCtr .encrypt 16 0, 0x00001024#32), (.modeInitCtr .encrypt 16 129, 0x00811024#32)],
    encode p.1 = p.2 ∧ decode p.2 = .legal p.1) ∧
  decode 0x00001034#32 = .illegal .gcmMode ∧ decode 0x00000000#32 = .illegal .unassignedOp

/-- R82, R85: every word with an illegal OP, with MODE_INIT's MODE = 3 or with a reserved bit set is ILLEGAL; an
ILLEGAL word is accepted like any other, completes with Failure(ILLEGAL) and changes nothing but the command state. -/
def Obligations.IllegalWordsFailAndChangeNothing : Prop :=
  (∀ c : Word,
    ((opField c).toNat = 0 ∨ 6 ≤ (opField c).toNat ∨ ((opField c).toNat = 4 ∧ (modeField c).toNat = 3) ∨
      rsv0Field c = true ∨ rsv1Field c ≠ 0#8) →
    ∃ why, decode c = .illegal why) ∧
  (∀ (s : State) (v : Word) (rest : List PortEvent), s.busy = false → CmdWriteNext v rest s →
    ∃ t, step s = .next t ∧ t.busy = true ∧ t.lcmd = v) ∧
  (∀ (s : State) (why : IllegalCause), decode s.lcmd = .illegal why →
    completeCommand s = .next { s with busy := false, done := true, fail := true, err := .illegal })

/-- R88: the word that the assembler writes for a command with operands that fit is the command's word. -/
def Obligations.AssemblerWritesTheEncoding : Prop :=
  ∀ (d : Dir) (a b : Nat), a < 256 → b < 256 →
    asmWord (.setKey a) = encode (.setKey a) ∧ asmWord (.encrypt a b) = encode (.encrypt a b) ∧
    asmWord (.decrypt a b) = encode (.decrypt a b) ∧ asmWord (.modeInitEcb d) = encode (.modeInitEcb d 0 0) ∧
    asmWord (.modeInitCbc d a) = encode (.modeInitCbc d a 0) ∧
    asmWord (.modeInitCtr b a d) = encode (.modeInitCtr d a b) ∧ asmWord (.process a b) = encode (.process a b)

/-- R62, R89: LDIN and LDIV, run at any time, leave the block in the staging registers and change nothing else of the
engine; LDKEY leaves the key's bytes there. -/
def Obligations.StagingPseudoInstructionsLoadTheirBytes : Prop :=
  ∀ (s : State) (rest : List PortEvent) (b : Block) (n : Rounds) (key : Vector Byte 32),
    (∃ t, Sys2Proof.core.run 4 { s with arrivals := asmEvents (.ldin b) ++ rest } = .next t ∧
      blockOfWords t.din = b ∧ t = { s with din := t.din, arrivals := rest, answer := .written }) ∧
    (∃ t, Sys2Proof.core.run 4 { s with arrivals := asmEvents (.ldiv b) ++ rest } = .next t ∧
      blockOfWords t.iv = b ∧ t = { s with iv := t.iv, arrivals := rest, answer := .written }) ∧
    (∃ t, Sys2Proof.core.run (keyWordCount n) { s with arrivals := asmEvents (.ldkey n key) ++ rest } = .next t ∧
      (∀ i : Fin 32, i.val < 4 * keyWordCount n → (keyBytesOfWords t.key)[i] = key[i]) ∧
      (∀ j : Fin 8, keyWordCount n ≤ j.val → t.key[j] = s.key[j]) ∧
      t = { s with key := t.key, arrivals := rest, answer := .written })

/-! ## State and the register window (`10_state.md`, `20_memory.md`) -/

/-- R22, R29: every aligned offset of the window is one register, and every register has one offset. -/
def Obligations.WindowMapIsOneToOne : Prop :=
  (∀ (r : WindowReg) (h : regOffset r < 256), regAt ⟨regOffset r, h⟩ = r) ∧
    (∀ r : WindowReg, regOffset r < 256 ∧ regOffset r % 4 = 0) ∧
    (∀ off : Fin 256, off.val % 4 = 0 → regOffset (regAt off) = off.val)

/-- R26: DOUT shows the output of the last successful block command; only such a completion (or a reset) writes it. -/
def Obligations.OnlyBlockCommandsWriteDout : Prop :=
  (∀ s t : State, step s = .next t → t.dout ≠ s.dout →
    ResetNext s ∨ Completes s t ∧ t.fail = false ∧ ∃ i, decode s.lcmd = .legal i ∧ isBlockCommand i = true) ∧
  (∀ (s t : State) (a b : Nat), t.fail = false →
    (exec (.encrypt a b) s = .next t → t.dout = cipher s.ek s.nr s.ldin) ∧
    (exec (.decrypt a b) s = .next t → t.dout = invCipher s.dk s.nr s.ldin) ∧
    (exec (.process a b) s = .next t → t.dout = (processBlock s).dout)) ∧
  (∀ (s : State) (j : Fin 4), readReg (.dout j) s = wordOfBlock s.dout j)

/-- R27: CV0..CV3 show CV; only a successful MODE_INIT for CBC or CTR and a successful PROCESS in CBC or CTR (or a
reset) write it. -/
def Obligations.OnlyModeCommandsWriteCv : Prop :=
  (∀ s t : State, step s = .next t → t.cv ≠ s.cv →
    ResetNext s ∨ Completes s t ∧ t.fail = false ∧ ∃ i, decode s.lcmd = .legal i ∧ writesCv s.mode i = true) ∧
  (∀ (s : State) (j : Fin 4), readReg (.cv j) s = wordOfBlock s.cv j)

/-- R34: the key store meets its invariant, at reset and after every step from a state that meets it, and only a
SET_KEY completion (or a reset) writes it. -/
def Obligations.OnlySetKeyWritesTheKeyStore : Prop :=
  keyStoreOk State.reset ∧ (∀ s t : State, keyStoreOk s → step s = .next t → keyStoreOk t) ∧
  (∀ s t : State, step s = .next t →
    ¬(t.keyValid = s.keyValid ∧ t.keyBits = s.keyBits ∧ t.nr = s.nr ∧ t.ek = s.ek ∧ t.dk = s.dk) →
    ResetNext s ∨ Completes s t ∧ ∃ keylen, decode s.lcmd = .legal (.setKey keylen))

/-- R32: the fields of MODECFG and who writes them. -/
def Obligations.ModecfgRegister : Prop :=
  (∀ s : State,
    (readReg .modecfg s).extractLsb' 0 2 = (match s.mode with | .ecb => 0#2 | .cbc => 1#2 | .ctr => 2#2) ∧
    (readReg .modecfg s).extractLsb' 2 1 = (match s.dir with | .encrypt => 0#1 | .decrypt => 1#1) ∧
    (readReg .modecfg s).extractLsb' 3 5 = 0#5 ∧ (readReg .modecfg s).extractLsb' 8 8 = s.ctrM ∧
    (readReg .modecfg s).extractLsb' 16 16 = 0#16 ∧ ∀ v, writeReg .modecfg v s = s) ∧
  readReg .modecfg State.reset = 0#32 ∧ modeStateOk State.reset ∧
  (∀ s t : State, modeStateOk s → step s = .next t → modeStateOk t) ∧
  (∀ s t : State, step s = .next t → ¬(t.mode = s.mode ∧ t.dir = s.dir ∧ t.ctrM = s.ctrM) →
    ResetNext s ∨ Completes s t ∧ t.fail = false ∧ ∃ i, decode s.lcmd = .legal i ∧ isModeInit i = true)

/-- R30: the fields of STATUS, what acceptance and completion leave in them, and who writes them. -/
def Obligations.StatusRegister : Prop :=
  (∀ s : State,
    (readReg .status s).getLsbD 0 = s.busy ∧ (readReg .status s).getLsbD 1 = s.done ∧
    (readReg .status s).getLsbD 2 = s.fail ∧ (readReg .status s).getLsbD 3 = false ∧
    (readReg .status s).extractLsb' 4 4 =
      (match s.err with
        | .none => 0#4 | .illegal => 1#4 | .keyLength => 2#4 | .keyInvalid => 3#4
        | .blockSize => 4#4 | .ivLength => 5#4 | .ctrWidth => 6#4 | .modeNotInit => 7#4) ∧
    (readReg .status s).getLsbD 8 = s.keyValid ∧ (readReg .status s).getLsbD 9 = s.modeParamsOk ∧
    (readReg .status s).getLsbD 10 = (s.keyValid && s.modeParamsOk) ∧
    (readReg .status s).extractLsb' 11 21 = 0#21 ∧ ∀ v, writeReg .status v s = s) ∧
  readReg .status State.reset = 0#32 ∧
  (∀ (s : State) (v : Word), (readReg .status (accept v s)).extractLsb' 0 8 = 0x01#8) ∧
  (∀ s t : State, completeCommand s = .next t →
    t.busy = false ∧ t.done = true ∧ (t.fail = false → t.err = .none) ∧
    (∀ keylen, decode s.lcmd = .legal (.setKey keylen) → t.keyValid = !t.fail) ∧
    ∀ i, decode s.lcmd = .legal i → isModeInit i = true → t.modeParamsOk = !t.fail) ∧
  (∀ s t : State, step s = .next t →
    ¬(t.busy = s.busy ∧ t.done = s.done ∧ t.fail = s.fail ∧ t.err = s.err) →
    ResetNext s ∨ Accepts s ∨ Completes s t) ∧
  (∀ s t : State, step s = .next t → ¬(t.keyValid = s.keyValid ∧ t.modeParamsOk = s.modeParamsOk) →
    ResetNext s ∨ Completes s t)

/-- R31: the fields of INFO. -/
def Obligations.InfoRegister : Prop :=
  (∀ s : State,
    (readReg .info s).extractLsb' 0 16 = (if s.keyValid = true then s.keyBits else 0#16) ∧
    (readReg .info s).extractLsb' 16 16 = 0x0080#16 ∧ ∀ v, writeReg .info v s = s) ∧
  (∀ s : State, Inv s →
    (readReg .info s).extractLsb' 0 16 = 0x0000#16 ∨ (readReg .info s).extractLsb' 0 16 = 0x0080#16 ∨
    (readReg .info s).extractLsb' 0 16 = 0x00C0#16 ∨ (readReg .info s).extractLsb' 0 16 = 0x0100#16) ∧
  readReg .info State.reset = 0x00800000#32

/-- R64: what a 32-bit read at each offset returns, as one step of the machine, which changes nothing of the engine. -/
def Obligations.BusReadReturnsTheRegister : Prop :=
  ∀ (s : State) (rest : List PortEvent),
    let reads := fun (off : Nat) (v : Word) =>
      step { s with arrivals := .access { addr := Config.baseAddr + off, size := 4, op := .read } :: rest } =
        .next { s with arrivals := rest, answer := .readData v }
    reads 0x00 0#32 ∧ reads 0x04 (statusWord s) ∧ reads 0x08 (infoWord s) ∧ reads 0x0C (modecfgWord s) ∧
    (∀ j : Fin 8, reads (0x10 + 4 * j.val) 0#32) ∧
    (∀ j : Fin 4, reads (0x30 + 4 * j.val) s.iv[j]) ∧ (∀ j : Fin 4, reads (0x40 + 4 * j.val) s.din[j]) ∧
    (∀ j : Fin 4, reads (0x50 + 4 * j.val)
      (s.dout[4 * j.val].setWidth 32 <<< 24 ||| s.dout[4 * j.val + 1].setWidth 32 <<< 16 |||
        s.dout[4 * j.val + 2].setWidth 32 <<< 8 ||| s.dout[4 * j.val + 3].setWidth 32)) ∧
    (∀ j : Fin 4, reads (0x60 + 4 * j.val)
      (s.cv[4 * j.val].setWidth 32 <<< 24 ||| s.cv[4 * j.val + 1].setWidth 32 <<< 16 |||
        s.cv[4 * j.val + 2].setWidth 32 <<< 8 ||| s.cv[4 * j.val + 3].setWidth 32)) ∧
    (∀ off, 0x70 ≤ off → off ≤ 0xFC → off % 4 = 0 → reads off 0#32) ∧
    (∀ (r : WindowReg) (es : List PortEvent) (ans : BusAnswer),
      readReg r { s with arrivals := es, answer := ans } = readReg r s)

/-- R65: what a 32-bit write at each offset does, as one step of the machine. A staging write takes effect whatever
BUSY is and changes only its register; CMD issues a command, or is held while BUSY = 1; any other offset has no
effect. -/
def Obligations.BusWriteChangesOnlyItsRegister : Prop :=
  ∀ (s : State) (rest : List PortEvent) (v : Word),
    let writing := fun (off : Nat) =>
      { s with arrivals := .access { addr := Config.baseAddr + off, size := 4, op := .write v } :: rest }
    (∀ j : Fin 8, step (writing (0x10 + 4 * j.val)) =
      .next { s with key := s.key.set j v, arrivals := rest, answer := .written }) ∧
    (∀ j : Fin 4, step (writing (0x30 + 4 * j.val)) =
      .next { s with iv := s.iv.set j v, arrivals := rest, answer := .written }) ∧
    (∀ j : Fin 4, step (writing (0x40 + 4 * j.val)) =
      .next { s with din := s.din.set j v, arrivals := rest, answer := .written }) ∧
    (∀ off, off % 4 = 0 → (0x04 ≤ off ∧ off ≤ 0x0C ∨ 0x50 ≤ off ∧ off ≤ 0xFC) →
      step (writing off) = .next { s with arrivals := rest, answer := .written }) ∧
    (s.busy = false → step (writing 0x00) =
      .next { accept v s with arrivals := rest, answer := .written }) ∧
    (s.busy = true → step (writing 0x00) = completeCommand (writing 0x00))

/-- R24, R25: the staging registers change only by a bus write to them (or a reset), and such a write stores its
value. -/
def Obligations.OnlyHostWritesChangeStaging : Prop :=
  (∀ s t : State, step s = .next t → ¬(t.key = s.key ∧ t.iv = s.iv ∧ t.din = s.din) →
    ResetNext s ∨ ∃ r v rest, isStaging r = true ∧ WriteNext r v rest s) ∧
  (∀ (s : State) (v : Word) (rest : List PortEvent) (j : Fin 4),
    (WriteNext (.iv j) v rest s →
      ∃ t, step s = .next t ∧ readReg (.iv j) t = v ∧ t.cv = s.cv) ∧
    (WriteNext (.din j) v rest s → ∃ t, step s = .next t ∧ readReg (.din j) t = v))

/-- R62: the lanes: byte 4j+t of a block or key is bits [31-8t : 24-8t] of register j, and writing the words that a
block reads as gives the block. -/
def Obligations.ByteLanesAreBigEndian : Prop :=
  (∀ (ws : Vector Word 4) (j t : Fin 4),
    (blockOfWords ws)[4 * j.val + t.val] = ws[j].extractLsb' (24 - 8 * t.val) 8) ∧
  (∀ (ws : Vector Word 8) (j : Fin 8) (t : Fin 4),
    (keyBytesOfWords ws)[4 * j.val + t.val] = ws[j].extractLsb' (24 - 8 * t.val) 8) ∧
  (∀ b : Block, blockOfWords (Vector.ofFn fun j => wordOfBlock b j) = b) ∧
  (∀ (ws : Vector Word 4) (j : Fin 4), wordOfBlock (blockOfWords ws) j = ws[j])

/-- R66, R274 (the fault is what the rules ask of a model, log entry 3) and log entry 4 (the model's own choice): an
access of the window of another width or misaligned stops the run with the bus error, and one outside the window is
refused. -/
def Obligations.UnsupportedAccessesStop : Prop :=
  ∀ (s : State) (a : Access) (rest : List PortEvent), s.arrivals = .access a :: rest →
    (Config.baseAddr ≤ a.addr → a.addr < Config.baseAddr + 0x100 → a.size ≠ 4 ∨ a.addr % 4 ≠ 0 →
      step s = .fault (.busError a 0#32)) ∧
    (a.addr < Config.baseAddr ∨ Config.baseAddr + 0x100 ≤ a.addr → step s = .refused (.outsideWindow a))

/-- R268: no register's read depends on the key material: the staged key, the round keys, NR or a latched operand. -/
def Obligations.ReadsNeverDependOnKeyMaterial : Prop :=
  ∀ (r : WindowReg) (s : State) (k : Vector Word 8) (n : Rounds) (e d : Vector Block 15) (lc : Word)
    (lk : Vector Byte 32) (li ld : Block),
    readReg r { s with key := k, nr := n, ek := e, dk := d, lcmd := lc, lkey := lk, liv := li, ldin := ld } =
      readReg r s

/-- R20: unspecified values are never observable: from two states that agree wherever the spec gives a value, a step
gives outcomes that agree there. -/
def Obligations.UnspecifiedValuesAreUnobservable : Prop :=
  ∀ s t : State, Alike s t → AlikeOutcome (step s) (step t)

/-! ## Errors (`60_exceptions.md`) -/

/-- R260: every command in flight ends in one completion with Success or one Failure code, and its result stays until
the next command is accepted (or a reset). -/
def Obligations.EveryCommandEndsInOneResult : Prop :=
  (∀ s : State, ∃ t, completeCommand s = .next t ∧ t.busy = false ∧ t.done = true ∧
    (t.fail = false ∧ t.err = .none ∨ t.fail = true ∧ t.err ≠ .none)) ∧
  (∀ s t : State, s.busy = false → step s = .next t →
    ResetNext s ∨ Accepts s ∨ t.busy = false ∧ t.done = s.done ∧ t.fail = s.fail ∧ t.err = s.err)

/-- R263: the error reported is the first of the command's checks that fails, with the rule's examples. -/
def Obligations.FirstFailingCheckIsReported : Prop :=
  (∀ s : State, ∃ t, completeCommand s = .next t ∧
    t.err =
      match decode s.lcmd with
      | .illegal _ => .illegal
      | .legal (.setKey k) => if k = 16 ∨ k = 24 ∨ k = 32 then .none else .keyLength
      | .legal (.encrypt a b) =>
        if a ≠ 16 ∨ b ≠ 16 then .blockSize else if s.keyValid = false then .keyInvalid else .none
      | .legal (.decrypt a b) =>
        if a ≠ 16 ∨ b ≠ 16 then .blockSize else if s.keyValid = false then .keyInvalid else .none
      | .legal (.modeInitEcb _ _ _) => .none
      | .legal (.modeInitCbc _ l _) => if l ≠ 16 then .ivLength else .none
      | .legal (.modeInitCtr _ l m) =>
        if l ≠ 16 then .ivLength else if m = 0 ∨ 128 < m then .ctrWidth else .none
      | .legal (.process a b) =>
        if s.modeParamsOk = false then .modeNotInit
        else if a ≠ 16 ∨ b ≠ 16 then .blockSize
        else if s.keyValid = false then .keyInvalid
        else .none) ∧
  (∀ s : State, s.lcmd = 0x00100F05#32 → s.keyValid = false → s.modeParamsOk = true →
    ∃ t, completeCommand s = .next t ∧ t.err = .blockSize ∧ errBits t.err = 4#4) ∧
  (∀ (s : State) (a b : Nat), decode s.lcmd = .legal (.process a b) → s.modeParamsOk = false →
    ∃ t, completeCommand s = .next t ∧ t.err = .modeNotInit ∧ errBits t.err = 7#4)

/-- R262: a command that fails changes nothing but the command state and the writes the rule's table lists. -/
def Obligations.FailuresAreAtomic : Prop :=
  ∀ s t : State, completeCommand s = .next t → t.fail = true →
    (∃ k, decode s.lcmd = .legal (.setKey k) ∧ t.err = .keyLength ∧
      t = { s with
        keyValid := false, keyBits := 0#16, nr := t.nr, ek := t.ek, dk := t.dk, draws := t.draws
        busy := false, done := true, fail := true, err := .keyLength }) ∨
    (∃ i, decode s.lcmd = .legal i ∧ isModeInit i = true ∧ (t.err = .ivLength ∨ t.err = .ctrWidth) ∧
      t = { s with modeParamsOk := false, busy := false, done := true, fail := true, err := t.err }) ∨
    ((∀ k, decode s.lcmd ≠ .legal (.setKey k)) ∧ (∀ i, decode s.lcmd = .legal i → isModeInit i = false) ∧
      t = { s with busy := false, done := true, fail := true, err := t.err })

/-! ## Reset, acceptance and completion (`70_reset_and_hazards.md`) -/

/-- R290: what the host sees right after reset, and how the block commands end then. -/
def Obligations.ResetRegisterValues : Prop :=
  readReg .cmd State.reset = 0#32 ∧ readReg .status State.reset = 0#32 ∧
  readReg .info State.reset = 0x00800000#32 ∧ readReg .modecfg State.reset = 0#32 ∧
  (∀ j : Fin 8, readReg (.key j) State.reset = 0#32 ∧ State.reset.key[j] = 0#32) ∧
  (∀ j : Fin 4, readReg (.iv j) State.reset = 0#32 ∧ readReg (.din j) State.reset = 0#32 ∧
    readReg (.dout j) State.reset = 0#32 ∧ readReg (.cv j) State.reset = 0#32) ∧
  (∀ k : Fin 36, readReg (.reserved k) State.reset = 0#32) ∧
  State.reset.busy = false ∧ State.reset.done = false ∧ State.reset.fail = false ∧ State.reset.err = .none ∧
  State.reset.keyValid = false ∧ State.reset.keyBits = 0#16 ∧ State.reset.modeParamsOk = false ∧
  State.reset.mode = .ecb ∧ State.reset.dir = .encrypt ∧ State.reset.ctrM = 0#8 ∧ modeReady State.reset = false ∧
  (∃ t, exec (.encrypt 16 16) State.reset = .next t ∧ t.err = .keyInvalid) ∧
  (∃ t, exec (.decrypt 16 16) State.reset = .next t ∧ t.err = .keyInvalid) ∧
  (∃ t, exec (.process 16 16) State.reset = .next t ∧ t.err = .modeNotInit)

/-- R291: a reset at any time, BUSY = 1 included, abandons the command in flight: every field the spec specifies has its
reset value after it, whatever it was. -/
def Obligations.ResetAbandonsTheCommand : Prop :=
  ∀ (s : State) (rest : List PortEvent), s.arrivals = .reset :: rest →
    ∃ t, step s = .next t ∧
      t = { State.reset with
        nr := t.nr, ek := t.ek, dk := t.dk, lcmd := t.lcmd, lkey := t.lkey, liv := t.liv, ldin := t.ldin
        arrivals := rest, answer := t.answer, draws := t.draws }

/-- R294: a CMD write while BUSY = 0 is accepted at once: all three staging groups are latched, byte lanes big-endian,
and nothing else of the engine changes. -/
def Obligations.AcceptanceLatchesEverything : Prop :=
  ∀ (s : State) (v : Word) (rest : List PortEvent), s.busy = false → CmdWriteNext v rest s →
    ∃ t, step s = .next t ∧
      (∀ (j : Fin 8) (b : Fin 4), t.lkey[4 * j.val + b.val] = s.key[j].extractLsb' (24 - 8 * b.val) 8) ∧
      (∀ j b : Fin 4, t.liv[4 * j.val + b.val] = s.iv[j].extractLsb' (24 - 8 * b.val) 8 ∧
        t.ldin[4 * j.val + b.val] = s.din[j].extractLsb' (24 - 8 * b.val) 8) ∧
      t = { s with
        lcmd := v, lkey := t.lkey, liv := t.liv, ldin := t.ldin
        busy := true, done := false, fail := false, err := .none
        arrivals := rest, answer := .written }

/-- R295: a CMD write while BUSY = 1 is held: the step completes the command in flight and the write still stands
first; the step after that accepts it. -/
def Obligations.HeldWriteIsAcceptedAfterCompletion : Prop :=
  ∀ (s : State) (v : Word) (rest : List PortEvent), s.busy = true → CmdWriteNext v rest s →
    ∃ t, step s = .next t ∧ completeCommand s = .next t ∧ t.busy = false ∧ t.arrivals = s.arrivals ∧
      step t = .next { accept v t with arrivals := rest, answer := .written }

/-- R297: a staging write while a command is in flight changes only its register, and the completion is what it would
have been without it. -/
def Obligations.StagingWritesDoNotTouchTheCommand : Prop :=
  ∀ (s t : State) (r : WindowReg) (v : Word), isStaging r = true → completeCommand s = .next t →
    completeCommand (writeReg r v s) = .next (writeReg r v t) ∧
      (writeReg r v s).lcmd = s.lcmd ∧ (writeReg r v s).lkey = s.lkey ∧ (writeReg r v s).liv = s.liv ∧
      (writeReg r v s).ldin = s.ldin ∧ (writeReg r v s).busy = s.busy

/-- R298: right after an acceptance STATUS shows BUSY alone beside the old KEY_VALID and MODE_PARAMS_OK, and every other
register reads as before; from then on, while BUSY = 1, every step but the completion or a reset keeps what every
register that is not a staging register reads as; and BUSY alone stands in bits 7:0 of STATUS. -/
def Obligations.ReadsWhileBusyAreStale : Prop :=
  (∀ (s : State) (v : Word) (r : WindowReg),
    (r ≠ .status → readReg r (accept v s) = readReg r s) ∧
    (readReg .status (accept v s)).extractLsb' 0 8 = 0x01#8 ∧
    (readReg .status (accept v s)).extractLsb' 8 24 = (readReg .status s).extractLsb' 8 24) ∧
  (∀ s t : State, s.busy = true → step s = .next t →
    ResetNext s ∨ Completes s t ∨ ∀ r, isStaging r = false → readReg r t = readReg r s) ∧
  ∀ s : State, commandStateOk s → s.busy = true → (readReg .status s).extractLsb' 0 8 = 0x01#8

/-- The model's step, as log entries 1, 2 and 11 place it: with a command in flight whose word decodes as i, the
engine's turn is exec of i at that state. The turn comes when it stands next in the arrivals, when nothing is left to
arrive, and when a held CMD write stands next. -/
def Obligations.StepRunsTheDecodedCommand : Prop :=
  (∀ (s : State) (i : Instr), s.busy = true → decode s.lcmd = .legal i →
    (s.arrivals = [] → step s = exec i s) ∧
    (∀ rest, s.arrivals = .engine :: rest → step s = exec i { s with arrivals := rest }) ∧
    (∀ v rest, CmdWriteNext v rest s → step s = exec i s)) ∧
  (∀ (s : State) (c : Word) (i : Instr), decode c = .legal i →
    step (s.withFetchWord 32 c.toNat) = exec i (accept c s))

/-- R264, as log entries 1, 2 and 16 place the engine's turn: no command hangs. If everything that arrives is clean, then
within two steps for each arrival and one more, everything has arrived and no command is in flight. The bound, that a
command with nothing to arrive completes in the next step, and that an idle step keeps the state are the model's own
choice (log entries 1, 2, 16). -/
def Obligations.EngineNeverHangs : Prop :=
  (∀ s : State, ∃ t, engineTurn s = .next t ∧ t.busy = false) ∧
  ∀ s : State, cleanArrivals s = true →
    ∃ t, Sys2Proof.core.run (2 * s.arrivals.length + 1) s = .next t ∧ t.arrivals = [] ∧ t.busy = false

/-! ## The invariant -/

/-- The invariant holds at reset. -/
def Obligations.ResetMeetsTheInvariant : Prop := Inv State.reset

/-- Every step keeps the invariant: the key store, its schedule, KEY_BITS, the mode state and the command state. -/
def Obligations.EveryStepKeepsTheInvariant : Prop :=
  ∀ s t : State, Inv s → step s = .next t → Inv t
end

