-- ==== Sys2Proof/Laws/State.lean ====
section
/-! SUPPORT. What each named update of the state does to each field, one lemma per field and update, so that no proof
unfolds a record update. -/

namespace Sys2Proof.Machine

/-! ## completeSuccess -/

@[simp] theorem completeSuccess_key (s : State) : (completeSuccess s).key = s.key := rfl
@[simp] theorem completeSuccess_iv (s : State) : (completeSuccess s).iv = s.iv := rfl
@[simp] theorem completeSuccess_din (s : State) : (completeSuccess s).din = s.din := rfl
@[simp] theorem completeSuccess_dout (s : State) : (completeSuccess s).dout = s.dout := rfl
@[simp] theorem completeSuccess_cv (s : State) : (completeSuccess s).cv = s.cv := rfl
@[simp] theorem completeSuccess_keyValid (s : State) : (completeSuccess s).keyValid = s.keyValid := rfl
@[simp] theorem completeSuccess_keyBits (s : State) : (completeSuccess s).keyBits = s.keyBits := rfl
@[simp] theorem completeSuccess_nr (s : State) : (completeSuccess s).nr = s.nr := rfl
@[simp] theorem completeSuccess_ek (s : State) : (completeSuccess s).ek = s.ek := rfl
@[simp] theorem completeSuccess_dk (s : State) : (completeSuccess s).dk = s.dk := rfl
@[simp] theorem completeSuccess_modeParamsOk (s : State) : (completeSuccess s).modeParamsOk = s.modeParamsOk := rfl
@[simp] theorem completeSuccess_mode (s : State) : (completeSuccess s).mode = s.mode := rfl
@[simp] theorem completeSuccess_dir (s : State) : (completeSuccess s).dir = s.dir := rfl
@[simp] theorem completeSuccess_ctrM (s : State) : (completeSuccess s).ctrM = s.ctrM := rfl
@[simp] theorem completeSuccess_busy (s : State) : (completeSuccess s).busy = false := rfl
@[simp] theorem completeSuccess_done (s : State) : (completeSuccess s).done = true := rfl
@[simp] theorem completeSuccess_fail (s : State) : (completeSuccess s).fail = false := rfl
@[simp] theorem completeSuccess_err (s : State) : (completeSuccess s).err = .none := rfl
@[simp] theorem completeSuccess_lcmd (s : State) : (completeSuccess s).lcmd = s.lcmd := rfl
@[simp] theorem completeSuccess_lkey (s : State) : (completeSuccess s).lkey = s.lkey := rfl
@[simp] theorem completeSuccess_liv (s : State) : (completeSuccess s).liv = s.liv := rfl
@[simp] theorem completeSuccess_ldin (s : State) : (completeSuccess s).ldin = s.ldin := rfl
@[simp] theorem completeSuccess_arrivals (s : State) : (completeSuccess s).arrivals = s.arrivals := rfl
@[simp] theorem completeSuccess_answer (s : State) : (completeSuccess s).answer = s.answer := rfl
@[simp] theorem completeSuccess_draws (s : State) : (completeSuccess s).draws = s.draws := rfl

/-! ## raiseFailure -/

@[simp] theorem raiseFailure_key (e : ErrCode) (s : State) : (raiseFailure e s).key = s.key := rfl
@[simp] theorem raiseFailure_iv (e : ErrCode) (s : State) : (raiseFailure e s).iv = s.iv := rfl
@[simp] theorem raiseFailure_din (e : ErrCode) (s : State) : (raiseFailure e s).din = s.din := rfl
@[simp] theorem raiseFailure_dout (e : ErrCode) (s : State) : (raiseFailure e s).dout = s.dout := rfl
@[simp] theorem raiseFailure_cv (e : ErrCode) (s : State) : (raiseFailure e s).cv = s.cv := rfl
@[simp] theorem raiseFailure_keyValid (e : ErrCode) (s : State) : (raiseFailure e s).keyValid = s.keyValid := rfl
@[simp] theorem raiseFailure_keyBits (e : ErrCode) (s : State) : (raiseFailure e s).keyBits = s.keyBits := rfl
@[simp] theorem raiseFailure_nr (e : ErrCode) (s : State) : (raiseFailure e s).nr = s.nr := rfl
@[simp] theorem raiseFailure_ek (e : ErrCode) (s : State) : (raiseFailure e s).ek = s.ek := rfl
@[simp] theorem raiseFailure_dk (e : ErrCode) (s : State) : (raiseFailure e s).dk = s.dk := rfl
@[simp] theorem raiseFailure_modeParamsOk (e : ErrCode) (s : State) : (raiseFailure e s).modeParamsOk = s.modeParamsOk := rfl
@[simp] theorem raiseFailure_mode (e : ErrCode) (s : State) : (raiseFailure e s).mode = s.mode := rfl
@[simp] theorem raiseFailure_dir (e : ErrCode) (s : State) : (raiseFailure e s).dir = s.dir := rfl
@[simp] theorem raiseFailure_ctrM (e : ErrCode) (s : State) : (raiseFailure e s).ctrM = s.ctrM := rfl
@[simp] theorem raiseFailure_busy (e : ErrCode) (s : State) : (raiseFailure e s).busy = false := rfl
@[simp] theorem raiseFailure_done (e : ErrCode) (s : State) : (raiseFailure e s).done = true := rfl
@[simp] theorem raiseFailure_fail (e : ErrCode) (s : State) : (raiseFailure e s).fail = true := rfl
@[simp] theorem raiseFailure_err (e : ErrCode) (s : State) : (raiseFailure e s).err = e := rfl
@[simp] theorem raiseFailure_lcmd (e : ErrCode) (s : State) : (raiseFailure e s).lcmd = s.lcmd := rfl
@[simp] theorem raiseFailure_lkey (e : ErrCode) (s : State) : (raiseFailure e s).lkey = s.lkey := rfl
@[simp] theorem raiseFailure_liv (e : ErrCode) (s : State) : (raiseFailure e s).liv = s.liv := rfl
@[simp] theorem raiseFailure_ldin (e : ErrCode) (s : State) : (raiseFailure e s).ldin = s.ldin := rfl
@[simp] theorem raiseFailure_arrivals (e : ErrCode) (s : State) : (raiseFailure e s).arrivals = s.arrivals := rfl
@[simp] theorem raiseFailure_answer (e : ErrCode) (s : State) : (raiseFailure e s).answer = s.answer := rfl
@[simp] theorem raiseFailure_draws (e : ErrCode) (s : State) : (raiseFailure e s).draws = s.draws := rfl

/-! ## setDout -/

@[simp] theorem setDout_key (b : Block) (s : State) : (setDout b s).key = s.key := rfl
@[simp] theorem setDout_iv (b : Block) (s : State) : (setDout b s).iv = s.iv := rfl
@[simp] theorem setDout_din (b : Block) (s : State) : (setDout b s).din = s.din := rfl
@[simp] theorem setDout_dout (b : Block) (s : State) : (setDout b s).dout = b := rfl
@[simp] theorem setDout_cv (b : Block) (s : State) : (setDout b s).cv = s.cv := rfl
@[simp] theorem setDout_keyValid (b : Block) (s : State) : (setDout b s).keyValid = s.keyValid := rfl
@[simp] theorem setDout_keyBits (b : Block) (s : State) : (setDout b s).keyBits = s.keyBits := rfl
@[simp] theorem setDout_nr (b : Block) (s : State) : (setDout b s).nr = s.nr := rfl
@[simp] theorem setDout_ek (b : Block) (s : State) : (setDout b s).ek = s.ek := rfl
@[simp] theorem setDout_dk (b : Block) (s : State) : (setDout b s).dk = s.dk := rfl
@[simp] theorem setDout_modeParamsOk (b : Block) (s : State) : (setDout b s).modeParamsOk = s.modeParamsOk := rfl
@[simp] theorem setDout_mode (b : Block) (s : State) : (setDout b s).mode = s.mode := rfl
@[simp] theorem setDout_dir (b : Block) (s : State) : (setDout b s).dir = s.dir := rfl
@[simp] theorem setDout_ctrM (b : Block) (s : State) : (setDout b s).ctrM = s.ctrM := rfl
@[simp] theorem setDout_busy (b : Block) (s : State) : (setDout b s).busy = s.busy := rfl
@[simp] theorem setDout_done (b : Block) (s : State) : (setDout b s).done = s.done := rfl
@[simp] theorem setDout_fail (b : Block) (s : State) : (setDout b s).fail = s.fail := rfl
@[simp] theorem setDout_err (b : Block) (s : State) : (setDout b s).err = s.err := rfl
@[simp] theorem setDout_lcmd (b : Block) (s : State) : (setDout b s).lcmd = s.lcmd := rfl
@[simp] theorem setDout_lkey (b : Block) (s : State) : (setDout b s).lkey = s.lkey := rfl
@[simp] theorem setDout_liv (b : Block) (s : State) : (setDout b s).liv = s.liv := rfl
@[simp] theorem setDout_ldin (b : Block) (s : State) : (setDout b s).ldin = s.ldin := rfl
@[simp] theorem setDout_arrivals (b : Block) (s : State) : (setDout b s).arrivals = s.arrivals := rfl
@[simp] theorem setDout_answer (b : Block) (s : State) : (setDout b s).answer = s.answer := rfl
@[simp] theorem setDout_draws (b : Block) (s : State) : (setDout b s).draws = s.draws := rfl

/-! ## setCv -/

@[simp] theorem setCv_key (b : Block) (s : State) : (setCv b s).key = s.key := rfl
@[simp] theorem setCv_iv (b : Block) (s : State) : (setCv b s).iv = s.iv := rfl
@[simp] theorem setCv_din (b : Block) (s : State) : (setCv b s).din = s.din := rfl
@[simp] theorem setCv_dout (b : Block) (s : State) : (setCv b s).dout = s.dout := rfl
@[simp] theorem setCv_cv (b : Block) (s : State) : (setCv b s).cv = b := rfl
@[simp] theorem setCv_keyValid (b : Block) (s : State) : (setCv b s).keyValid = s.keyValid := rfl
@[simp] theorem setCv_keyBits (b : Block) (s : State) : (setCv b s).keyBits = s.keyBits := rfl
@[simp] theorem setCv_nr (b : Block) (s : State) : (setCv b s).nr = s.nr := rfl
@[simp] theorem setCv_ek (b : Block) (s : State) : (setCv b s).ek = s.ek := rfl
@[simp] theorem setCv_dk (b : Block) (s : State) : (setCv b s).dk = s.dk := rfl
@[simp] theorem setCv_modeParamsOk (b : Block) (s : State) : (setCv b s).modeParamsOk = s.modeParamsOk := rfl
@[simp] theorem setCv_mode (b : Block) (s : State) : (setCv b s).mode = s.mode := rfl
@[simp] theorem setCv_dir (b : Block) (s : State) : (setCv b s).dir = s.dir := rfl
@[simp] theorem setCv_ctrM (b : Block) (s : State) : (setCv b s).ctrM = s.ctrM := rfl
@[simp] theorem setCv_busy (b : Block) (s : State) : (setCv b s).busy = s.busy := rfl
@[simp] theorem setCv_done (b : Block) (s : State) : (setCv b s).done = s.done := rfl
@[simp] theorem setCv_fail (b : Block) (s : State) : (setCv b s).fail = s.fail := rfl
@[simp] theorem setCv_err (b : Block) (s : State) : (setCv b s).err = s.err := rfl
@[simp] theorem setCv_lcmd (b : Block) (s : State) : (setCv b s).lcmd = s.lcmd := rfl
@[simp] theorem setCv_lkey (b : Block) (s : State) : (setCv b s).lkey = s.lkey := rfl
@[simp] theorem setCv_liv (b : Block) (s : State) : (setCv b s).liv = s.liv := rfl
@[simp] theorem setCv_ldin (b : Block) (s : State) : (setCv b s).ldin = s.ldin := rfl
@[simp] theorem setCv_arrivals (b : Block) (s : State) : (setCv b s).arrivals = s.arrivals := rfl
@[simp] theorem setCv_answer (b : Block) (s : State) : (setCv b s).answer = s.answer := rfl
@[simp] theorem setCv_draws (b : Block) (s : State) : (setCv b s).draws = s.draws := rfl

/-! ## configureMode -/

@[simp] theorem configureMode_key (md : Mode) (d : Dir) (m : Nat) (s : State) : (configureMode md d m s).key = s.key := rfl
@[simp] theorem configureMode_iv (md : Mode) (d : Dir) (m : Nat) (s : State) : (configureMode md d m s).iv = s.iv := rfl
@[simp] theorem configureMode_din (md : Mode) (d : Dir) (m : Nat) (s : State) : (configureMode md d m s).din = s.din := rfl
@[simp] theorem configureMode_dout (md : Mode) (d : Dir) (m : Nat) (s : State) : (configureMode md d m s).dout = s.dout := rfl
@[simp] theorem configureMode_cv (md : Mode) (d : Dir) (m : Nat) (s : State) : (configureMode md d m s).cv = s.cv := rfl
@[simp] theorem configureMode_keyValid (md : Mode) (d : Dir) (m : Nat) (s : State) : (configureMode md d m s).keyValid = s.keyValid := rfl
@[simp] theorem configureMode_keyBits (md : Mode) (d : Dir) (m : Nat) (s : State) : (configureMode md d m s).keyBits = s.keyBits := rfl
@[simp] theorem configureMode_nr (md : Mode) (d : Dir) (m : Nat) (s : State) : (configureMode md d m s).nr = s.nr := rfl
@[simp] theorem configureMode_ek (md : Mode) (d : Dir) (m : Nat) (s : State) : (configureMode md d m s).ek = s.ek := rfl
@[simp] theorem configureMode_dk (md : Mode) (d : Dir) (m : Nat) (s : State) : (configureMode md d m s).dk = s.dk := rfl
@[simp] theorem configureMode_modeParamsOk (md : Mode) (d : Dir) (m : Nat) (s : State) : (configureMode md d m s).modeParamsOk = true := rfl
@[simp] theorem configureMode_mode (md : Mode) (d : Dir) (m : Nat) (s : State) : (configureMode md d m s).mode = md := rfl
@[simp] theorem configureMode_dir (md : Mode) (d : Dir) (m : Nat) (s : State) : (configureMode md d m s).dir = d := rfl
@[simp] theorem configureMode_ctrM (md : Mode) (d : Dir) (m : Nat) (s : State) : (configureMode md d m s).ctrM = BitVec.ofNat 8 m := rfl
@[simp] theorem configureMode_busy (md : Mode) (d : Dir) (m : Nat) (s : State) : (configureMode md d m s).busy = s.busy := rfl
@[simp] theorem configureMode_done (md : Mode) (d : Dir) (m : Nat) (s : State) : (configureMode md d m s).done = s.done := rfl
@[simp] theorem configureMode_fail (md : Mode) (d : Dir) (m : Nat) (s : State) : (configureMode md d m s).fail = s.fail := rfl
@[simp] theorem configureMode_err (md : Mode) (d : Dir) (m : Nat) (s : State) : (configureMode md d m s).err = s.err := rfl
@[simp] theorem configureMode_lcmd (md : Mode) (d : Dir) (m : Nat) (s : State) : (configureMode md d m s).lcmd = s.lcmd := rfl
@[simp] theorem configureMode_lkey (md : Mode) (d : Dir) (m : Nat) (s : State) : (configureMode md d m s).lkey = s.lkey := rfl
@[simp] theorem configureMode_liv (md : Mode) (d : Dir) (m : Nat) (s : State) : (configureMode md d m s).liv = s.liv := rfl
@[simp] theorem configureMode_ldin (md : Mode) (d : Dir) (m : Nat) (s : State) : (configureMode md d m s).ldin = s.ldin := rfl
@[simp] theorem configureMode_arrivals (md : Mode) (d : Dir) (m : Nat) (s : State) : (configureMode md d m s).arrivals = s.arrivals := rfl
@[simp] theorem configureMode_answer (md : Mode) (d : Dir) (m : Nat) (s : State) : (configureMode md d m s).answer = s.answer := rfl
@[simp] theorem configureMode_draws (md : Mode) (d : Dir) (m : Nat) (s : State) : (configureMode md d m s).draws = s.draws := rfl

/-! ## invalidateMode -/

@[simp] theorem invalidateMode_key (s : State) : (invalidateMode s).key = s.key := rfl
@[simp] theorem invalidateMode_iv (s : State) : (invalidateMode s).iv = s.iv := rfl
@[simp] theorem invalidateMode_din (s : State) : (invalidateMode s).din = s.din := rfl
@[simp] theorem invalidateMode_dout (s : State) : (invalidateMode s).dout = s.dout := rfl
@[simp] theorem invalidateMode_cv (s : State) : (invalidateMode s).cv = s.cv := rfl
@[simp] theorem invalidateMode_keyValid (s : State) : (invalidateMode s).keyValid = s.keyValid := rfl
@[simp] theorem invalidateMode_keyBits (s : State) : (invalidateMode s).keyBits = s.keyBits := rfl
@[simp] theorem invalidateMode_nr (s : State) : (invalidateMode s).nr = s.nr := rfl
@[simp] theorem invalidateMode_ek (s : State) : (invalidateMode s).ek = s.ek := rfl
@[simp] theorem invalidateMode_dk (s : State) : (invalidateMode s).dk = s.dk := rfl
@[simp] theorem invalidateMode_modeParamsOk (s : State) : (invalidateMode s).modeParamsOk = false := rfl
@[simp] theorem invalidateMode_mode (s : State) : (invalidateMode s).mode = s.mode := rfl
@[simp] theorem invalidateMode_dir (s : State) : (invalidateMode s).dir = s.dir := rfl
@[simp] theorem invalidateMode_ctrM (s : State) : (invalidateMode s).ctrM = s.ctrM := rfl
@[simp] theorem invalidateMode_busy (s : State) : (invalidateMode s).busy = s.busy := rfl
@[simp] theorem invalidateMode_done (s : State) : (invalidateMode s).done = s.done := rfl
@[simp] theorem invalidateMode_fail (s : State) : (invalidateMode s).fail = s.fail := rfl
@[simp] theorem invalidateMode_err (s : State) : (invalidateMode s).err = s.err := rfl
@[simp] theorem invalidateMode_lcmd (s : State) : (invalidateMode s).lcmd = s.lcmd := rfl
@[simp] theorem invalidateMode_lkey (s : State) : (invalidateMode s).lkey = s.lkey := rfl
@[simp] theorem invalidateMode_liv (s : State) : (invalidateMode s).liv = s.liv := rfl
@[simp] theorem invalidateMode_ldin (s : State) : (invalidateMode s).ldin = s.ldin := rfl
@[simp] theorem invalidateMode_arrivals (s : State) : (invalidateMode s).arrivals = s.arrivals := rfl
@[simp] theorem invalidateMode_answer (s : State) : (invalidateMode s).answer = s.answer := rfl
@[simp] theorem invalidateMode_draws (s : State) : (invalidateMode s).draws = s.draws := rfl

/-! ## withArrivals -/

@[simp] theorem withArrivals_key (es : List PortEvent) (s : State) : (withArrivals es s).key = s.key := rfl
@[simp] theorem withArrivals_iv (es : List PortEvent) (s : State) : (withArrivals es s).iv = s.iv := rfl
@[simp] theorem withArrivals_din (es : List PortEvent) (s : State) : (withArrivals es s).din = s.din := rfl
@[simp] theorem withArrivals_dout (es : List PortEvent) (s : State) : (withArrivals es s).dout = s.dout := rfl
@[simp] theorem withArrivals_cv (es : List PortEvent) (s : State) : (withArrivals es s).cv = s.cv := rfl
@[simp] theorem withArrivals_keyValid (es : List PortEvent) (s : State) : (withArrivals es s).keyValid = s.keyValid := rfl
@[simp] theorem withArrivals_keyBits (es : List PortEvent) (s : State) : (withArrivals es s).keyBits = s.keyBits := rfl
@[simp] theorem withArrivals_nr (es : List PortEvent) (s : State) : (withArrivals es s).nr = s.nr := rfl
@[simp] theorem withArrivals_ek (es : List PortEvent) (s : State) : (withArrivals es s).ek = s.ek := rfl
@[simp] theorem withArrivals_dk (es : List PortEvent) (s : State) : (withArrivals es s).dk = s.dk := rfl
@[simp] theorem withArrivals_modeParamsOk (es : List PortEvent) (s : State) : (withArrivals es s).modeParamsOk = s.modeParamsOk := rfl
@[simp] theorem withArrivals_mode (es : List PortEvent) (s : State) : (withArrivals es s).mode = s.mode := rfl
@[simp] theorem withArrivals_dir (es : List PortEvent) (s : State) : (withArrivals es s).dir = s.dir := rfl
@[simp] theorem withArrivals_ctrM (es : List PortEvent) (s : State) : (withArrivals es s).ctrM = s.ctrM := rfl
@[simp] theorem withArrivals_busy (es : List PortEvent) (s : State) : (withArrivals es s).busy = s.busy := rfl
@[simp] theorem withArrivals_done (es : List PortEvent) (s : State) : (withArrivals es s).done = s.done := rfl
@[simp] theorem withArrivals_fail (es : List PortEvent) (s : State) : (withArrivals es s).fail = s.fail := rfl
@[simp] theorem withArrivals_err (es : List PortEvent) (s : State) : (withArrivals es s).err = s.err := rfl
@[simp] theorem withArrivals_lcmd (es : List PortEvent) (s : State) : (withArrivals es s).lcmd = s.lcmd := rfl
@[simp] theorem withArrivals_lkey (es : List PortEvent) (s : State) : (withArrivals es s).lkey = s.lkey := rfl
@[simp] theorem withArrivals_liv (es : List PortEvent) (s : State) : (withArrivals es s).liv = s.liv := rfl
@[simp] theorem withArrivals_ldin (es : List PortEvent) (s : State) : (withArrivals es s).ldin = s.ldin := rfl
@[simp] theorem withArrivals_arrivals (es : List PortEvent) (s : State) : (withArrivals es s).arrivals = es := rfl
@[simp] theorem withArrivals_answer (es : List PortEvent) (s : State) : (withArrivals es s).answer = s.answer := rfl
@[simp] theorem withArrivals_draws (es : List PortEvent) (s : State) : (withArrivals es s).draws = s.draws := rfl

/-! ## accept -/

@[simp] theorem accept_key (v : Word) (s : State) : (accept v s).key = s.key := rfl
@[simp] theorem accept_iv (v : Word) (s : State) : (accept v s).iv = s.iv := rfl
@[simp] theorem accept_din (v : Word) (s : State) : (accept v s).din = s.din := rfl
@[simp] theorem accept_dout (v : Word) (s : State) : (accept v s).dout = s.dout := rfl
@[simp] theorem accept_cv (v : Word) (s : State) : (accept v s).cv = s.cv := rfl
@[simp] theorem accept_keyValid (v : Word) (s : State) : (accept v s).keyValid = s.keyValid := rfl
@[simp] theorem accept_keyBits (v : Word) (s : State) : (accept v s).keyBits = s.keyBits := rfl
@[simp] theorem accept_nr (v : Word) (s : State) : (accept v s).nr = s.nr := rfl
@[simp] theorem accept_ek (v : Word) (s : State) : (accept v s).ek = s.ek := rfl
@[simp] theorem accept_dk (v : Word) (s : State) : (accept v s).dk = s.dk := rfl
@[simp] theorem accept_modeParamsOk (v : Word) (s : State) : (accept v s).modeParamsOk = s.modeParamsOk := rfl
@[simp] theorem accept_mode (v : Word) (s : State) : (accept v s).mode = s.mode := rfl
@[simp] theorem accept_dir (v : Word) (s : State) : (accept v s).dir = s.dir := rfl
@[simp] theorem accept_ctrM (v : Word) (s : State) : (accept v s).ctrM = s.ctrM := rfl
@[simp] theorem accept_busy (v : Word) (s : State) : (accept v s).busy = true := rfl
@[simp] theorem accept_done (v : Word) (s : State) : (accept v s).done = false := rfl
@[simp] theorem accept_fail (v : Word) (s : State) : (accept v s).fail = false := rfl
@[simp] theorem accept_err (v : Word) (s : State) : (accept v s).err = .none := rfl
@[simp] theorem accept_lcmd (v : Word) (s : State) : (accept v s).lcmd = v := rfl
@[simp] theorem accept_lkey (v : Word) (s : State) : (accept v s).lkey = keyBytesOfWords s.key := rfl
@[simp] theorem accept_liv (v : Word) (s : State) : (accept v s).liv = blockOfWords s.iv := rfl
@[simp] theorem accept_ldin (v : Word) (s : State) : (accept v s).ldin = blockOfWords s.din := rfl
@[simp] theorem accept_arrivals (v : Word) (s : State) : (accept v s).arrivals = s.arrivals := rfl
@[simp] theorem accept_answer (v : Word) (s : State) : (accept v s).answer = s.answer := rfl
@[simp] theorem accept_draws (v : Word) (s : State) : (accept v s).draws = s.draws := rfl

/-! ## loadKey -/

@[simp] theorem loadKey_key (n : Rounds) (s : State) : (loadKey n s).key = s.key := rfl
@[simp] theorem loadKey_iv (n : Rounds) (s : State) : (loadKey n s).iv = s.iv := rfl
@[simp] theorem loadKey_din (n : Rounds) (s : State) : (loadKey n s).din = s.din := rfl
@[simp] theorem loadKey_dout (n : Rounds) (s : State) : (loadKey n s).dout = s.dout := rfl
@[simp] theorem loadKey_cv (n : Rounds) (s : State) : (loadKey n s).cv = s.cv := rfl
@[simp] theorem loadKey_keyValid (n : Rounds) (s : State) : (loadKey n s).keyValid = true := rfl
@[simp] theorem loadKey_keyBits (n : Rounds) (s : State) : (loadKey n s).keyBits = BitVec.ofNat 16 (32 * keyWordCount n) := rfl
@[simp] theorem loadKey_nr (n : Rounds) (s : State) : (loadKey n s).nr = n := rfl
@[simp] theorem loadKey_ek (n : Rounds) (s : State) : (loadKey n s).ek = encryptionKeys n s.lkey s.draws := rfl
@[simp] theorem loadKey_dk (n : Rounds) (s : State) : (loadKey n s).dk = decryptionKeys n (encryptionKeys n s.lkey s.draws) s.draws := rfl
@[simp] theorem loadKey_modeParamsOk (n : Rounds) (s : State) : (loadKey n s).modeParamsOk = s.modeParamsOk := rfl
@[simp] theorem loadKey_mode (n : Rounds) (s : State) : (loadKey n s).mode = s.mode := rfl
@[simp] theorem loadKey_dir (n : Rounds) (s : State) : (loadKey n s).dir = s.dir := rfl
@[simp] theorem loadKey_ctrM (n : Rounds) (s : State) : (loadKey n s).ctrM = s.ctrM := rfl
@[simp] theorem loadKey_busy (n : Rounds) (s : State) : (loadKey n s).busy = s.busy := rfl
@[simp] theorem loadKey_done (n : Rounds) (s : State) : (loadKey n s).done = s.done := rfl
@[simp] theorem loadKey_fail (n : Rounds) (s : State) : (loadKey n s).fail = s.fail := rfl
@[simp] theorem loadKey_err (n : Rounds) (s : State) : (loadKey n s).err = s.err := rfl
@[simp] theorem loadKey_lcmd (n : Rounds) (s : State) : (loadKey n s).lcmd = s.lcmd := rfl
@[simp] theorem loadKey_lkey (n : Rounds) (s : State) : (loadKey n s).lkey = s.lkey := rfl
@[simp] theorem loadKey_liv (n : Rounds) (s : State) : (loadKey n s).liv = s.liv := rfl
@[simp] theorem loadKey_ldin (n : Rounds) (s : State) : (loadKey n s).ldin = s.ldin := rfl
@[simp] theorem loadKey_arrivals (n : Rounds) (s : State) : (loadKey n s).arrivals = s.arrivals := rfl
@[simp] theorem loadKey_answer (n : Rounds) (s : State) : (loadKey n s).answer = s.answer := rfl
@[simp] theorem loadKey_draws (n : Rounds) (s : State) : (loadKey n s).draws = s.draws + keyStoreDraws := rfl

/-! ## invalidateKey -/

@[simp] theorem invalidateKey_key (s : State) : (invalidateKey s).key = s.key := rfl
@[simp] theorem invalidateKey_iv (s : State) : (invalidateKey s).iv = s.iv := rfl
@[simp] theorem invalidateKey_din (s : State) : (invalidateKey s).din = s.din := rfl
@[simp] theorem invalidateKey_dout (s : State) : (invalidateKey s).dout = s.dout := rfl
@[simp] theorem invalidateKey_cv (s : State) : (invalidateKey s).cv = s.cv := rfl
@[simp] theorem invalidateKey_keyValid (s : State) : (invalidateKey s).keyValid = false := rfl
@[simp] theorem invalidateKey_keyBits (s : State) : (invalidateKey s).keyBits = 0#16 := rfl
@[simp] theorem invalidateKey_nr (s : State) : (invalidateKey s).nr = Config.freeRounds s.draws := rfl
@[simp] theorem invalidateKey_modeParamsOk (s : State) : (invalidateKey s).modeParamsOk = s.modeParamsOk := rfl
@[simp] theorem invalidateKey_mode (s : State) : (invalidateKey s).mode = s.mode := rfl
@[simp] theorem invalidateKey_dir (s : State) : (invalidateKey s).dir = s.dir := rfl
@[simp] theorem invalidateKey_ctrM (s : State) : (invalidateKey s).ctrM = s.ctrM := rfl
@[simp] theorem invalidateKey_busy (s : State) : (invalidateKey s).busy = s.busy := rfl
@[simp] theorem invalidateKey_done (s : State) : (invalidateKey s).done = s.done := rfl
@[simp] theorem invalidateKey_fail (s : State) : (invalidateKey s).fail = s.fail := rfl
@[simp] theorem invalidateKey_err (s : State) : (invalidateKey s).err = s.err := rfl
@[simp] theorem invalidateKey_lcmd (s : State) : (invalidateKey s).lcmd = s.lcmd := rfl
@[simp] theorem invalidateKey_lkey (s : State) : (invalidateKey s).lkey = s.lkey := rfl
@[simp] theorem invalidateKey_liv (s : State) : (invalidateKey s).liv = s.liv := rfl
@[simp] theorem invalidateKey_ldin (s : State) : (invalidateKey s).ldin = s.ldin := rfl
@[simp] theorem invalidateKey_arrivals (s : State) : (invalidateKey s).arrivals = s.arrivals := rfl
@[simp] theorem invalidateKey_answer (s : State) : (invalidateKey s).answer = s.answer := rfl
@[simp] theorem invalidateKey_draws (s : State) : (invalidateKey s).draws = s.draws + keyStoreDraws := rfl

/-! ## resetEvent -/

@[simp] theorem resetEvent_key (s : State) : (resetEvent s).key = State.reset.key := rfl
@[simp] theorem resetEvent_iv (s : State) : (resetEvent s).iv = State.reset.iv := rfl
@[simp] theorem resetEvent_din (s : State) : (resetEvent s).din = State.reset.din := rfl
@[simp] theorem resetEvent_dout (s : State) : (resetEvent s).dout = State.reset.dout := rfl
@[simp] theorem resetEvent_cv (s : State) : (resetEvent s).cv = State.reset.cv := rfl
@[simp] theorem resetEvent_keyValid (s : State) : (resetEvent s).keyValid = State.reset.keyValid := rfl
@[simp] theorem resetEvent_keyBits (s : State) : (resetEvent s).keyBits = State.reset.keyBits := rfl
@[simp] theorem resetEvent_modeParamsOk (s : State) : (resetEvent s).modeParamsOk = State.reset.modeParamsOk := rfl
@[simp] theorem resetEvent_mode (s : State) : (resetEvent s).mode = State.reset.mode := rfl
@[simp] theorem resetEvent_dir (s : State) : (resetEvent s).dir = State.reset.dir := rfl
@[simp] theorem resetEvent_ctrM (s : State) : (resetEvent s).ctrM = State.reset.ctrM := rfl
@[simp] theorem resetEvent_busy (s : State) : (resetEvent s).busy = State.reset.busy := rfl
@[simp] theorem resetEvent_done (s : State) : (resetEvent s).done = State.reset.done := rfl
@[simp] theorem resetEvent_fail (s : State) : (resetEvent s).fail = State.reset.fail := rfl
@[simp] theorem resetEvent_err (s : State) : (resetEvent s).err = State.reset.err := rfl
@[simp] theorem resetEvent_arrivals (s : State) : (resetEvent s).arrivals = s.arrivals := rfl
@[simp] theorem resetEvent_answer (s : State) : (resetEvent s).answer = State.reset.answer := rfl
@[simp] theorem resetEvent_draws (s : State) : (resetEvent s).draws = s.draws + keyStoreDraws + 2 := rfl

/-- Replacing the arrivals by themselves changes nothing. -/
@[simp] theorem withArrivals_self (s : State) : withArrivals s.arrivals s = s := rfl

@[simp] theorem withArrivals_withArrivals (es fs : List PortEvent) (s : State) :
    withArrivals es (withArrivals fs s) = withArrivals es s := rfl

end Sys2Proof.Machine
end

