-- ==== Sys2Proof/Laws/Bus.lean ====
section
/-! SUPPORT. The window as the bus sees it: which addresses lie in it, what an access can do. -/

namespace Sys2Proof.Machine

/-- BASE_ADDR is a multiple of 4. -/
theorem baseAddr_mod_four : Config.baseAddr % 4 = 0 := by
  unfold Config.baseAddr
  omega

/-- An offset below 0x100 lies in the window, at itself (R22). -/
theorem windowOffset_base_add (off : Nat) (h : off < 256) :
    windowOffset (Config.baseAddr + off) = some ⟨off, h⟩ := by
  have hs : Config.windowSize = 256 := rfl
  have hin : Config.baseAddr ≤ Config.baseAddr + off ∧
      Config.baseAddr + off < Config.baseAddr + Config.windowSize := by omega
  unfold windowOffset
  rw [dif_pos hin]
  simp

/-- An address in the window is BASE_ADDR and its offset. -/
theorem addr_of_windowOffset {addr : Nat} {off : Fin 256} (h : windowOffset addr = some off) :
    addr = Config.baseAddr + off.val := by
  unfold windowOffset at h
  split at h
  · cases h
    simp only
    omega
  · cases h

theorem accessAligned_iff (a : Access) : accessAligned a = true ↔ a.size = 4 ∧ a.addr % 4 = 0 := by
  simp [accessAligned]

/-- A 32-bit access at BASE_ADDR and an aligned offset is supported (R62). -/
theorem accessAligned_base_add (off : Nat) (op : BusOp) (h : off % 4 = 0) :
    accessAligned { addr := Config.baseAddr + off, size := 4, op := op } = true := by
  have h4 := baseAddr_mod_four
  rw [accessAligned_iff]
  refine ⟨rfl, ?_⟩
  simp only
  omega

theorem regOffset_lt (r : WindowReg) : regOffset r < 256 := by
  cases r <;> simp [regOffset] <;> omega

theorem regOffset_mod_four (r : WindowReg) : regOffset r % 4 = 0 := by
  cases r <;> simp [regOffset]

/-- A supported write to CMD is one at BASE_ADDR itself. -/
theorem isCmdWrite_iff (a : Access) :
    isCmdWrite a = true ↔ a.size = 4 ∧ a.addr = Config.baseAddr ∧ ∃ v, a.op = .write v := by
  unfold isCmdWrite
  cases hop : a.op with
  | read => simp
  | write v =>
    simp only [Bool.and_eq_true, decide_eq_true_eq, accessAligned_iff]
    constructor
    · rintro ⟨⟨hs, -⟩, hw⟩
      exact ⟨hs, by simpa using addr_of_windowOffset hw, v, rfl⟩
    · rintro ⟨hs, ha, -⟩
      have h4 := baseAddr_mod_four
      refine ⟨⟨hs, by omega⟩, ?_⟩
      rw [ha]
      exact windowOffset_base_add 0 (by decide)

/-- What an access that is not held can do: it leaves the window and is refused, it is not supported and faults, it
reads, or it writes. -/
theorem busAccess_cases (a : Access) (s : State) :
    (windowOffset a.addr = none ∧ busAccess a s = .refused (.outsideWindow a)) ∨
    (∃ off, windowOffset a.addr = some off ∧ accessAligned a = false ∧
      busAccess a s = .fault (.busError a 0#32)) ∨
    (∃ off, windowOffset a.addr = some off ∧ accessAligned a = true ∧ a.op = .read ∧
      busAccess a s = .next { s with answer := .readData (readReg (regAt off) s) }) ∨
    (∃ off v, windowOffset a.addr = some off ∧ accessAligned a = true ∧ a.op = .write v ∧
      busAccess a s = .next { writeReg (regAt off) v s with answer := .written }) := by
  unfold busAccess
  cases hw : windowOffset a.addr with
  | none => exact .inl ⟨rfl, rfl⟩
  | some off =>
    cases ha : accessAligned a with
    | false => exact .inr (.inl ⟨off, rfl, rfl, by simp⟩)
    | true =>
      cases hop : a.op with
      | read => exact .inr (.inr (.inl ⟨off, rfl, rfl, rfl, by simp⟩))
      | write v => exact .inr (.inr (.inr ⟨off, v, rfl, rfl, rfl, by simp⟩))

end Sys2Proof.Machine
end

