-- ==== Sys2Proof/Laws/Cipher.lean ====
section
/-! SUPPORT. The steps of the cipher byte by byte, and the middle round keys. -/

namespace Sys2Proof.Machine

@[simp] theorem getElem_addRoundKey (s k : Block) (i : Nat) (h : i < 16) :
    (addRoundKey s k)[i] = s[i] ^^^ k[i] := by simp [addRoundKey]

@[simp] theorem getElem_blockXor (a b : Block) (i : Nat) (h : i < 16) :
    (blockXor a b)[i] = a[i] ^^^ b[i] := by simp [blockXor]

@[simp] theorem getElem_subBytes (s : Block) (i : Nat) (h : i < 16) : (subBytes s)[i] = sbox s[i] := by
  simp [subBytes]

@[simp] theorem getElem_invSubBytes (s : Block) (i : Nat) (h : i < 16) : (invSubBytes s)[i] = invSbox s[i] := by
  simp [invSubBytes]

theorem getElem_shiftRows (s : Block) (i : Nat) (h : i < 16) :
    (shiftRows s)[i] = s[4 * ((i / 4 + i % 4) % 4) + i % 4] := by simp [shiftRows]

theorem getElem_invShiftRows (s : Block) (i : Nat) (h : i < 16) :
    (invShiftRows s)[i] = s[4 * ((i / 4 + (4 - i % 4)) % 4) + i % 4] := by simp [invShiftRows]

theorem getElem_mulColumns (m : Vector (Vector Byte 4) 4) (s : Block) (i : Nat) (h : i < 16) :
    (mulColumns m s)[i] =
      gmul m[i % 4][0] s[4 * (i / 4)] ^^^ gmul m[i % 4][1] s[4 * (i / 4) + 1] ^^^
        gmul m[i % 4][2] s[4 * (i / 4) + 2] ^^^ gmul m[i % 4][3] s[4 * (i / 4) + 3] := by
  simp [mulColumns]

@[simp] theorem getElem_keyWordXor (a b : KeyWord) (i : Nat) (h : i < 4) :
    (keyWordXor a b)[i] = a[i] ^^^ b[i] := by simp [keyWordXor]

/-- There are Nr - 1 middle rounds (R180). -/
theorem length_middleKeys (ks : Vector Block 15) (n : Rounds) :
    (middleKeys ks n).length = roundCount n - 1 := by
  have h := roundCount_lt n
  simp [middleKeys]
  omega

/-- The middle round keys are those of the indices 1..Nr-1, in order (R180). -/
theorem getElem_middleKeys (ks : Vector Block 15) (n : Rounds) (i : Nat) (h : i < (middleKeys ks n).length) :
    (middleKeys ks n)[i] = ks[i + 1]'(by
      have h1 := length_middleKeys ks n
      have h2 := roundCount_lt n
      omega) := by
  simp [middleKeys]

/-- The words already there stay as the schedule grows (R144). -/
theorem getElem_expandWords_succ (n : Rounds) (key : Vector Byte 32) (k i : Nat) (h : i < keyWordCount n + k) :
    (expandWords n key (k + 1))[i]'(by omega) = (expandWords n key k)[i] := by
  simp [expandWords, Vector.getElem_push_lt h]

/-- The next word of the schedule (R144). -/
theorem getElem_expandWords_last (n : Rounds) (key : Vector Byte 32) (k : Nat) :
    (expandWords n key (k + 1))[keyWordCount n + k]'(by omega) =
      keyWordXor ((expandWords n key k)[k]'(by have h := keyWordCount_pos n; omega))
        (scheduleTemp (keyWordCount n) (keyWordCount n + k)
          ((expandWords n key k)[keyWordCount n + k - 1]'(by have h := keyWordCount_pos n; omega))) := by
  simp [expandWords]

/-- A legal key length and its rounds (R140). -/
theorem roundsOfKeyLength_eq_some (keylen : Nat) (n : Rounds) :
    roundsOfKeyLength keylen = some n ↔ keylen = 4 * keyWordCount n := by
  unfold roundsOfKeyLength
  cases n <;> simp only [keyWordCount, roundCount] <;> split <;> (try split) <;> (try split) <;> simp <;> omega

theorem roundsOfKeyLength_eq_none (keylen : Nat) :
    roundsOfKeyLength keylen = none ↔ keylen ≠ 16 ∧ keylen ≠ 24 ∧ keylen ≠ 32 := by
  unfold roundsOfKeyLength
  split <;> (try split) <;> (try split) <;> simp <;> omega

end Sys2Proof.Machine
end

