-- ==== Sys2Proof/Laws/Decode.lean ====
section
/-! SUPPORT. The bits of a placed field, the fields of a packed word, the direction bit. -/

namespace Sys2Proof

theorem getLsbD_placeField {n : Nat} (x : BitVec n) (lo i : Nat) :
    (placeField x lo).getLsbD i = (decide (i < 32) && decide (lo ≤ i) && x.getLsbD (i - lo)) := by
  by_cases h1 : i < 32 <;> by_cases h2 : i < lo <;> simp [placeField, h1, h2, Nat.not_le.mpr, Nat.not_lt.mp]

/-- Bit i of a packed word, field by field. -/
theorem getLsbD_packWord (op : BitVec 4) (md : BitVec 2) (d : BitVec 1) (a b i : Nat) (h : i < 32) :
    (packWord op md d a b).getLsbD i =
      (op.getLsbD i || (decide (4 ≤ i) && md.getLsbD (i - 4)) || (decide (6 ≤ i) && d.getLsbD (i - 6)) ||
        (decide (8 ≤ i) && (BitVec.ofNat 8 a).getLsbD (i - 8)) ||
        (decide (16 ≤ i) && (BitVec.ofNat 8 b).getLsbD (i - 16))) := by
  simp [packWord, BitVec.getLsbD_or, getLsbD_placeField, h, -BitVec.getLsbD_eq_getElem]

@[simp] theorem dirOfBit_dirBit (d : Dir) : dirOfBit ((dirBit d).getLsbD 0) = d := by cases d <;> rfl

/-- Bits lo to lo + n of a packed word are a field of its own when every other field misses them. -/
theorem extract_packWord {n : Nat} (op : BitVec 4) (md : BitVec 2) (d : BitVec 1) (a b lo : Nat) (x : BitVec n)
    (hn : lo + n ≤ 32)
    (h : ∀ i < n, (op.getLsbD (lo + i) || (decide (4 ≤ lo + i) && md.getLsbD (lo + i - 4)) ||
      (decide (6 ≤ lo + i) && d.getLsbD (lo + i - 6)) ||
      (decide (8 ≤ lo + i) && (BitVec.ofNat 8 a).getLsbD (lo + i - 8)) ||
      (decide (16 ≤ lo + i) && (BitVec.ofNat 8 b).getLsbD (lo + i - 16))) = x.getLsbD i) :
    (packWord op md d a b).extractLsb' lo n = x := by
  apply BitVec.eq_of_getLsbD_eq
  intro i hi
  rw [BitVec.getLsbD_extractLsb', getLsbD_packWord _ _ _ _ _ _ (by omega), h i hi]
  simp [hi]

@[simp] theorem opField_packWord (op : BitVec 4) (md : BitVec 2) (d : BitVec 1) (a b : Nat) :
    opField (packWord op md d a b) = op := by
  apply extract_packWord _ _ _ _ _ _ _ (by decide)
  intro i hi
  have h4 : ¬ 4 ≤ i := by omega
  have h6 : ¬ 6 ≤ i := by omega
  have h8 : ¬ 8 ≤ i := by omega
  have h16 : ¬ 16 ≤ i := by omega
  simp [h4, h6, h8, h16, -BitVec.getLsbD_eq_getElem]

@[simp] theorem modeField_packWord (op : BitVec 4) (md : BitVec 2) (d : BitVec 1) (a b : Nat) :
    modeField (packWord op md d a b) = md := by
  apply extract_packWord _ _ _ _ _ _ _ (by decide)
  intro i hi
  have h6 : ¬ 6 ≤ 4 + i := by omega
  have h8 : ¬ 8 ≤ 4 + i := by omega
  have h16 : ¬ 16 ≤ 4 + i := by omega
  simp [h6, h8, h16, -BitVec.getLsbD_eq_getElem]

@[simp] theorem dirField_packWord (op : BitVec 4) (md : BitVec 2) (d : BitVec 1) (a b : Nat) :
    dirField (packWord op md d a b) = d.getLsbD 0 := by
  unfold dirField
  rw [getLsbD_packWord _ _ _ _ _ _ (by decide)]
  simp [-BitVec.getLsbD_eq_getElem]

@[simp] theorem rsv0Field_packWord (op : BitVec 4) (md : BitVec 2) (d : BitVec 1) (a b : Nat) :
    rsv0Field (packWord op md d a b) = false := by
  unfold rsv0Field
  rw [getLsbD_packWord _ _ _ _ _ _ (by decide)]
  simp [-BitVec.getLsbD_eq_getElem]

theorem lenaBits_packWord (op : BitVec 4) (md : BitVec 2) (d : BitVec 1) (a b : Nat) :
    (packWord op md d a b).extractLsb' 8 8 = BitVec.ofNat 8 a := by
  apply extract_packWord _ _ _ _ _ _ _ (by decide)
  intro i hi
  have h16 : ¬ 16 ≤ 8 + i := by omega
  simp [h16, -BitVec.getLsbD_eq_getElem, BitVec.getLsbD_of_ge op (8 + i) (by omega),
    BitVec.getLsbD_of_ge md (8 + i - 4) (by omega), BitVec.getLsbD_of_ge d (8 + i - 6) (by omega)]

theorem lenbBits_packWord (op : BitVec 4) (md : BitVec 2) (d : BitVec 1) (a b : Nat) :
    (packWord op md d a b).extractLsb' 16 8 = BitVec.ofNat 8 b := by
  apply extract_packWord _ _ _ _ _ _ _ (by decide)
  intro i hi
  simp [-BitVec.getLsbD_eq_getElem, BitVec.getLsbD_of_ge op (16 + i) (by omega),
    BitVec.getLsbD_of_ge md (16 + i - 4) (by omega), BitVec.getLsbD_of_ge d (16 + i - 6) (by omega),
    BitVec.getLsbD_of_ge (BitVec.ofNat 8 a) (16 + i - 8) (by omega)]

@[simp] theorem rsv1Field_packWord (op : BitVec 4) (md : BitVec 2) (d : BitVec 1) (a b : Nat) :
    rsv1Field (packWord op md d a b) = 0#8 := by
  apply extract_packWord _ _ _ _ _ _ _ (by decide)
  intro i hi
  simp [-BitVec.getLsbD_eq_getElem, BitVec.getLsbD_of_ge op (24 + i) (by omega),
    BitVec.getLsbD_of_ge md (24 + i - 4) (by omega), BitVec.getLsbD_of_ge d (24 + i - 6) (by omega),
    BitVec.getLsbD_of_ge (BitVec.ofNat 8 a) (24 + i - 8) (by omega),
    BitVec.getLsbD_of_ge (BitVec.ofNat 8 b) (24 + i - 16) (by omega)]

theorem lenaField_packWord (op : BitVec 4) (md : BitVec 2) (d : BitVec 1) (a b : Nat) (h : a < 256) :
    lenaField (packWord op md d a b) = a := by
  simp [lenaField, lenaBits_packWord, Nat.mod_eq_of_lt h]

theorem lenbField_packWord (op : BitVec 4) (md : BitVec 2) (d : BitVec 1) (a b : Nat) (h : b < 256) :
    lenbField (packWord op md d a b) = b := by
  simp [lenbField, lenbBits_packWord, Nat.mod_eq_of_lt h]

end Sys2Proof
end

