-- ==== Sys2Proof/Laws/Exec.lean ====
section
/-! SUPPORT. What a completion can do: every command answers a next state, in one of the shapes below, and what none of
them touches. -/

namespace Sys2Proof.Machine

/-- One PROCESS writes at most DOUT and CV. -/
theorem processBlock_shape (s : State) : ∃ d c, processBlock s = setDout d (setCv c s) := by
  unfold processBlock
  split
  · exact ⟨_, s.cv, rfl⟩
  · exact ⟨_, s.cv, rfl⟩
  · exact ⟨_, _, rfl⟩
  · exact ⟨_, _, rfl⟩
  · exact ⟨_, _, rfl⟩

/-- ECB leaves CV alone (R231, R232). -/
theorem processBlock_ecb_cv (s : State) (h : s.mode = .ecb) : (processBlock s).cv = s.cv := by
  unfold processBlock
  split <;> simp_all [processEcbEnc, processEcbDec]

/-- What exec can do, command by command: the state before the result is recorded, and the result. -/
inductive Ran : Instr → State → State → Prop where
  | keyLoaded (keylen : Nat) (n : Rounds) (s : State) (h : roundsOfKeyLength keylen = some n) :
      Ran (.setKey keylen) s (completeSuccess (loadKey n s))
  | keyRejected (keylen : Nat) (s : State) (h : roundsOfKeyLength keylen = none) :
      Ran (.setKey keylen) s (raiseFailure .keyLength (invalidateKey s))
  | encrypted (a b : Nat) (s : State) (h : blockCommandError a b s = none) :
      Ran (.encrypt a b) s (completeSuccess (setDout (cipher s.ek s.nr s.ldin) s))
  | encryptRejected (a b : Nat) (s : State) (e : ErrCode) (h : blockCommandError a b s = some e) :
      Ran (.encrypt a b) s (raiseFailure e s)
  | decrypted (a b : Nat) (s : State) (h : blockCommandError a b s = none) :
      Ran (.decrypt a b) s (completeSuccess (setDout (invCipher s.dk s.nr s.ldin) s))
  | decryptRejected (a b : Nat) (s : State) (e : ErrCode) (h : blockCommandError a b s = some e) :
      Ran (.decrypt a b) s (raiseFailure e s)
  | ecbConfigured (d : Dir) (a b : Nat) (s : State) :
      Ran (.modeInitEcb d a b) s (completeSuccess (configureMode .ecb d 0 s))
  | cbcConfigured (d : Dir) (l b : Nat) (s : State) (h : l = blockBytes) :
      Ran (.modeInitCbc d l b) s (completeSuccess (setCv s.liv (configureMode .cbc d 0 s)))
  | cbcRejected (d : Dir) (l b : Nat) (s : State) (h : l ≠ blockBytes) :
      Ran (.modeInitCbc d l b) s (raiseFailure .ivLength (invalidateMode s))
  | ctrConfigured (d : Dir) (l m : Nat) (s : State) (h : l = blockBytes) (h1 : 1 ≤ m) (h2 : m ≤ 128) :
      Ran (.modeInitCtr d l m) s (completeSuccess (setCv (ctrLoad s.liv m) (configureMode .ctr d m s)))
  | ctrRejectedIv (d : Dir) (l m : Nat) (s : State) (h : l ≠ blockBytes) :
      Ran (.modeInitCtr d l m) s (raiseFailure .ivLength (invalidateMode s))
  | ctrRejectedWidth (d : Dir) (l m : Nat) (s : State) (h : l = blockBytes) (h1 : m < 1 ∨ 128 < m) :
      Ran (.modeInitCtr d l m) s (raiseFailure .ctrWidth (invalidateMode s))
  | processed (a b : Nat) (s : State) (h : processError a b s = none) :
      Ran (.process a b) s (completeSuccess (processBlock s))
  | processRejected (a b : Nat) (s : State) (e : ErrCode) (h : processError a b s = some e) :
      Ran (.process a b) s (raiseFailure e s)

/-- Every command answers a next state, in one of the shapes of `Ran`. -/
theorem exec_ran (i : Instr) (s : State) : ∃ t, exec i s = .next t ∧ Ran i s t := by
  cases i with
  | setKey keylen =>
    cases h : roundsOfKeyLength keylen with
    | none => exact ⟨_, by simp [exec, execSetKey, h], .keyRejected _ _ h⟩
    | some n => exact ⟨_, by simp [exec, execSetKey, h], .keyLoaded _ _ _ h⟩
  | encrypt a b =>
    cases h : blockCommandError a b s with
    | none => exact ⟨_, by simp [exec, execEncrypt, h], .encrypted _ _ _ h⟩
    | some e => exact ⟨_, by simp [exec, execEncrypt, h], .encryptRejected _ _ _ _ h⟩
  | decrypt a b =>
    cases h : blockCommandError a b s with
    | none => exact ⟨_, by simp [exec, execDecrypt, h], .decrypted _ _ _ h⟩
    | some e => exact ⟨_, by simp [exec, execDecrypt, h], .decryptRejected _ _ _ _ h⟩
  | modeInitEcb d a b => exact ⟨_, rfl, .ecbConfigured _ _ _ _⟩
  | modeInitCbc d l b =>
    by_cases h : l = blockBytes
    · exact ⟨_, by simp [exec, execModeInitCbc, h], .cbcConfigured _ _ _ _ h⟩
    · exact ⟨_, by simp [exec, execModeInitCbc, h], .cbcRejected _ _ _ _ h⟩
  | modeInitCtr d l m =>
    by_cases h : l = blockBytes
    · by_cases h1 : m < 1 ∨ 128 < m
      · exact ⟨_, by simp only [exec, execModeInitCtr, h, ne_eq, not_true_eq_false, if_false, h1, if_true],
          .ctrRejectedWidth _ _ _ _ h h1⟩
      · exact ⟨_, by simp only [exec, execModeInitCtr, h, ne_eq, not_true_eq_false, if_false, h1],
          .ctrConfigured _ _ _ _ h (by omega) (by omega)⟩
    · exact ⟨_, by simp [exec, execModeInitCtr, h], .ctrRejectedIv _ _ _ _ h⟩
  | process a b =>
    cases h : processError a b s with
    | none => exact ⟨_, by simp [exec, execProcess, h], .processed _ _ _ h⟩
    | some e => exact ⟨_, by simp [exec, execProcess, h], .processRejected _ _ _ _ h⟩

/-- If exec answers a next state, it is one of the shapes of `Ran`. -/
theorem ran_of_exec {i : Instr} {s t : State} (h : exec i s = .next t) : Ran i s t := by
  obtain ⟨u, hu, hr⟩ := exec_ran i s
  rw [h] at hu
  cases hu
  exact hr

/-- What no completion changes: the staging registers, the latched operands, what is to arrive, the bus's answer. -/
structure Untouched (s t : State) : Prop where
  key : t.key = s.key
  iv : t.iv = s.iv
  din : t.din = s.din
  lcmd : t.lcmd = s.lcmd
  lkey : t.lkey = s.lkey
  liv : t.liv = s.liv
  ldin : t.ldin = s.ldin
  arrivals : t.arrivals = s.arrivals
  answer : t.answer = s.answer
  idle : t.busy = false
  finished : t.done = true

/-- No command touches them, and every command ends. -/
theorem Ran.untouched {i : Instr} {s t : State} (h : Ran i s t) : Untouched s t := by
  cases h with
  | processed a b s h =>
    obtain ⟨d, c, hp⟩ := processBlock_shape s
    rw [hp]
    constructor <;> simp
  | _ => constructor <;> simp

/-- A completion answers a next state: the command's, or Failure(ILLEGAL) with nothing else (R85, R296). -/
theorem completeCommand_cases (s : State) :
    ∃ t, completeCommand s = .next t ∧
      ((∃ i, decode s.lcmd = .legal i ∧ exec i s = .next t ∧ Ran i s t) ∨
        (∃ why, decode s.lcmd = .illegal why) ∧ t = raiseFailure .illegal s) := by
  unfold completeCommand
  cases h : decode s.lcmd with
  | legal i =>
    obtain ⟨t, ht, hr⟩ := exec_ran i s
    exact ⟨t, ht, .inl ⟨i, rfl, ht, hr⟩⟩
  | illegal why => exact ⟨_, rfl, .inr ⟨⟨why, rfl⟩, rfl⟩⟩

theorem completeCommand_untouched {s t : State} (h : completeCommand s = .next t) : Untouched s t := by
  obtain ⟨u, hu, hc⟩ := completeCommand_cases s
  rw [h] at hu
  cases hu
  rcases hc with ⟨i, -, -, hr⟩ | ⟨-, rfl⟩
  · exact hr.untouched
  · constructor <;> simp

end Sys2Proof.Machine
end

