-- ==== Sys2Proof/Laws/PerInstr.lean ====
section
/-! SUPPORT. Per instruction: the word of a command lies in the row of the opcode map that carries its mnemonic
(R86). -/

namespace Sys2Proof.Laws.EncodeInRow

/-- The word of the command is one of its row's words. -/
def Statement (i : Instr) : Prop := ∃ r ∈ opcodeRows, r.mnemonic = i.mnemonic ∧ r.covers (encode i) = true

/-- A packed word masked to OP, MODE, DIR, RSV0, RSV1 shows just those fields. -/
theorem packWord_and_fixed (op : BitVec 4) (md : BitVec 2) (d : BitVec 1) (a b : Nat) :
    packWord op md d a b &&& 0xFF0000FF#32 = placeField op 0 ||| placeField md 4 ||| placeField d 6 := by
  apply BitVec.eq_of_getLsbD_eq
  intro i hi
  rw [BitVec.getLsbD_and, getLsbD_packWord _ _ _ _ _ _ hi]
  simp only [BitVec.getLsbD_or, getLsbD_placeField]
  interval_cases i <;> simp [-BitVec.getLsbD_eq_getElem]

/-- The same, with DIR masked away. -/
theorem packWord_and_mode (op : BitVec 4) (md : BitVec 2) (d : BitVec 1) (a b : Nat) :
    packWord op md d a b &&& 0xFF0000BF#32 = placeField op 0 ||| placeField md 4 := by
  apply BitVec.eq_of_getLsbD_eq
  intro i hi
  rw [BitVec.getLsbD_and, getLsbD_packWord _ _ _ _ _ _ hi]
  simp only [BitVec.getLsbD_or, getLsbD_placeField]
  interval_cases i <;> simp [-BitVec.getLsbD_eq_getElem]

/-- The same for a word with LENB = 0, LENB kept. -/
theorem packWord_and_key (op : BitVec 4) (md : BitVec 2) (d : BitVec 1) (a : Nat) :
    packWord op md d a 0 &&& 0xFFFF00FF#32 = placeField op 0 ||| placeField md 4 ||| placeField d 6 := by
  apply BitVec.eq_of_getLsbD_eq
  intro i hi
  rw [BitVec.getLsbD_and, getLsbD_packWord _ _ _ _ _ _ hi]
  simp only [BitVec.getLsbD_or, getLsbD_placeField]
  interval_cases i <;> simp [-BitVec.getLsbD_eq_getElem]

theorem setKey (keylen : Nat) : Statement (.setKey keylen) :=
  ⟨opcodeRows[0], List.getElem_mem _, rfl, by
    show decide (packWord 1#4 0#2 0#1 keylen 0 &&& 0xFFFF00FF#32 = 0x00000001#32) = true
    rw [packWord_and_key]; decide⟩

theorem encrypt (inlen outlen : Nat) : Statement (.encrypt inlen outlen) :=
  ⟨opcodeRows[1], List.getElem_mem _, rfl, by
    show decide (packWord 2#4 0#2 0#1 inlen outlen &&& 0xFF0000FF#32 = 0x00000002#32) = true
    rw [packWord_and_fixed]; decide⟩

theorem decrypt (inlen outlen : Nat) : Statement (.decrypt inlen outlen) :=
  ⟨opcodeRows[2], List.getElem_mem _, rfl, by
    show decide (packWord 3#4 0#2 0#1 inlen outlen &&& 0xFF0000FF#32 = 0x00000003#32) = true
    rw [packWord_and_fixed]; decide⟩

theorem modeInitEcb (dir : Dir) (lena lenb : Nat) : Statement (.modeInitEcb dir lena lenb) :=
  ⟨opcodeRows[3], List.getElem_mem _, rfl, by
    show decide (packWord 4#4 0#2 (dirBit dir) lena lenb &&& 0xFF0000BF#32 = 0x00000004#32) = true
    rw [packWord_and_mode]; decide⟩

theorem modeInitCbc (dir : Dir) (ivlen lenb : Nat) : Statement (.modeInitCbc dir ivlen lenb) :=
  ⟨opcodeRows[4], List.getElem_mem _, rfl, by
    show decide (packWord 4#4 1#2 (dirBit dir) ivlen lenb &&& 0xFF0000BF#32 = 0x00000014#32) = true
    rw [packWord_and_mode]; decide⟩

theorem modeInitCtr (dir : Dir) (ivlen m : Nat) : Statement (.modeInitCtr dir ivlen m) :=
  ⟨opcodeRows[5], List.getElem_mem _, rfl, by
    show decide (packWord 4#4 2#2 (dirBit dir) ivlen m &&& 0xFF0000BF#32 = 0x00000024#32) = true
    rw [packWord_and_mode]; decide⟩

theorem process (inlen outlen : Nat) : Statement (.process inlen outlen) :=
  ⟨opcodeRows[6], List.getElem_mem _, rfl, by
    show decide (packWord 5#4 0#2 0#1 inlen outlen &&& 0xFF0000FF#32 = 0x00000005#32) = true
    rw [packWord_and_fixed]; decide⟩

end Sys2Proof.Laws.EncodeInRow
end

