-- ==== Sys2Proof/Laws/Step.lean ====
section
/-! SUPPORT. What one step can do, said once: every invariant of the machine is a case analysis of `step_cases`. -/

namespace Sys2Proof.Machine

/-- The engine's turn answers a next state: the completion of the command in flight, or the same state. -/
theorem engineTurn_cases (s : State) :
    ∃ t, engineTurn s = .next t ∧
      (s.busy = true ∧ completeCommand s = .next t ∨ s.busy = false ∧ t = s) := by
  unfold engineTurn
  cases hb : s.busy with
  | true =>
    obtain ⟨t, ht, -⟩ := completeCommand_cases s
    exact ⟨t, by simp [ht], .inl ⟨rfl, ht⟩⟩
  | false => exact ⟨s, by simp, .inr ⟨rfl, rfl⟩⟩

/-- If a step answers a next state, then a command in flight completed, or the engine waited, or reset was asserted,
or a register was read, or a register was written by a write that was not held. -/
theorem step_cases {s t : State} (h : step s = .next t) :
    (∃ es, s.busy = true ∧ completeCommand (withArrivals es s) = .next t) ∨
    (∃ es, s.busy = false ∧ t = withArrivals es s) ∨
    (∃ rest, s.arrivals = .reset :: rest ∧ t = resetEvent (withArrivals rest s)) ∨
    (∃ a rest off, s.arrivals = .access a :: rest ∧ windowOffset a.addr = some off ∧ accessAligned a = true ∧
      a.op = .read ∧ t = { withArrivals rest s with answer := .readData (readReg (regAt off) (withArrivals rest s)) }) ∨
    (∃ a rest off v, s.arrivals = .access a :: rest ∧ heldAccess a s = false ∧ windowOffset a.addr = some off ∧
      accessAligned a = true ∧ a.op = .write v ∧
      t = { writeReg (regAt off) v (withArrivals rest s) with answer := .written }) := by
  have turn : ∀ es, engineTurn (withArrivals es s) = .next t →
      (∃ es, s.busy = true ∧ completeCommand (withArrivals es s) = .next t) ∨
      (∃ es, s.busy = false ∧ t = withArrivals es s) := by
    intro es he
    obtain ⟨u, hu, hc⟩ := engineTurn_cases (withArrivals es s)
    rw [he] at hu
    cases hu
    rcases hc with ⟨hb, hc⟩ | ⟨hb, hc⟩
    · exact .inl ⟨es, hb, hc⟩
    · exact .inr ⟨es, hb, hc⟩
  have turn0 : engineTurn s = .next t →
      (∃ es, s.busy = true ∧ completeCommand (withArrivals es s) = .next t) ∨
      (∃ es, s.busy = false ∧ t = withArrivals es s) := fun he => turn s.arrivals he
  have widen : ∀ {p q r : Prop}, p ∨ q → p ∨ q ∨ r := fun h => h.elim .inl fun h => .inr (.inl h)
  unfold step portStep at h
  split at h
  · exact widen (turn0 h)
  · exact widen (turn _ h)
  · rename_i rest he
    cases h
    exact .inr (.inr (.inl ⟨rest, he, rfl⟩))
  · rename_i a rest he
    split at h
    · exact widen (turn0 h)
    · rename_i hh
      have hheld : heldAccess a s = false := by simpa using hh
      rcases busAccess_cases a (withArrivals rest s) with
        ⟨-, hb⟩ | ⟨off, -, -, hb⟩ | ⟨off, hw, ha, hop, hb⟩ | ⟨off, v, hw, ha, hop, hb⟩
      · rw [hb] at h; cases h
      · rw [hb] at h; cases h
      · rw [hb] at h; cases h
        exact .inr (.inr (.inr (.inl ⟨a, rest, off, he, hw, ha, hop, rfl⟩)))
      · rw [hb] at h; cases h
        exact .inr (.inr (.inr (.inr ⟨a, rest, off, v, he, hheld, hw, ha, hop, rfl⟩)))

end Sys2Proof.Machine
end

