-- ==== Sys2Proof/Tests/Slice0.lean ====
section
/-! SUPPORT. Tests with values from `95_test_vectors.md` and from the encoding rules, and witnesses for the hypotheses
of the statements. -/

namespace Sys2Proof.Tests

open Sys2Proof Sys2Proof.Machine

-- The theorems are checked one after another: side by side they take more memory than the check allows.
set_option Elab.async false

/-! ## Helpers -/

/-- The outcome is a next state that meets p. -/
def nextMeets (p : State → Bool) : Host.Outcome State Fault Refusal → Bool
  | .next t => p t
  | .fault _ => false
  | .refused _ => false

/-- A block in hexadecimal, four words. -/
def hexBlock (a b c d : Word) : Block := blockOfWords #v[a, b, c, d]

/-- The key 000102...0f, the rest of the staging zero. -/
def key128 : Vector Byte 32 :=
  keyBytesOfWords #v[0x00010203#32, 0x04050607#32, 0x08090A0B#32, 0x0C0D0E0F#32, 0#32, 0#32, 0#32, 0#32]

/-- The key 000102...1f. -/
def key256 : Vector Byte 32 :=
  keyBytesOfWords #v[0x00010203#32, 0x04050607#32, 0x08090A0B#32, 0x0C0D0E0F#32, 0x10111213#32, 0x14151617#32,
    0x18191A1B#32, 0x1C1D1E1F#32]

/-- The plaintext 00112233...ff of L1-1. -/
def plain : Block := hexBlock 0x00112233#32 0x44556677#32 0x8899AABB#32 0xCCDDEEFF#32

/-- The ciphertext of L1-1. -/
def cipherText : Block := hexBlock 0x69C4E0D8#32 0x6A7B0430#32 0xD8CDB780#32 0x70B4C55A#32

/-- Reset, with the key 000102...0f latched for a SET_KEY. -/
def latchedKey : State := { State.reset with lkey := key128 }

/-- After SET_KEY 16 of 000102...0f, with this block latched for the next command. -/
def keyed (ldin : Block) : State := { loadKey .r10 latchedKey with ldin := ldin }

/-- A Ready state with a key store of zero round keys. -/
def ready (mode : Mode) (dir : Dir) (m : BitVec 8) : State :=
  { State.reset with keyValid := true, keyBits := 128#16, modeParamsOk := true, mode := mode, dir := dir, ctrM := m }

/-- The state with a command of this word in flight. -/
def inFlight (w : Word) (s : State) : State := accept w s

/-- The state with this write to the register next to arrive. -/
def writing (r : WindowReg) (v : Word) (s : State) : State := withArrivals [memWrite r v] s

/-! ## WellFormed refuses a term that breaks a check -/

theorem test_wellFormed_setKey : (Instr.setKey 255).wellFormed = true ∧ (Instr.setKey 256).wellFormed = false := by
  decide
theorem test_wellFormed_encrypt :
    (Instr.encrypt 255 255).wellFormed = true ∧ (Instr.encrypt 256 16).wellFormed = false ∧
      (Instr.encrypt 16 256).wellFormed = false := by decide
theorem test_wellFormed_decrypt :
    (Instr.decrypt 0 255).wellFormed = true ∧ (Instr.decrypt 256 16).wellFormed = false ∧
      (Instr.decrypt 16 256).wellFormed = false := by decide
theorem test_wellFormed_modeInitEcb :
    (Instr.modeInitEcb .decrypt 255 255).wellFormed = true ∧ (Instr.modeInitEcb .encrypt 256 0).wellFormed = false ∧
      (Instr.modeInitEcb .encrypt 0 256).wellFormed = false := by decide
theorem test_wellFormed_modeInitCbc :
    (Instr.modeInitCbc .encrypt 15 255).wellFormed = true ∧ (Instr.modeInitCbc .encrypt 256 0).wellFormed = false ∧
      (Instr.modeInitCbc .encrypt 16 256).wellFormed = false := by decide
theorem test_wellFormed_modeInitCtr :
    (Instr.modeInitCtr .encrypt 16 129).wellFormed = true ∧ (Instr.modeInitCtr .encrypt 256 8).wellFormed = false ∧
      (Instr.modeInitCtr .decrypt 16 256).wellFormed = false := by decide
theorem test_wellFormed_process :
    (Instr.process 17 16).wellFormed = true ∧ (Instr.process 256 16).wellFormed = false ∧
      (Instr.process 16 256).wellFormed = false := by decide

/-! ## Decoding: words written out from R80 (RSV1, LENB, LENA, RSV0 DIR MODE OP), and the rows of L2-DEC -/

theorem test_decode_setKey : decode 0b00000000000000000001100000000001#32 = .legal (.setKey 24) := by decide
theorem test_decode_encrypt : decode 0b00000000000100000000111100000010#32 = .legal (.encrypt 15 16) := by decide
theorem test_decode_decrypt : decode 0b00000000000011110001000000000011#32 = .legal (.decrypt 16 15) := by decide
theorem test_decode_modeInitEcb :
    decode 0b00000000111111111111111001000100#32 = .legal (.modeInitEcb .decrypt 254 255) := by decide
theorem test_decode_modeInitCbc :
    decode 0b00000000000000010001000000010100#32 = .legal (.modeInitCbc .encrypt 16 1) := by decide
theorem test_decode_modeInitCtr :
    decode 0b00000000100000000001000001100100#32 = .legal (.modeInitCtr .decrypt 16 128) := by decide
theorem test_decode_process : decode 0b00000000000100000001000000000101#32 = .legal (.process 16 16) := by decide
theorem test_decode_reserved_bits :
    decode 0x01001001#32 = .illegal .reservedBit ∧ decode 0x80101002#32 = .illegal .reservedBit ∧
      decode 0x00101082#32 = .illegal .reservedBit ∧ decode 0x00000084#32 = .illegal .reservedBit ∧
      decode 0x00100F85#32 = .illegal .reservedBit := by decide
theorem test_decode_unassigned_op :
    decode 0x00000000#32 = .illegal .unassignedOp ∧ decode 0x00000006#32 = .illegal .unassignedOp ∧
      decode 0x00000008#32 = .illegal .unassignedOp ∧ decode 0x0000000F#32 = .illegal .unassignedOp := by decide
theorem test_decode_field_not_zero :
    decode 0x00011001#32 = .illegal .fieldNotZero ∧ decode 0x00001011#32 = .illegal .fieldNotZero ∧
      decode 0x00001041#32 = .illegal .fieldNotZero ∧ decode 0x00101012#32 = .illegal .fieldNotZero ∧
      decode 0x00101042#32 = .illegal .fieldNotZero ∧ decode 0x00101025#32 = .illegal .fieldNotZero ∧
      decode 0x00101045#32 = .illegal .fieldNotZero := by decide
theorem test_decode_gcm :
    decode 0x00001034#32 = .illegal .gcmMode ∧ decode 0x00001074#32 = .illegal .gcmMode := by decide
theorem test_decodeTableWord :
    decodeTableWord 32 0x00101005 = some (.process 16 16) ∧ decodeTableWord 32 0x00001034 = none := by decide
theorem test_opcodeRows_mnemonics :
    (opcodeRows.map OpcodeRow.mnemonic) =
      ["SET_KEY", "ENCRYPT", "DECRYPT", "MODE_INIT.ECB", "MODE_INIT.CBC", "MODE_INIT.CTR", "PROCESS"] := by decide

/-! ## Field and S-box (L2-GF, L2-SB) -/

theorem test_xtime :
    xtime 0x57#8 = 0xAE#8 ∧ xtime 0x80#8 = 0x1B#8 ∧ xtime 0x8E#8 = 0x07#8 ∧ xtime 0xFF#8 = 0xE5#8 := by
  decide +kernel
theorem test_gmul :
    gmul 0x57#8 0x83#8 = 0xC1#8 ∧ gmul 0x57#8 0x13#8 = 0xFE#8 ∧ gmul 0xFF#8 0xFF#8 = 0x13#8 ∧
      gmul 0x02#8 0x87#8 = 0x15#8 := by decide +kernel
theorem test_gpow :
    gpow 0x02#8 8 = 0x1B#8 ∧ gpow 0x53#8 254 = 0xCA#8 ∧ gpow 0x00#8 0 = 0x01#8 ∧ gpow 0x03#8 255 = 0x01#8 := by
  decide +kernel
theorem test_ginv : ginv 0x00#8 = 0x00#8 ∧ ginv 0x02#8 = 0x8D#8 ∧ ginv 0xFF#8 = 0x1C#8 := by decide +kernel
theorem test_rotl8 : rotl8 0x80#8 1 = 0x01#8 ∧ rotl8 0x63#8 4 = 0x36#8 ∧ rotl8 0x01#8 3 = 0x08#8 := by decide +kernel
theorem test_sbox :
    sbox 0x00#8 = 0x63#8 ∧ sbox 0x53#8 = 0xED#8 ∧ sbox 0xFF#8 = 0x16#8 ∧ invSbox 0x00#8 = 0x52#8 ∧
      invSbox 0x16#8 = 0xFF#8 := by decide +kernel

/-! ## Key schedule (L2-KS) -/

theorem test_rcon : (List.range 10).map (fun j => rcon (j + 1)) =
    [0x01#8, 0x02#8, 0x04#8, 0x08#8, 0x10#8, 0x20#8, 0x40#8, 0x80#8, 0x1B#8, 0x36#8] := by decide +kernel

/-! ## Round steps (L2-RT) -/

theorem test_shiftRows :
    shiftRows (hexBlock 0x00010203#32 0x04050607#32 0x08090A0B#32 0x0C0D0E0F#32) =
        hexBlock 0x00050A0F#32 0x04090E03#32 0x080D0207#32 0x0C01060B#32 ∧
      invShiftRows (hexBlock 0x00010203#32 0x04050607#32 0x08090A0B#32 0x0C0D0E0F#32) =
        hexBlock 0x000D0A07#32 0x04010E0B#32 0x0805020F#32 0x0C090603#32 := by decide +kernel
theorem test_mixColumns :
    mixColumns (hexBlock 0xD4BF5D30#32 0xE0B452AE#32 0xB84111F1#32 0x1E2798E5#32) =
        hexBlock 0x046681E5#32 0xE0CB199A#32 0x48F8D37A#32 0x2806264C#32 ∧
      invMixColumns (hexBlock 0x046681E5#32 0xE0CB199A#32 0x48F8D37A#32 0x2806264C#32) =
        hexBlock 0xD4BF5D30#32 0xE0B452AE#32 0xB84111F1#32 0x1E2798E5#32 := by decide +kernel
theorem test_roundEnc :
    roundEnc (hexBlock 0x00102030#32 0x40506070#32 0x8090A0B0#32 0xC0D0E0F0#32)
        (hexBlock 0xD6AA74FD#32 0xD2AF72FA#32 0xDAA678F1#32 0xD6AB76FE#32) =
      hexBlock 0x89D810E8#32 0x855ACE68#32 0x2D1843D8#32 0xCB128FE4#32 := by decide +kernel
theorem test_roundDec :
    roundDec (hexBlock 0x7AD5FDA7#32 0x89EF4E27#32 0x2BCA100B#32 0x3D9FF59F#32)
        (hexBlock 0x13AA29BE#32 0x9C8FAFF6#32 0xF770F580#32 0x00F7BF03#32) =
      hexBlock 0x54D990A1#32 0x6BA09AB5#32 0x96BBF40E#32 0xA111702F#32 := by decide +kernel

/-! ## Counter (L2-CTR) -/

theorem test_ctrLoad :
    ctrLoad (Vector.replicate 16 0xFF#8) 127 = (Vector.replicate 16 0xFF#8).set 0 0x7F#8 ∧
      ctrLoad (Vector.replicate 16 0xAB#8) 9 = (Vector.replicate 16 0xAB#8).set 14 0x01#8 ∧
      ctrLoad (Vector.replicate 16 0xFF#8) 8 = Vector.replicate 16 0xFF#8 := by decide +kernel
theorem test_ctrInc :
    ctrInc (hexBlock 0#32 0#32 0#32 0x0000F0FF#32) 12 = hexBlock 0#32 0#32 0#32 0x0000F100#32 ∧
      ctrInc (hexBlock 0#32 0#32 0#32 0x0000FFFF#32) 12 = hexBlock 0#32 0#32 0#32 0x0000F000#32 ∧
      ctrInc (hexBlock 0#32 0#32 0#32 0x000000FF#32) 1 = hexBlock 0#32 0#32 0#32 0x000000FE#32 ∧
      ctrInc (Vector.replicate 16 0xFF#8) 127 = (Vector.replicate 16 0x00#8).set 0 0x80#8 := by decide +kernel

/-! ## Commands -/

/-- L1-7: STATUS and INFO after a SET_KEY that succeeds, and EK[1] of L2-KS-1. -/
theorem test_setKey_legal_length :
    nextMeets (fun t => decide (statusWord t = 0x00000102#32 ∧ infoWord t = 0x00800080#32 ∧ t.nr = .r10 ∧
      t.ek[1] = hexBlock 0xD6AA74FD#32 0xD2AF72FA#32 0xDAA678F1#32 0xD6AB76FE#32)) (exec (.setKey 16) latchedKey) =
      true := by decide +kernel

/-- L1-7: a failed SET_KEY from a Ready state. -/
theorem test_setKey_bad_length :
    nextMeets (fun t => decide (statusWord t = 0x00000226#32 ∧ infoWord t = 0x00800000#32))
      (exec (.setKey 17) (ready .cbc .decrypt 0#8)) = true := by decide +kernel

/-- L2-CMD: ENCRYPT 15,16 with no key: BLOCK_SIZE wins. -/
theorem test_encrypt_block_size_first :
    nextMeets (fun t => decide (statusWord t = 0x00000046#32)) (exec (.encrypt 15 16) State.reset) = true := by
  decide +kernel

/-- L2-CMD: DECRYPT with no key. -/
theorem test_decrypt_no_key :
    nextMeets (fun t => decide (statusWord t = 0x00000036#32 ∧ t.dout = State.reset.dout))
      (exec (.decrypt 16 16) State.reset) = true := by decide +kernel

/-- L2-DEC: MODE_INIT.ECB DEC keeps CV and ignores its lengths. -/
theorem test_modeInitEcb :
    nextMeets (fun t => decide (statusWord t = 0x00000702#32 ∧ modecfgWord t = 0x00000004#32 ∧ t.cv = plain))
      (exec (.modeInitEcb .decrypt 255 3) { ready .ctr .encrypt 9#8 with cv := plain, liv := cipherText }) = true := by
  decide +kernel

/-- L2-DEC: MODE_INIT.CBC DEC 16. -/
theorem test_modeInitCbc :
    nextMeets (fun t => decide (statusWord t = 0x00000702#32 ∧ modecfgWord t = 0x00000005#32 ∧ t.cv = cipherText))
      (exec (.modeInitCbc .decrypt 16 255) { ready .ctr .encrypt 9#8 with cv := plain, liv := cipherText }) = true := by
  decide +kernel

/-- L2-DEC: MODE_INIT.CBC with ivlen 17. -/
theorem test_modeInitCbc_iv_length :
    nextMeets (fun t => decide (statusWord t = 0x00000156#32 ∧ modecfgWord t = 0x00000000#32))
      (exec (.modeInitCbc .decrypt 17 0) (ready .ecb .encrypt 0#8)) = true := by decide +kernel

/-- L1-3: the load for m = 1. -/
theorem test_modeInitCtr :
    nextMeets (fun t => decide (modecfgWord t = 0x00000102#32 ∧
      t.cv = hexBlock 0x00010203#32 0x04050607#32 0x08090A0B#32 0x0C0D0E01#32))
      (exec (.modeInitCtr .encrypt 16 1)
        { ready .ecb .encrypt 0#8 with liv := hexBlock 0x00010203#32 0x04050607#32 0x08090A0B#32 0x0C0D0EFF#32 }) =
      true := by decide +kernel

/-- L2-DEC: m = 129 fails with CTR_WIDTH, and ivlen 0 with m = 0 with IV_LENGTH. -/
theorem test_modeInitCtr_checks :
    nextMeets (fun t => decide (statusWord t = 0x00000166#32))
        (exec (.modeInitCtr .encrypt 16 129) (ready .ecb .encrypt 0#8)) = true ∧
      nextMeets (fun t => decide (statusWord t = 0x00000156#32))
        (exec (.modeInitCtr .encrypt 0 0) (ready .ecb .encrypt 0#8)) = true := by decide +kernel

/-- L2-ERR: the order of PROCESS's checks. -/
theorem test_process_checks :
    nextMeets (fun t => decide (statusWord t = 0x00000076#32)) (exec (.process 15 16) State.reset) = true ∧
      nextMeets (fun t => decide (statusWord t = 0x00000246#32))
        (exec (.process 15 16) { ready .ecb .encrypt 0#8 with keyValid := false }) = true ∧
      nextMeets (fun t => decide (statusWord t = 0x00000236#32))
        (exec (.process 16 16) { ready .ecb .encrypt 0#8 with keyValid := false }) = true := by decide +kernel

/-- L2-DEC: an ILLEGAL word from a Ready state. -/
theorem test_illegal_word :
    nextMeets (fun t => decide (statusWord t = 0x00000716#32 ∧ t.done = true))
      (completeCommand (inFlight 0x00001034#32 (ready .ecb .encrypt 0#8))) = true := by decide +kernel

/-- The very next step runs the placed word. -/
theorem test_withFetchWord :
    nextMeets (fun t => decide (statusWord t = 0x00000236#32 ∧ t.arrivals = []))
      (step (({ ready .ecb .encrypt 0#8 with keyValid := false } : State).withFetchWord 32 0x00101005)) = true := by
  decide +kernel

/-- R290, R29: reads after reset. -/
theorem test_reset_reads :
    readReg .info State.reset = 0x00800000#32 ∧ readReg .status State.reset = 0#32 ∧
      readReg (.key 0) (writeReg (.key 0) 0x12345678#32 State.reset) = 0#32 ∧
      readReg (.iv 0) (writeReg (.iv 0) 0x12345678#32 State.reset) = 0x12345678#32 ∧
      writeReg (.cv 1) 0x12345678#32 State.reset = State.reset := by decide +kernel

/-- R22: a few offsets of the window's table. -/
theorem test_regAt :
    regAt 0x00 = .cmd ∧ regAt 0x0C = .modecfg ∧ regAt 0x2C = .key 7 ∧ regAt 0x3C = .iv 3 ∧ regAt 0x40 = .din 0 ∧
      regAt 0x5C = .dout 3 ∧ regAt 0x60 = .cv 0 ∧ regAt 0xFC = .reserved 35 := by decide

/-- R88, R89: the words that the assembler writes. -/
theorem test_asmWord :
    asmWord (.modeInitCtr 12) = 0x000C1024#32 ∧ asmWord (.process 16 15) = 0x000F1005#32 ∧
      asmWord (.modeInitCbc .decrypt) = 0x00001054#32 ∧ asmWord (.setKey 32) = 0x00002001#32 := by decide

/-! ## What the witnesses use -/

/-- Every completion answers a next state. -/
theorem exec_next (i : Instr) (s : State) : ∃ t, exec i s = .next t := (exec_ran i s).imp fun _ h => h.1

theorem completeCommand_next (s : State) : ∃ t, completeCommand s = .next t :=
  (completeCommand_cases s).imp fun _ h => h.1

/-- InvMixColumns of the zero block is the zero block. -/
theorem invMixColumns_zero : invMixColumns (Vector.replicate 16 0x00#8) = Vector.replicate 16 0x00#8 := by
  decide +kernel

/-- A valid key store of zero round keys is consistent. -/
theorem ready_keyStoreOk (mode : Mode) (dir : Dir) (m : BitVec 8) : keyStoreOk (ready mode dir m) := by
  intro _
  refine ⟨rfl, by simp [ready, State.reset, lastKey], fun r _ _ => ?_⟩
  simp [ready, State.reset, invMixColumns_zero]

/-- What SET_KEY loads meets the invariant, in a machine whose mode state does. -/
theorem loadKey_inv (n : Rounds) (s : State) (hm : modeStateOk s) : Inv (completeSuccess (loadKey n s)) where
  keyStore := by
    intro _
    have hn : roundCount n ≠ 0 := by cases n <;> decide
    refine ⟨by simp [decryptionKeys], by simp [decryptionKeys, lastKey], fun r h1 h2 => ?_⟩
    have h2' : r.val < roundCount n := by simpa using h2
    have h0 : ¬(r.val = 0 ∨ r.val = roundCount n) := by omega
    simp only [completeSuccess_dk, completeSuccess_ek, loadKey_dk, loadKey_ek, decryptionKeys, Fin.getElem_fin,
      Vector.getElem_ofFn, h0, h2', if_true, if_false]
  keySchedule := by
    intro _
    refine ⟨s.lkey, fun r h => ?_⟩
    have h' : r.val ≤ roundCount n := by simpa using h
    simp [encryptionKeys, h']
  keyBits := by
    cases n <;> simp [keyBitsOk, keyWordCount, roundCount]
  modeState := by simpa [modeStateOk] using hm
  commandState := by simp [commandStateOk]

/-- A supported write next to arrive. -/
theorem writeNext_writing (r : WindowReg) (v : Word) (s : State) : WriteNext r v [] (writing r v s) := by
  simp [WriteNext, writing, memWrite, withArrivals]

theorem cmdWriteNext_writing (v : Word) (s : State) : CmdWriteNext v [] (writing .cmd v s) :=
  ⟨_, rfl, (isCmdWrite_iff _).2 ⟨rfl, by simp [regOffset], v, rfl⟩, rfl⟩

/-- A command in flight with nothing else to arrive completes in the next step. -/
theorem step_idle {s : State} {i : Instr} (ha : s.arrivals = []) (hb : s.busy = true) (hd : decode s.lcmd = .legal i) :
    step s = exec i s := by
  simp [step, portStep, ha, engineTurn, hb, completeCommand, hd]

/-- A command in flight in a machine where nothing has arrived. -/
theorem step_inFlight (s : State) (w : Word) (i : Instr) (ha : s.arrivals = []) (hd : decode w = .legal i) :
    step (inFlight w s) = exec i (inFlight w s) :=
  step_idle (by simp [inFlight, ha]) (by simp [inFlight]) (by simpa [inFlight] using hd)

/-- A reset that clears a DOUT, a CV and a mode. -/
def dirty : State := withArrivals [.reset] { ready .cbc .decrypt 0#8 with dout := plain, cv := cipherText }

/-- One step loads a key. -/
theorem step_keyLoad :
    step (inFlight 0x00001001#32 State.reset) =
      .next (completeSuccess (loadKey .r10 (inFlight 0x00001001#32 State.reset))) := by
  rw [step_inFlight _ _ (.setKey 16) rfl (by decide)]
  simp [exec, execSetKey, roundsOfKeyLength]

/-- The machine before a MODE_INIT.CTR 8 with a staged IV. -/
def withIv : State := { State.reset with iv := #v[0x00010203#32, 0#32, 0#32, 0x0C0D0EFF#32] }

/-- One step configures CTR. -/
theorem step_ctrInit :
    step (inFlight 0x00081024#32 withIv) =
      .next (completeSuccess (setCv (ctrLoad (inFlight 0x00081024#32 withIv).liv 8)
        (configureMode .ctr .encrypt 8 (inFlight 0x00081024#32 withIv)))) := by
  rw [step_inFlight _ _ (.modeInitCtr .encrypt 16 8) rfl (by decide)]
  simp [exec, execModeInitCtr, blockBytes]

/-- A reset that clears a DOUT, a CV and a mode. -/
theorem step_dirty : step dirty = .next (resetEvent (withArrivals [] dirty)) := rfl

/-! ## Witnesses, in the order of the statements -/

theorem witness_FieldLawsOfGmul :
    (0x01#8 : Byte) ≠ 0x00#8 ∧ (0xFF#8 : Byte) ≠ 0x00#8 ∧ gmul 0xFF#8 (ginv 0xFF#8) = 0x01#8 := by decide +kernel

/-- Every clause's range of word numbers, and the key of the examples. -/
theorem witness_KeyExpansionRecurrence :
    (0 < scheduleLength .r10 ∧ 0 < keyWordCount .r10) ∧ (59 < scheduleLength .r14 ∧ keyWordCount .r14 ≤ 59) ∧
      (keyWordCount .r12 ≤ 6 ∧ 6 % keyWordCount .r12 = 0) ∧
      (keyWordCount .r14 ≤ 12 ∧ keyWordCount .r14 > 6 ∧ 12 % keyWordCount .r14 = 4) ∧
      ∀ i : Fin 16, key128[i.val] = BitVec.ofNat 8 i.val := by decide +kernel

theorem witness_SetKeyLoadsTheSchedule :
    (∃ n keylen, (n = Rounds.r10 ∧ keylen = 16 ∨ n = .r12 ∧ keylen = 24 ∨ n = .r14 ∧ keylen = 32) ∧ n = .r14) ∧
      4 * (10 : Fin 15).val + (3 : Fin 4).val < scheduleLength .r10 ∧
      4 * (14 : Fin 15).val + (3 : Fin 4).val < scheduleLength .r14 ∧ (9 : Fin 15).val < roundCount .r10 :=
  ⟨⟨.r14, 32, by decide, rfl⟩, by decide, by decide, by decide⟩

theorem witness_SetKeyIgnoresBytesPastItsLength :
    (∀ i : Fin 32, i.val < 16 → key256[i] = latchedKey.lkey[i]) ∧ key256 ≠ latchedKey.lkey ∧
      ∃ t, exec (.setKey 16) latchedKey = .next t :=
  ⟨by decide +kernel, by decide +kernel, exec_next _ _⟩

theorem witness_BadKeyLengthInvalidatesTheKey :
    (15 ≠ 16 ∧ 15 ≠ 24 ∧ 15 ≠ 32 ∧ 17 ≠ 16 ∧ 17 ≠ 24 ∧ 17 ≠ 32) ∧
      (∃ s : State, s.keyValid = false ∧ s.modeParamsOk = true) ∧
      ∃ s t : State, s.keyValid = false ∧ step s = .next t ∧ t.keyValid = true :=
  ⟨by decide, ⟨{ ready .ecb .encrypt 0#8 with keyValid := false }, rfl, rfl⟩,
    _, _, by simp [inFlight, State.reset], step_keyLoad, by simp⟩

theorem witness_SetKeyKeepsTheModeState :
    (∃ t, exec (.setKey 17) State.reset = .next t ∧ t.fail = true) ∧
      ∃ t, exec (.setKey 24) State.reset = .next t ∧ t.fail = false :=
  ⟨⟨_, rfl, by simp⟩, ⟨_, rfl, by simp⟩⟩

theorem witness_EquivalentDecryptionFormulations :
    ∃ s : State, s.keyValid = true ∧ keyStoreOk s ∧ s.nr = .r14 :=
  ⟨completeSuccess (loadKey .r14 State.reset), by simp, (loadKey_inv _ _ (by unfold modeStateOk; decide)).keyStore, by simp⟩

theorem witness_CipherRoundTripForEveryKey : ∃ keylen, (keylen = 16 ∨ keylen = 24 ∨ keylen = 32) ∧ keylen = 24 :=
  ⟨24, by decide, rfl⟩

/-- Each clause of ENCRYPT and DECRYPT. -/
theorem witness_EncryptResult_DecryptResult :
    ¬(15 = 16 ∧ 16 = 16) ∧ ¬(16 = 16 ∧ 17 = 16) ∧ State.reset.keyValid = false ∧
      (ready .ecb .encrypt 0#8).keyValid = true := by decide

theorem witness_DecryptUndoesEncrypt : ∃ s : State, s.keyValid = true ∧ keyStoreOk s ∧ s.ldin = plain :=
  ⟨{ ready .ecb .encrypt 0#8 with ldin := plain }, rfl, ready_keyStoreOk .ecb .encrypt 0#8, rfl⟩

theorem witness_BlockCommandsIgnoreTheModeState :
    ∃ i : Instr, (i = .encrypt 16 16 ∨ i = .decrypt 16 16) ∧ i = .decrypt 16 16 := ⟨_, .inr rfl, rfl⟩

/-- The boundary lengths and widths of MODE_INIT. -/
theorem witness_ModeInitCbcResult_ModeInitCtrResult :
    (16 = 16 ∧ 1 ≤ 1 ∧ 1 ≤ 128) ∧ (1 ≤ 128 ∧ 128 ≤ 128) ∧ (0 < 1 ∨ 128 < 0) ∧ (129 < 1 ∨ 128 < 129) ∧ 15 ≠ 16 := by
  decide

theorem witness_FailedModeInitClearsOnlyParamsOk :
    (∃ t, exec (.modeInitCbc .encrypt 15 0) (ready .cbc .encrypt 0#8) = .next t ∧ t.fail = true) ∧
      (∃ t, exec (.modeInitCtr .encrypt 16 129) (ready .cbc .encrypt 0#8) = .next t ∧ t.fail = true) ∧
      (∃ s t : State, s.modeParamsOk = false ∧ step s = .next t ∧ t.modeParamsOk = true) ∧
      ∃ (s : State) (why : IllegalCause), decode s.lcmd = .illegal why :=
  ⟨⟨_, rfl, by simp⟩, ⟨_, rfl, by simp⟩, ⟨_, _, rfl, step_ctrInit, by simp⟩, ⟨State.reset, .unassignedOp, by decide⟩⟩

theorem witness_CounterLoad_CounterIncrement :
    (1 ≤ 1 ∧ 1 ≤ 128) ∧ (1 ≤ 128 ∧ 128 ≤ 128 ∧ 128 % 8 = 0) ∧ (0 < 1 ∧ 1 < 2 ^ 1) ∧ (0 < 255 ∧ 255 < 2 ^ 8) := by
  decide

/-- A Ready state in each mode and direction, and the states of each failure. -/
theorem witness_ProcessResult_MessageFormulas :
    (∀ (m : Mode) (d : Dir), (ready m d 8#8).modeParamsOk = true ∧ (ready m d 8#8).keyValid = true ∧
      (ready m d 8#8).mode = m ∧ (ready m d 8#8).dir = d) ∧
      State.reset.modeParamsOk = false ∧ ¬(16 = 16 ∧ 15 = 16) ∧
      ∃ s : State, s.modeParamsOk = true ∧ s.keyValid = false :=
  ⟨fun _ _ => ⟨rfl, rfl, rfl, rfl⟩, rfl, by decide, { ready .ecb .encrypt 0#8 with keyValid := false }, rfl, rfl⟩

theorem witness_MessageRoundTripInEveryMode :
    ∃ (s : State) (we wd : Word), s.keyValid = true ∧ keyStoreOk s ∧ we = encode (.modeInitCtr .encrypt 16 128) ∧
      wd = encode (.modeInitCtr .decrypt 16 128) :=
  ⟨ready .ecb .encrypt 0#8, _, _, rfl, ready_keyStoreOk _ _ _, rfl, rfl⟩

theorem witness_CounterExhaustionIsSilent :
    ∃ (s : State) (xs : List Block), s.modeParamsOk = true ∧ s.keyValid = true ∧ s.mode = .ctr ∧ modeStateOk s ∧
      xs.length = 2 ^ s.ctrM.toNat :=
  ⟨ready .ctr .encrypt 1#8, [plain, cipherText], rfl, rfl, rfl, by unfold modeStateOk; decide, by decide⟩

theorem witness_DecodeAndEncodeAgree :
    (Instr.modeInitCtr .decrypt 255 255).wellFormed = true ∧
      decode 0x00FFFF64#32 = .legal (.modeInitCtr .decrypt 255 255) := by decide

theorem witness_OpcodeMapIsTheDecoder :
    (⟨"PROCESS", 0x00000005#32, 0xFF0000FF#32⟩ : OpcodeRow) ∈ opcodeRows ∧
      (⟨"PROCESS", 0x00000005#32, 0xFF0000FF#32⟩ : OpcodeRow).covers 0x00101005#32 = true := by decide

/-- A word for each clause, a CMD write that is accepted, and an ILLEGAL command in flight. -/
theorem witness_IllegalWordsFailAndChangeNothing :
    (opField 0x00000000#32).toNat = 0 ∧ 6 ≤ (opField 0x00000006#32).toNat ∧
      ((opField 0x00001034#32).toNat = 4 ∧ (modeField 0x00001034#32).toNat = 3) ∧ rsv0Field 0x00000084#32 = true ∧
      rsv1Field 0x80101002#32 ≠ 0#8 ∧
      (∃ s : State, s.busy = false ∧ CmdWriteNext 0x00001034#32 [] s) ∧
      decode (inFlight 0x00001034#32 State.reset).lcmd = .illegal .gcmMode :=
  ⟨by decide, by decide, by decide, by decide, by decide,
    ⟨writing .cmd 0x00001034#32 State.reset, rfl, cmdWriteNext_writing _ _⟩, by decide⟩

theorem witness_AssemblerWritesTheEncoding : 0 < 256 ∧ 255 < 256 := by decide

theorem witness_StagingPseudoInstructionsLoadTheirBytes :
    (15 < 4 * keyWordCount .r10 ∧ keyWordCount .r10 ≤ 4) ∧ 31 < 4 * keyWordCount .r14 ∧
      (23 < 4 * keyWordCount .r12 ∧ keyWordCount .r12 ≤ 6) := by decide

theorem witness_WindowMapIsOneToOne :
    regOffset (.reserved 35) = 0xFC ∧ regOffset .cmd = 0 ∧ (0xFC : Fin 256).val % 4 = 0 := by decide

/-- A step that writes DOUT by a reset, and completions that succeed. -/
theorem witness_OnlyBlockCommandsWriteDout :
    (∃ s t : State, step s = .next t ∧ t.dout ≠ s.dout) ∧
      (∃ t, exec (.encrypt 16 16) (ready .ecb .encrypt 0#8) = .next t ∧ t.fail = false) ∧
      (∃ t, exec (.decrypt 16 16) (ready .ecb .encrypt 0#8) = .next t ∧ t.fail = false) ∧
      ∃ t, exec (.process 16 16) (ready .ecb .encrypt 0#8) = .next t ∧ t.fail = false :=
  ⟨⟨dirty, _, step_dirty, by decide +kernel⟩, ⟨_, rfl, by simp⟩, ⟨_, rfl, by simp⟩, ⟨_, rfl, by simp⟩⟩

theorem witness_OnlyModeCommandsWriteCv : ∃ s t : State, step s = .next t ∧ t.cv ≠ s.cv :=
  ⟨_, _, step_ctrInit, by decide +kernel⟩

theorem witness_OnlySetKeyWritesTheKeyStore :
    ∃ s t : State, keyStoreOk s ∧ step s = .next t ∧
      ¬(t.keyValid = s.keyValid ∧ t.keyBits = s.keyBits ∧ t.nr = s.nr ∧ t.ek = s.ek ∧ t.dk = s.dk) :=
  ⟨_, _, by simp [keyStoreOk, inFlight, State.reset], step_keyLoad, by simp [inFlight, State.reset]⟩

theorem witness_ModecfgRegister :
    ∃ s t : State, modeStateOk s ∧ step s = .next t ∧ ¬(t.mode = s.mode ∧ t.dir = s.dir ∧ t.ctrM = s.ctrM) :=
  ⟨_, _, by unfold modeStateOk; decide +kernel, step_ctrInit, by decide +kernel⟩

theorem witness_StatusRegister :
    ∃ s t : State, step s = .next t ∧
      ¬(t.busy = s.busy ∧ t.done = s.done ∧ t.fail = s.fail ∧ t.err = s.err) ∧
      ¬(t.keyValid = s.keyValid ∧ t.modeParamsOk = s.modeParamsOk) :=
  ⟨_, _, step_keyLoad, by simp [inFlight], by simp [inFlight, State.reset]⟩

theorem witness_InfoRegister : Inv (completeSuccess (loadKey .r12 State.reset)) := loadKey_inv _ _ (by unfold modeStateOk; decide)

theorem witness_BusReadReturnsTheRegister : (0x70 ≤ 0x70 ∧ 0x70 % 4 = 0) ∧ 0xFC ≤ 0xFC ∧ 0xFC % 4 = 0 := by decide

/-- The boundary offsets of the window that ignore a write, and both values of BUSY. -/
theorem witness_BusWriteChangesOnlyItsRegister :
    (0x04 % 4 = 0 ∧ 0x0C % 4 = 0 ∧ 0x50 % 4 = 0 ∧ 0xFC % 4 = 0) ∧ State.reset.busy = false ∧
      (inFlight 0x00001001#32 State.reset).busy = true := by decide

theorem witness_OnlyHostWritesChangeStaging :
    (∃ s t : State, step s = .next t ∧ ¬(t.key = s.key ∧ t.iv = s.iv ∧ t.din = s.din)) ∧
      (∃ s, WriteNext (.iv 3) 0x12345678#32 [] s) ∧ ∃ s, WriteNext (.din 0) 0x12345678#32 [] s :=
  ⟨⟨withArrivals [.reset] withIv, _, rfl, by decide +kernel⟩, ⟨_, writeNext_writing _ _ State.reset⟩,
    ⟨_, writeNext_writing _ _ State.reset⟩⟩

/-- A width, a misaligned address and an address past the end; no address lies below a window at 0, so that half of
the last clause needs none. -/
theorem witness_UnsupportedAccessesStop :
    (∃ a : Access, Config.baseAddr ≤ a.addr ∧ a.addr < Config.baseAddr + 0x100 ∧ a.size ≠ 4) ∧
      (∃ a : Access, Config.baseAddr ≤ a.addr ∧ a.addr < Config.baseAddr + 0x100 ∧ a.addr % 4 ≠ 0) ∧
      ∃ a : Access, Config.baseAddr + 0x100 ≤ a.addr := by
  have h := baseAddr_mod_four
  exact ⟨⟨⟨Config.baseAddr, 2, .read⟩, by simp, by simp, by simp⟩,
    ⟨⟨Config.baseAddr + 0xFF, 4, .read⟩, by simp, by simp, by simp only; omega⟩,
    ⟨⟨Config.baseAddr + 0x100, 4, .read⟩, by simp⟩⟩

/-- Two states that differ in what the spec leaves unspecified. -/
theorem witness_UnspecifiedValuesAreUnobservable :
    Alike { State.reset with nr := .r14, lcmd := 0x00001001#32, draws := 5 } State.reset ∧
      { State.reset with nr := .r14, lcmd := 0x00001001#32, draws := 5 } ≠ State.reset := by
  refine ⟨?_, fun h => absurd (congrArg State.draws h) (by decide)⟩
  constructor <;> first | rfl | simp [State.reset]

theorem witness_EveryCommandEndsInOneResult : ∃ s t : State, s.busy = false ∧ step s = .next t :=
  ⟨State.reset, _, rfl, rfl⟩

theorem witness_FirstFailingCheckIsReported :
    (∃ s : State, s.lcmd = 0x00100F05#32 ∧ s.keyValid = false ∧ s.modeParamsOk = true) ∧
      ∃ s : State, decode s.lcmd = .legal (.process 15 16) ∧ s.modeParamsOk = false :=
  ⟨⟨{ ready .ecb .encrypt 0#8 with lcmd := 0x00100F05#32, keyValid := false }, rfl, rfl, rfl⟩,
    { State.reset with lcmd := 0x00100F05#32 }, by decide, rfl⟩

/-- A failure of each kind. -/
theorem witness_FailuresAreAtomic :
    (∃ t, completeCommand (inFlight 0x00001101#32 State.reset) = .next t ∧ t.fail = true) ∧
      (∃ t, completeCommand (inFlight 0x00001114#32 State.reset) = .next t ∧ t.fail = true) ∧
      ∃ t, completeCommand (inFlight 0x00101005#32 State.reset) = .next t ∧ t.fail = true :=
  ⟨⟨_, rfl, rfl⟩, ⟨_, rfl, rfl⟩, ⟨_, rfl, rfl⟩⟩

theorem witness_ResetAbandonsTheCommand :
    ∃ s : State, s.arrivals = .reset :: [] ∧ s.busy = true := ⟨withArrivals [.reset] (inFlight 0#32 State.reset), rfl, rfl⟩

theorem witness_AcceptanceLatchesEverything : ∃ s : State, s.busy = false ∧ CmdWriteNext 0x00001001#32 [] s :=
  ⟨_, rfl, cmdWriteNext_writing _ State.reset⟩

theorem witness_HeldWriteIsAcceptedAfterCompletion :
    ∃ s : State, s.busy = true ∧ CmdWriteNext 0x00101005#32 [] s :=
  ⟨_, rfl, cmdWriteNext_writing _ (inFlight 0x00001001#32 State.reset)⟩

theorem witness_StagingWritesDoNotTouchTheCommand :
    isStaging (.key 7) = true ∧ isStaging (.iv 0) = true ∧ isStaging (.din 3) = true ∧
      ∃ t, completeCommand (inFlight 0x00101002#32 State.reset) = .next t :=
  ⟨rfl, rfl, rfl, completeCommand_next _⟩

/-- A step while BUSY = 1 that is no completion, and a consistent command state with BUSY = 1. -/
theorem witness_ReadsWhileBusyAreStale :
    (∃ s t : State, s.busy = true ∧ step s = .next t ∧ t.busy = true) ∧
      ∃ s : State, commandStateOk s ∧ s.busy = true := by
  have hw := windowOffset_base_add (regOffset (.din 0)) (regOffset_lt _)
  have ha := accessAligned_base_add (regOffset (.din 0)) (.write 0x12345678#32) (regOffset_mod_four _)
  have hr : regAt ⟨regOffset (.din 0), regOffset_lt _⟩ = .din 0 := by decide
  refine ⟨⟨writing (.din 0) 0x12345678#32 (inFlight 0x00001001#32 State.reset),
    { writing (.din 0) 0x12345678#32 (inFlight 0x00001001#32 State.reset) with
      din := State.reset.din.set 0 0x12345678#32, arrivals := [], answer := .written }, rfl, ?_, rfl⟩,
    inFlight 0x00001001#32 State.reset, by unfold commandStateOk; decide, rfl⟩
  have hh : isCmdWrite { addr := Config.baseAddr + regOffset (.din 0), size := 4, op := .write 0x12345678#32 } =
      false := by
    unfold isCmdWrite
    simp only [hw]
    simp [regOffset]
  simp [step, portStep, writing, memWrite, heldAccess, hh, busAccess, hw, ha, hr, writeReg, withArrivals, inFlight,
    accept]

/-- The three ways to the engine's turn, and a word that decodes. -/
theorem witness_StepRunsTheDecodedCommand :
    (∃ s : State, s.busy = true ∧ decode s.lcmd = .legal (.setKey 16) ∧ s.arrivals = []) ∧
      (∃ s : State, s.busy = true ∧ decode s.lcmd = .legal (.setKey 16) ∧ s.arrivals = .engine :: []) ∧
      (∃ s : State, s.busy = true ∧ decode s.lcmd = .legal (.setKey 16) ∧ CmdWriteNext 0x00101005#32 [] s) ∧
      decode 0x00101005#32 = .legal (.process 16 16) :=
  ⟨⟨inFlight 0x00001001#32 State.reset, rfl, by decide, rfl⟩,
    ⟨withArrivals [.engine] (inFlight 0x00001001#32 State.reset), rfl, by decide, rfl⟩,
    ⟨_, rfl, by decide, cmdWriteNext_writing _ (inFlight 0x00001001#32 State.reset)⟩, by decide⟩

theorem witness_EngineNeverHangs :
    ∃ s : State, cleanArrivals s = true ∧ s.busy = true ∧ s.arrivals = memWrite .cmd 0x00101005#32 :: [.engine, .reset] := by
  refine ⟨withArrivals (memWrite .cmd 0x00101005#32 :: [.engine, .reset]) (inFlight 0x00001001#32 State.reset), ?_, rfl,
    rfl⟩
  have ha := accessAligned_base_add (regOffset .cmd) (.write 0x00101005#32) (regOffset_mod_four .cmd)
  have hw := windowOffset_base_add (regOffset .cmd) (regOffset_lt .cmd)
  simp [cleanArrivals, cleanEvent, memWrite, ha, hw]

theorem witness_EveryStepKeepsTheInvariant :
    ∃ s t : State, Inv s ∧ s.keyValid = true ∧ step s = .next t :=
  ⟨withArrivals [.reset] (completeSuccess (loadKey .r12 withIv)), _,
    by
      obtain ⟨a, b, c, d, e⟩ := loadKey_inv .r12 withIv (by unfold modeStateOk; decide)
      exact ⟨a, b, c, d, e⟩,
    rfl, rfl⟩

/-! ## Whole schedules and whole blocks (L2-KS, L1-1, L1-4)

The kernel takes seconds for each. -/

/-- L1-1. -/
theorem test_encrypt_known_answer :
    nextMeets (fun t => decide (t.dout = cipherText ∧ statusWord t = 0x00000102#32))
      (exec (.encrypt 16 16) (keyed plain)) = true := by decide +kernel

/-- L1-1, backwards. -/
theorem test_decrypt_known_answer :
    nextMeets (fun t => decide (t.dout = plain)) (exec (.decrypt 16 16) (keyed cipherText)) = true := by decide +kernel

/-- L1-4: the second block of the CBC decryption: DIN = C2, CV = C1. -/
theorem test_process_cbc_decrypt :
    nextMeets (fun t => decide (t.dout = plain ∧ t.cv = hexBlock 0x7D7786BE#32 0x32D059A6#32 0x0CA8021A#32 0x65DD9F09#32))
      (exec (.process 16 16)
        { keyed (hexBlock 0x7D7786BE#32 0x32D059A6#32 0x0CA8021A#32 0x65DD9F09#32) with
          modeParamsOk := true, mode := .cbc, dir := .decrypt, cv := cipherText }) = true := by decide +kernel

theorem test_keyExpansion_128 :
    (keyExpansion .r10 key128)[43] = #v[0x4D#8, 0x2B#8, 0x30#8, 0xC5#8] := by decide +kernel

theorem test_keyExpansion_192 :
    (keyExpansion .r12 key256)[51] = #v[0xE3#8, 0xA4#8, 0x1D#8, 0x5D#8] := by decide +kernel

theorem test_keyExpansion_256 :
    (keyExpansion .r14 key256)[59] = #v[0x6D#8, 0x68#8, 0xDE#8, 0x36#8] := by decide +kernel

end Sys2Proof.Tests
end

