-- ==== Sys2Proof/Proofs/StepKinds.lean ====
section
/-! What a step can be, as one inductive predicate, and the parts of the state that only a reset or the completion of
a command changes. -/

namespace Sys2Proof.Machine

/-! ## The answer of the bus -/

/-- The state with another answer of the bus. -/
def withAnswer (a : BusAnswer) (s : State) : State := { s with answer := a }

/-- A write to the window writes its register, and the bus answers. -/
theorem busAccess_write {a : Access} {off : Fin 256} {v : Word} (hw : windowOffset a.addr = some off)
    (ha : accessAligned a = true) (hop : a.op = .write v) (s : State) :
    busAccess a s = .next (withAnswer .written (writeReg (regAt off) v s)) := by
  simp [busAccess, hw, ha, hop, withAnswer]

/-! ## The window map -/

theorem regAt_regOffset (r : WindowReg) (h : regOffset r < 256) : regAt ⟨regOffset r, h⟩ = r := by
  cases r with
  | cmd => rfl
  | status => rfl
  | info => rfl
  | modecfg => rfl
  | _ j =>
    simp only [regOffset, regAt]
    grind

theorem regOffset_regAt (off : Fin 256) (h : off.val % 4 = 0) : regOffset (regAt off) = off.val := by
  unfold regAt
  split_ifs <;> simp only [regOffset] <;> omega

/-- The offset of a supported access is a multiple of 4. -/
theorem offset_mod_four {a : Access} {off : Fin 256} (hw : windowOffset a.addr = some off)
    (ha : accessAligned a = true) : off.val % 4 = 0 := by
  have haddr := addr_of_windowOffset hw
  have hbase := baseAddr_mod_four
  have hal := ((accessAligned_iff a).1 ha).2
  omega

/-- A supported write is a write to the register at its offset. -/
theorem writeNext_of_access {a : Access} {off : Fin 256} {v : Word} {rest : List PortEvent} {s : State}
    (harr : s.arrivals = .access a :: rest) (hw : windowOffset a.addr = some off) (ha : accessAligned a = true)
    (hop : a.op = .write v) : WriteNext (regAt off) v rest s := by
  have hoff := regOffset_regAt off (offset_mod_four hw ha)
  have haddr := addr_of_windowOffset hw
  have hsize := ((accessAligned_iff a).1 ha).1
  obtain ⟨addr, size, op⟩ := a
  simp only at hop haddr hsize
  subst hop haddr hsize
  rw [WriteNext, hoff, harr]

/-- A write to CMD at its offset is the supported write that can be held (R28, R295). -/
theorem cmdWriteNext_of_writeNext {v : Word} {rest : List PortEvent} {s : State} (h : WriteNext .cmd v rest s) :
    CmdWriteNext v rest s :=
  ⟨_, h, (isCmdWrite_iff _).2 ⟨rfl, by simp [regOffset], v, rfl⟩, rfl⟩

/-! ## The block commands -/

/-- The state a block command leaves: the failure of its checks, or its output in DOUT (R186, R187). -/
def blockResult (err : Option ErrCode) (out : Block) (s : State) : State :=
  match err with
  | some e => raiseFailure e s
  | none => completeSuccess (setDout out s)

theorem exec_encrypt (a b : Nat) (s : State) :
    exec (.encrypt a b) s = .next (blockResult (blockCommandError a b s) (cipher s.ek s.nr s.ldin) s) := by
  show execEncrypt a b s = _
  unfold execEncrypt
  cases blockCommandError a b s with
  | none => rfl
  | some e => rfl

theorem exec_decrypt (a b : Nat) (s : State) :
    exec (.decrypt a b) s = .next (blockResult (blockCommandError a b s) (invCipher s.dk s.nr s.ldin) s) := by
  show execDecrypt a b s = _
  unfold execDecrypt
  cases blockCommandError a b s with
  | none => rfl
  | some e => rfl

/-! ## The kinds of step -/

/-- What a step from s to t can be: a reset, the completion of a decoded command or of an ILLEGAL word, a write to a
register (to CMD only while BUSY = 0), or a step that changes nothing of the engine. -/
inductive Moved (s t : State) : Prop where
  | reset (rest : List PortEvent) (harr : s.arrivals = .reset :: rest) (ht : t = resetEvent (withArrivals rest s))
  | ran (es : List PortEvent) (i : Instr) (hc : Completes s t) (hd : decode s.lcmd = .legal i)
      (hr : Ran i (withArrivals es s) t)
  | illegal (es : List PortEvent) (hc : Completes s t) (ht : t = raiseFailure .illegal (withArrivals es s))
  | wrote (r : WindowReg) (v : Word) (rest : List PortEvent) (hw : WriteNext r v rest s)
      (hb : r = .cmd → s.busy = false) (ht : t = withAnswer .written (writeReg r v (withArrivals rest s)))
  | passed (es : List PortEvent) (ans : BusAnswer) (ht : t = withAnswer ans (withArrivals es s))

theorem moved_of_step {s t : State} (h : step s = .next t) : Moved s t := by
  rcases step_cases h with ⟨es, hb, hc⟩ | ⟨es, -, ht⟩ | ⟨rest, harr, ht⟩ | ⟨a, rest, off, -, -, -, -, ht⟩ |
    ⟨a, rest, off, v, harr, hheld, hw, ha, hop, ht⟩
  · have hcs : Completes s t := ⟨hb, es, hc⟩
    obtain ⟨u, hu, hcase⟩ := completeCommand_cases (withArrivals es s)
    rw [hc] at hu
    cases hu
    rcases hcase with ⟨i, hd, -, hr⟩ | ⟨-, ht⟩
    · exact .ran es i hcs hd hr
    · exact .illegal es hcs ht
  · exact .passed es s.answer ht
  · exact .reset rest harr ht
  · exact .passed rest _ ht
  · have hwn := writeNext_of_access harr hw ha hop
    refine .wrote (regAt off) v rest hwn (fun hcmd => ?_) ht
    obtain ⟨a', harr', hcw, -⟩ := cmdWriteNext_of_writeNext (hcmd ▸ hwn)
    rw [harr] at harr'
    cases harr'
    simpa [heldAccess, hcw] using hheld

/-! ## What stays the same -/

/-- The key store (R34) has the same values in t as in s. -/
structure SameKeyStore (s t : State) : Prop where
  keyValid : t.keyValid = s.keyValid
  keyBits : t.keyBits = s.keyBits
  nr : t.nr = s.nr
  ek : t.ek = s.ek
  dk : t.dk = s.dk

/-- The fields of MODECFG (R32) have the same values in t as in s. -/
structure SameModecfg (s t : State) : Prop where
  mode : t.mode = s.mode
  dir : t.dir = s.dir
  ctrM : t.ctrM = s.ctrM

/-- All that only a reset or the completion of a command changes has the same values in t as in s. -/
structure SameResults (s t : State) : Prop extends SameKeyStore s t, SameModecfg s t where
  dout : t.dout = s.dout
  cv : t.cv = s.cv
  modeParamsOk : t.modeParamsOk = s.modeParamsOk

/-- The key store does not depend on what is to arrive. -/
theorem SameKeyStore.of_withArrivals {es : List PortEvent} {s t : State} (h : SameKeyStore (withArrivals es s) t) :
    SameKeyStore s t :=
  ⟨h.keyValid, h.keyBits, h.nr, h.ek, h.dk⟩

/-- A write of the host to any register, CMD too, leaves the results as they are (R65). -/
theorem sameResults_write (r : WindowReg) (v : Word) (rest : List PortEvent) (s : State) :
    SameResults s (withAnswer .written (writeReg r v (withArrivals rest s))) := by
  cases r <;> exact ⟨⟨rfl, rfl, rfl, rfl, rfl⟩, ⟨rfl, rfl, rfl⟩, rfl, rfl, rfl⟩

/-- A step is a reset, or the completion of a decoded command, or leaves the key store, the mode state, DOUT and CV
as they are. -/
theorem step_reset_or_ran_or_same {s t : State} (h : step s = .next t) :
    (ResetNext s ∧ ∃ u, t = resetEvent u) ∨
    (Completes s t ∧ ∃ es i, decode s.lcmd = .legal i ∧ Ran i (withArrivals es s) t) ∨ SameResults s t := by
  cases moved_of_step h with
  | reset rest harr ht => exact .inl ⟨⟨rest, harr⟩, _, ht⟩
  | ran es i hc hd hr => exact .inr (.inl ⟨hc, es, i, hd, hr⟩)
  | illegal es hc ht => exact .inr (.inr (ht ▸ ⟨⟨rfl, rfl, rfl, rfl, rfl⟩, ⟨rfl, rfl, rfl⟩, rfl, rfl, rfl⟩))
  | wrote r v rest _ _ ht => exact .inr (.inr (ht ▸ sameResults_write r v rest s))
  | passed es ans ht => exact .inr (.inr (ht ▸ ⟨⟨rfl, rfl, rfl, rfl, rfl⟩, ⟨rfl, rfl, rfl⟩, rfl, rfl, rfl⟩))

/-! ## What each command changes -/

/-- Only a SET_KEY changes the key store: it invalidates it, or loads the schedule of LKEY (R148, R149). -/
theorem Ran.keyStore_cases {i : Instr} {s t : State} (h : Ran i s t) :
    (∃ keylen, i = .setKey keylen ∧
      ((t.keyValid = false ∧ t.keyBits = 0#16 ∧ t.fail = true) ∨ ∃ n, t = completeSuccess (loadKey n s))) ∨
    SameKeyStore s t := by
  cases h with
  | keyLoaded keylen n => exact .inl ⟨keylen, rfl, .inr ⟨n, rfl⟩⟩
  | keyRejected keylen => exact .inl ⟨keylen, rfl, .inl ⟨rfl, rfl, rfl⟩⟩
  | processed =>
    obtain ⟨d, c, hp⟩ := processBlock_shape s
    rw [hp]
    exact .inr (by constructor <;> simp)
  | _ => exact .inr (by constructor <;> simp)

/-- Only a successful MODE_INIT changes MODE, DIR and CTR_M, and it leaves a legal mode state (R211 to R213). -/
theorem Ran.modecfg_cases {i : Instr} {s t : State} (h : Ran i s t) :
    (t.fail = false ∧ isModeInit i = true ∧ modeStateOk t) ∨ SameModecfg s t := by
  cases h with
  | ecbConfigured => exact .inl ⟨rfl, rfl, by simp [modeStateOk]⟩
  | cbcConfigured => exact .inl ⟨rfl, rfl, by simp [modeStateOk]⟩
  | ctrConfigured d l m _ _ h1 h2 =>
    have hm : m % 256 = m := Nat.mod_eq_of_lt (by omega)
    exact .inl ⟨rfl, rfl, by simp [modeStateOk, hm, h1, h2]⟩
  | processed =>
    obtain ⟨d, c, hp⟩ := processBlock_shape s
    rw [hp]
    exact .inr (by constructor <;> simp)
  | _ => exact .inr (by constructor <;> simp)

/-- Only a successful block command changes DOUT (R26). -/
theorem Ran.blockCommand_of_dout_ne {i : Instr} {s t : State} (h : Ran i s t) (hne : t.dout ≠ s.dout) :
    t.fail = false ∧ isBlockCommand i = true := by
  cases h with
  | encrypted => exact ⟨rfl, rfl⟩
  | decrypted => exact ⟨rfl, rfl⟩
  | processed => exact ⟨rfl, rfl⟩
  | _ => simp at hne

/-- Only a successful MODE_INIT for CBC or CTR and a successful PROCESS in CBC or CTR change CV (R27). -/
theorem Ran.writesCv_of_cv_ne {i : Instr} {s t : State} (h : Ran i s t) (hne : t.cv ≠ s.cv) :
    t.fail = false ∧ writesCv s.mode i = true := by
  cases h with
  | cbcConfigured => exact ⟨rfl, rfl⟩
  | ctrConfigured => exact ⟨rfl, rfl⟩
  | processed =>
    have hmode : s.mode ≠ .ecb := fun hecb => hne (processBlock_ecb_cv s hecb)
    exact ⟨rfl, decide_eq_true hmode⟩
  | _ => simp at hne

end Sys2Proof.Machine
end

