-- ==== Sys2Proof/Proofs/Unobservable.lean ====
section
/-! States that agree wherever the spec gives a value step to outcomes that agree there (R20): each operation of the
model carries alike states to alike states. -/

namespace Sys2Proof.Machine

/-! ## The block functions read the round keys 0 to NR only -/

/-- Two key arrays agree at the indices 0 to NR. -/
def SameKeysUpTo (n : Rounds) (a b : Vector Block 15) : Prop :=
  ∀ r : Fin 15, r.val ≤ roundCount n → a[r] = b[r]

theorem SameKeysUpTo.first {n : Rounds} {a b : Vector Block 15} (h : SameKeysUpTo n a b) : a[0] = b[0] :=
  h 0 (Nat.zero_le _)

theorem SameKeysUpTo.last {n : Rounds} {a b : Vector Block 15} (h : SameKeysUpTo n a b) : lastKey a n = lastKey b n :=
  h ⟨roundCount n, roundCount_lt n⟩ le_rfl

theorem SameKeysUpTo.middle {n : Rounds} {a b : Vector Block 15} (h : SameKeysUpTo n a b) :
    middleKeys a n = middleKeys b n := by
  apply List.ext_getElem (by simp [length_middleKeys])
  intro i ha hb
  have hlen := length_middleKeys a n
  rw [getElem_middleKeys, getElem_middleKeys]
  exact h ⟨i + 1, by have := roundCount_lt n; omega⟩ (by simp only; omega)

theorem SameKeysUpTo.cipher {n : Rounds} {a b : Vector Block 15} (h : SameKeysUpTo n a b) (p : Block) :
    cipher a n p = cipher b n p := by
  simp only [Machine.cipher, h.first, h.middle, h.last]

theorem SameKeysUpTo.invCipher {n : Rounds} {a b : Vector Block 15} (h : SameKeysUpTo n a b) (c : Block) :
    invCipher a n c = invCipher b n c := by
  simp only [Machine.invCipher, h.first, h.middle, h.last]

/-! ## What SET_KEY loads is specified at the indices 0 to NR -/

theorem getElem_encryptionKeys (n : Rounds) (key : Vector Byte 32) (d : Nat) (r : Fin 15)
    (h : r.val ≤ roundCount n) : (encryptionKeys n key d)[r] = roundKeyBlock n (keyExpansion n key) r.val h := by
  simp [encryptionKeys, h]

theorem getElem_decryptionKeys_outer (n : Rounds) (ek : Vector Block 15) (d : Nat) (r : Fin 15)
    (h : r.val = 0 ∨ r.val = roundCount n) : (decryptionKeys n ek d)[r] = ek[r] := by
  simp only [decryptionKeys, Fin.getElem_fin, Vector.getElem_ofFn, h, if_true]

theorem getElem_decryptionKeys_middle (n : Rounds) (ek : Vector Block 15) (d : Nat) (r : Fin 15)
    (h1 : 1 ≤ r.val) (h2 : r.val < roundCount n) : (decryptionKeys n ek d)[r] = invMixColumns ek[r] := by
  have h0 : ¬(r.val = 0 ∨ r.val = roundCount n) := by omega
  simp only [decryptionKeys, Fin.getElem_fin, Vector.getElem_ofFn, h0, h2, if_true, if_false]

theorem sameKeysUpTo_encryptionKeys (n : Rounds) (key : Vector Byte 32) (d d' : Nat) :
    SameKeysUpTo n (encryptionKeys n key d) (encryptionKeys n key d') := by
  intro r hr
  rw [getElem_encryptionKeys n key d r hr, getElem_encryptionKeys n key d' r hr]

theorem SameKeysUpTo.decryptionKeys {n : Rounds} {a b : Vector Block 15} (h : SameKeysUpTo n a b) (d d' : Nat) :
    SameKeysUpTo n (decryptionKeys n a d) (decryptionKeys n b d') := by
  intro r hr
  by_cases ho : r.val = 0 ∨ r.val = roundCount n
  · rw [getElem_decryptionKeys_outer n a d r ho, getElem_decryptionKeys_outer n b d' r ho, h r hr]
  · have h1 : 1 ≤ r.val := by omega
    have h2 : r.val < roundCount n := by omega
    rw [getElem_decryptionKeys_middle n a d r h1 h2, getElem_decryptionKeys_middle n b d' r h1 h2, h r hr]

/-! ## The operations on alike states -/

namespace Alike

variable {s t : State}

theorem withArrivals (h : Alike s t) (es : List PortEvent) : Alike (withArrivals es s) (withArrivals es t) :=
  { h with arrivals := rfl }

theorem withAnswer (h : Alike s t) {a b : BusAnswer} (hab : a = b) : Alike (withAnswer a s) (withAnswer b t) :=
  { h with answer := hab }

theorem completeSuccess (h : Alike s t) : Alike (completeSuccess s) (completeSuccess t) :=
  { h with busy := rfl, done := rfl, fail := rfl, err := rfl, latched := fun hb => by simp at hb }

theorem raiseFailure (h : Alike s t) (e : ErrCode) : Alike (raiseFailure e s) (raiseFailure e t) :=
  { h with busy := rfl, done := rfl, fail := rfl, err := rfl, latched := fun hb => by simp at hb }

theorem setDout (h : Alike s t) {a b : Block} (hab : a = b) : Alike (setDout a s) (setDout b t) :=
  { h with dout := hab }

theorem setCv (h : Alike s t) {a b : Block} (hab : a = b) : Alike (setCv a s) (setCv b t) :=
  { h with cv := hab }

theorem configureMode (h : Alike s t) (md : Mode) (d : Dir) (m : Nat) :
    Alike (configureMode md d m s) (configureMode md d m t) :=
  { h with modeParamsOk := rfl, mode := rfl, dir := rfl, ctrM := rfl }

theorem invalidateMode (h : Alike s t) : Alike (invalidateMode s) (invalidateMode t) :=
  { h with modeParamsOk := rfl }

theorem invalidateKey (h : Alike s t) : Alike (invalidateKey s) (invalidateKey t) :=
  { h with
    keyValid := rfl
    keyBits := rfl
    rounds := fun hv => by simp at hv
    roundKeys := fun hv => by simp at hv }

theorem loadKey (h : Alike s t) (hk : s.lkey = t.lkey) (n : Rounds) : Alike (loadKey n s) (loadKey n t) :=
  have hek : SameKeysUpTo n (encryptionKeys n s.lkey s.draws) (encryptionKeys n t.lkey t.draws) :=
    hk ▸ sameKeysUpTo_encryptionKeys n s.lkey s.draws t.draws
  { h with
    keyValid := rfl
    keyBits := rfl
    rounds := fun _ => rfl
    roundKeys := fun _ r hr => ⟨hek r hr, hek.decryptionKeys s.draws t.draws r hr⟩ }

theorem accept (h : Alike s t) (v : Word) : Alike (accept v s) (accept v t) :=
  { h with
    busy := rfl
    done := rfl
    fail := rfl
    err := rfl
    latched := fun _ => by simp [h.key, h.iv, h.din] }

/-- A reset leaves what arrives, and every specified field at its reset value. -/
theorem resetEvent (h : Alike s t) : Alike (resetEvent s) (resetEvent t) := by
  constructor
  case arrivals => exact h.arrivals
  case rounds => exact fun hv => by simp [State.reset] at hv
  case roundKeys => exact fun hv => by simp [State.reset] at hv
  case latched => exact fun hb => by simp [State.reset] at hb
  all_goals rfl

/-! ## The bus -/

/-- No read shows an unspecified value. -/
theorem readReg_eq (h : Alike s t) (r : WindowReg) : readReg r s = readReg r t := by
  cases r with
  | status =>
    simp only [readReg, statusWord, modeReady, h.busy, h.done, h.fail, h.err, h.keyValid, h.modeParamsOk]
  | info => simp only [readReg, infoWord, h.keyValid, h.keyBits]
  | modecfg => simp only [readReg, modecfgWord, h.mode, h.dir, h.ctrM]
  | iv j => simp only [readReg, h.iv]
  | din j => simp only [readReg, h.din]
  | dout j => simp only [readReg, h.dout]
  | cv j => simp only [readReg, h.cv]
  | _ => rfl

theorem writeReg (h : Alike s t) (r : WindowReg) (v : Word) : Alike (writeReg r v s) (writeReg r v t) := by
  cases r with
  | cmd => exact h.accept v
  | key j => exact { h with key := congrArg (·.set j v) h.key }
  | iv j => exact { h with iv := congrArg (·.set j v) h.iv }
  | din j => exact { h with din := congrArg (·.set j v) h.din }
  | _ => exact h

theorem busAccess (h : Alike s t) (a : Access) : AlikeOutcome (busAccess a s) (busAccess a t) := by
  unfold Machine.busAccess
  cases windowOffset a.addr with
  | none => exact rfl
  | some off =>
    cases accessAligned a with
    | false => exact rfl
    | true =>
      cases a.op with
      | read => exact h.withAnswer (congrArg BusAnswer.readData (h.readReg_eq (regAt off)))
      | write v => exact (h.writeReg (regAt off) v).withAnswer rfl

/-! ## The commands -/

theorem sameKeysUpTo_ek (h : Alike s t) (hv : s.keyValid = true) : SameKeysUpTo s.nr s.ek t.ek :=
  fun r hr => (h.roundKeys hv r hr).1

theorem sameKeysUpTo_dk (h : Alike s t) (hv : s.keyValid = true) : SameKeysUpTo s.nr s.dk t.dk :=
  fun r hr => (h.roundKeys hv r hr).2

theorem cipher_eq (h : Alike s t) (hv : s.keyValid = true) (p : Block) : cipher s.ek s.nr p = cipher t.ek t.nr p := by
  rw [← h.rounds hv, (h.sameKeysUpTo_ek hv).cipher]

theorem invCipher_eq (h : Alike s t) (hv : s.keyValid = true) (c : Block) :
    invCipher s.dk s.nr c = invCipher t.dk t.nr c := by
  rw [← h.rounds hv, (h.sameKeysUpTo_dk hv).invCipher]

theorem processBlock (h : Alike s t) (hv : s.keyValid = true) (hx : s.ldin = t.ldin) :
    Alike (processBlock s) (processBlock t) := by
  unfold Machine.processBlock
  rw [← h.mode, ← h.dir]
  split
  · exact h.setDout (by rw [h.cipher_eq hv, hx])
  · exact h.setDout (by rw [h.invCipher_eq hv, hx])
  · exact (h.setCv (by rw [h.cipher_eq hv, hx, h.cv])).setDout (by rw [h.cipher_eq hv, hx, h.cv])
  · exact (h.setCv hx).setDout (by rw [h.invCipher_eq hv, hx, h.cv])
  · exact (h.setCv (by rw [h.cv, h.ctrM])).setDout (by rw [h.cipher_eq hv, hx, h.cv])

theorem blockResult (h : Alike s t) {err : Option ErrCode} {a b : Block} (hab : err = none → a = b) :
    Alike (blockResult err a s) (blockResult err b t) := by
  cases err with
  | none => exact (h.setDout (hab rfl)).completeSuccess
  | some e => exact h.raiseFailure e

theorem blockCommandError_eq (h : Alike s t) (a b : Nat) : blockCommandError a b s = blockCommandError a b t := by
  simp only [blockCommandError, h.keyValid]

theorem processError_eq (h : Alike s t) (a b : Nat) : processError a b s = processError a b t := by
  simp only [processError, h.keyValid, h.modeParamsOk]

end Alike

/-- A block command that passes its checks has a valid key (R186, R187). -/
theorem keyValid_of_blockCommandError {a b : Nat} {s : State} (h : blockCommandError a b s = none) :
    s.keyValid = true := by
  simp only [blockCommandError] at h
  split_ifs at h with _ hv
  simpa using hv

/-- A PROCESS that passes its checks has a valid key (R230). -/
theorem keyValid_of_processError {a b : Nat} {s : State} (h : processError a b s = none) : s.keyValid = true := by
  simp only [processError] at h
  split_ifs at h with _ _ hv
  simpa using hv

namespace Alike

variable {s t : State}

/-- A command in flight reads no unspecified value. -/
theorem exec (h : Alike s t) (hb : s.busy = true) (i : Instr) : AlikeOutcome (exec i s) (exec i t) := by
  obtain ⟨-, hkey, hiv, hx⟩ := h.latched hb
  cases i with
  | setKey keylen =>
    show AlikeOutcome (execSetKey keylen s) (execSetKey keylen t)
    unfold execSetKey
    cases roundsOfKeyLength keylen with
    | none => exact h.invalidateKey.raiseFailure .keyLength
    | some n => exact (h.loadKey hkey n).completeSuccess
  | encrypt a b =>
    rw [exec_encrypt, exec_encrypt, ← h.blockCommandError_eq]
    exact h.blockResult fun he => by rw [h.cipher_eq (keyValid_of_blockCommandError he), hx]
  | decrypt a b =>
    rw [exec_decrypt, exec_decrypt, ← h.blockCommandError_eq]
    exact h.blockResult fun he => by rw [h.invCipher_eq (keyValid_of_blockCommandError he), hx]
  | modeInitEcb d _ _ => exact (h.configureMode .ecb d 0).completeSuccess
  | modeInitCbc d l _ =>
    simp only [Machine.exec, execModeInitCbc]
    split_ifs
    · exact h.invalidateMode.raiseFailure .ivLength
    · exact ((h.configureMode .cbc d 0).setCv hiv).completeSuccess
  | modeInitCtr d l m =>
    simp only [Machine.exec, execModeInitCtr]
    split_ifs
    · exact h.invalidateMode.raiseFailure .ivLength
    · exact h.invalidateMode.raiseFailure .ctrWidth
    · exact ((h.configureMode .ctr d m).setCv (by rw [hiv])).completeSuccess
  | process a b =>
    show AlikeOutcome (execProcess a b s) (execProcess a b t)
    unfold execProcess
    rw [← h.processError_eq]
    cases he : processError a b s with
    | none => exact (h.processBlock (keyValid_of_processError he) hx).completeSuccess
    | some e => exact h.raiseFailure e

theorem completeCommand (h : Alike s t) (hb : s.busy = true) :
    AlikeOutcome (completeCommand s) (completeCommand t) := by
  unfold Machine.completeCommand
  rw [← (h.latched hb).1]
  cases decode s.lcmd with
  | legal i => exact h.exec hb i
  | illegal => exact h.raiseFailure .illegal

theorem engineTurn (h : Alike s t) : AlikeOutcome (engineTurn s) (engineTurn t) := by
  unfold Machine.engineTurn
  rw [← h.busy]
  cases hb : s.busy with
  | true => exact h.completeCommand hb
  | false => exact h

theorem step (h : Alike s t) : AlikeOutcome (step s) (step t) := by
  unfold Machine.step portStep
  rw [← h.arrivals]
  rcases s.arrivals with _ | ⟨a | _ | _, rest⟩
  · exact h.engineTurn
  · have hheld : heldAccess a s = heldAccess a t := by rw [heldAccess, heldAccess, h.busy]
    simp only [← hheld]
    cases heldAccess a s with
    | true => exact h.engineTurn
    | false => exact (h.withArrivals rest).busAccess a
  · exact (h.withArrivals rest).engineTurn
  · exact (h.withArrivals rest).resetEvent

end Alike

/-- Settles O47: every operation a step is made of carries alike states to alike states. -/
theorem unspecifiedValuesAreUnobservable : Obligations.UnspecifiedValuesAreUnobservable :=
  fun _ _ h => h.step

end Sys2Proof.Machine
end

