-- ==== Sys2Proof/Proofs/Invariant.lean ====
section
/-! Every step keeps the invariant, part by part, and what MODE and the block commands have to do with each other. -/

namespace Sys2Proof.Machine

/-! ## The parts of the invariant depend on their own fields -/

theorem SameKeyStore.keyStoreOk {s t : State} (h : SameKeyStore s t) (hs : keyStoreOk s) : keyStoreOk t := by
  unfold Machine.keyStoreOk
  rw [h.keyValid, h.nr, h.ek, h.dk]
  exact hs

theorem SameKeyStore.keyScheduleOk {s t : State} (h : SameKeyStore s t) (hs : keyScheduleOk s) :
    keyScheduleOk t := by
  unfold Machine.keyScheduleOk
  rw [h.keyValid, h.nr, h.ek]
  exact hs

theorem SameKeyStore.keyBitsOk {s t : State} (h : SameKeyStore s t) (hs : keyBitsOk s) : keyBitsOk t := by
  unfold Machine.keyBitsOk
  rw [h.keyValid, h.keyBits, h.nr]
  exact hs

theorem SameModecfg.modeStateOk {s t : State} (h : SameModecfg s t) (hs : modeStateOk s) : modeStateOk t := by
  unfold Machine.modeStateOk
  rw [h.mode, h.ctrM]
  exact hs

/-! ## The key store while no key is valid, and after a SET_KEY -/

/-- What SET_KEY loads is the decryption keys of the encryption keys (R146). -/
theorem keyStoreOk_loadKey (n : Rounds) (s : State) : keyStoreOk (loadKey n s) := by
  intro _
  refine ⟨getElem_decryptionKeys_outer n _ _ 0 (.inl rfl),
    getElem_decryptionKeys_outer n _ _ ⟨roundCount n, roundCount_lt n⟩ (.inr rfl), fun r h1 h2 => ?_⟩
  exact getElem_decryptionKeys_middle n _ _ r h1 h2

/-- What SET_KEY loads is the schedule of LKEY (R145). -/
theorem keyScheduleOk_loadKey (n : Rounds) (s : State) : keyScheduleOk (loadKey n s) :=
  fun _ => ⟨s.lkey, fun r hr => getElem_encryptionKeys n s.lkey s.draws r hr⟩

theorem keyBitsOk_loadKey (n : Rounds) (s : State) : keyBitsOk (loadKey n s) := by
  cases n <;> simp [keyBitsOk, keyWordCount, roundCount]

theorem sameKeyStore_completeSuccess (s : State) : SameKeyStore s (completeSuccess s) :=
  ⟨rfl, rfl, rfl, rfl, rfl⟩

/-- The key store of t meets the three parts of the invariant. -/
structure KeyStoreMeets (t : State) : Prop where
  keyStore : keyStoreOk t
  keySchedule : keyScheduleOk t
  keyBits : keyBitsOk t

theorem KeyStoreMeets.of_no_key {s : State} (h : s.keyValid = false) (hb : s.keyBits = 0#16) : KeyStoreMeets s where
  keyStore hv := by simp [h] at hv
  keySchedule hv := by simp [h] at hv
  keyBits := by simp [keyBitsOk, h, hb]

theorem KeyStoreMeets.of_loadKey (n : Rounds) (s : State) : KeyStoreMeets (completeSuccess (loadKey n s)) :=
  have hload := sameKeyStore_completeSuccess (loadKey n s)
  ⟨hload.keyStoreOk (keyStoreOk_loadKey n s), hload.keyScheduleOk (keyScheduleOk_loadKey n s),
    hload.keyBitsOk (keyBitsOk_loadKey n s)⟩

/-- A completion keeps the key store, or leaves one that meets the invariant. -/
theorem Ran.same_or_meets {i : Instr} {s t : State} (h : Ran i s t) : SameKeyStore s t ∨ KeyStoreMeets t := by
  rcases h.keyStore_cases with ⟨keylen, -, ⟨hv, hb, -⟩ | ⟨n, ht⟩⟩ | hsame
  · exact .inr (.of_no_key hv hb)
  · exact .inr (ht ▸ .of_loadKey n s)
  · exact .inl hsame

/-- A step keeps the key store, or leaves one that meets the invariant. -/
theorem step_sameKeyStore_or_meets {s t : State} (h : step s = .next t) : SameKeyStore s t ∨ KeyStoreMeets t := by
  rcases step_reset_or_ran_or_same h with ⟨-, u, ht⟩ | ⟨-, es, i, -, hr⟩ | hsame
  · exact .inr (ht ▸ .of_no_key rfl rfl)
  · exact hr.same_or_meets.imp_left (·.of_withArrivals)
  · exact .inl hsame.toSameKeyStore

theorem step_keeps_keyStoreOk {s t : State} (hs : keyStoreOk s) (h : step s = .next t) : keyStoreOk t :=
  (step_sameKeyStore_or_meets h).elim (·.keyStoreOk hs) (·.keyStore)

theorem step_keeps_keyScheduleOk {s t : State} (hs : keyScheduleOk s) (h : step s = .next t) : keyScheduleOk t :=
  (step_sameKeyStore_or_meets h).elim (·.keyScheduleOk hs) (·.keySchedule)

theorem step_keeps_keyBitsOk {s t : State} (hs : keyBitsOk s) (h : step s = .next t) : keyBitsOk t :=
  (step_sameKeyStore_or_meets h).elim (·.keyBitsOk hs) (·.keyBits)

/-! ## The mode state -/

theorem modeStateOk_resetEvent (s : State) : modeStateOk (resetEvent s) := by
  simp [modeStateOk, State.reset]

theorem step_keeps_modeStateOk {s t : State} (hs : modeStateOk s) (h : step s = .next t) : modeStateOk t := by
  rcases step_reset_or_ran_or_same h with ⟨-, u, rfl⟩ | ⟨-, es, i, -, hr⟩ | hsame
  · exact modeStateOk_resetEvent u
  · rcases hr.modecfg_cases with ⟨-, -, hm⟩ | hsame
    · exact hm
    · exact hsame.modeStateOk hs
  · exact hsame.toSameModecfg.modeStateOk hs

/-! ## The command state -/

theorem commandStateOk_completeSuccess (s : State) : commandStateOk (completeSuccess s) := by
  simp [commandStateOk]

theorem commandStateOk_raiseFailure {e : ErrCode} (he : e ≠ .none) (s : State) :
    commandStateOk (raiseFailure e s) := by
  simp [commandStateOk, he]

theorem commandStateOk_accept (v : Word) (s : State) : commandStateOk (accept v s) := by
  simp [commandStateOk]

/-- A failed check of a block command names a code (R261). -/
theorem ne_none_of_blockCommandError {a b : Nat} {s : State} {e : ErrCode} (h : blockCommandError a b s = some e) :
    e ≠ .none := by
  simp only [blockCommandError] at h
  split_ifs at h <;> cases h <;> decide

/-- A failed check of PROCESS names a code (R261). -/
theorem ne_none_of_processError {a b : Nat} {s : State} {e : ErrCode} (h : processError a b s = some e) :
    e ≠ .none := by
  simp only [processError] at h
  split_ifs at h <;> cases h <;> decide

/-- Every command ends with Success and no code, or with Failure and a code (R260). -/
theorem Ran.commandStateOk {i : Instr} {s t : State} (h : Ran i s t) : commandStateOk t := by
  cases h with
  | encryptRejected a b s e he => exact commandStateOk_raiseFailure (ne_none_of_blockCommandError he) _
  | decryptRejected a b s e he => exact commandStateOk_raiseFailure (ne_none_of_blockCommandError he) _
  | processRejected a b s e he => exact commandStateOk_raiseFailure (ne_none_of_processError he) _
  | keyRejected => exact commandStateOk_raiseFailure (by decide) _
  | cbcRejected => exact commandStateOk_raiseFailure (by decide) _
  | ctrRejectedIv => exact commandStateOk_raiseFailure (by decide) _
  | ctrRejectedWidth => exact commandStateOk_raiseFailure (by decide) _
  | _ => exact commandStateOk_completeSuccess _

/-- A write to any register but CMD leaves BUSY, DONE, FAIL and ERR as they are. -/
theorem writeReg_commandState {r : WindowReg} (hr : r ≠ .cmd) (v : Word) (s : State) :
    (writeReg r v s).busy = s.busy ∧ (writeReg r v s).done = s.done ∧ (writeReg r v s).fail = s.fail ∧
      (writeReg r v s).err = s.err := by
  cases r with
  | cmd => exact absurd rfl hr
  | _ => exact ⟨rfl, rfl, rfl, rfl⟩

/-- A step that changes BUSY, DONE, FAIL or ERR is a reset, an acceptance or a completion, and each of these leaves a
legal command state. -/
theorem step_commandState_cases {s t : State} (h : step s = .next t) :
    ((ResetNext s ∨ Accepts s ∨ Completes s t) ∧ commandStateOk t) ∨
      (t.busy = s.busy ∧ t.done = s.done ∧ t.fail = s.fail ∧ t.err = s.err) := by
  cases moved_of_step h with
  | reset rest harr ht => exact .inl ⟨.inl ⟨rest, harr⟩, by simp [ht, commandStateOk, State.reset]⟩
  | ran es i hc hd hr => exact .inl ⟨.inr (.inr hc), hr.commandStateOk⟩
  | illegal es hc ht => exact .inl ⟨.inr (.inr hc), ht ▸ commandStateOk_raiseFailure (by decide) _⟩
  | wrote r v rest hw hb ht =>
    by_cases hr : r = .cmd
    · subst hr
      exact .inl ⟨.inr (.inl ⟨hb rfl, v, rest, cmdWriteNext_of_writeNext hw⟩),
        ht ▸ commandStateOk_accept v (withArrivals rest s)⟩
    · subst ht
      exact .inr (writeReg_commandState hr v (withArrivals rest s))
  | passed es ans ht => subst ht; exact .inr ⟨rfl, rfl, rfl, rfl⟩

theorem step_keeps_commandStateOk {s t : State} (hs : commandStateOk s) (h : step s = .next t) :
    commandStateOk t := by
  rcases step_commandState_cases h with ⟨-, ht⟩ | ⟨hbusy, hdone, hfail, herr⟩
  · exact ht
  · unfold commandStateOk
    rw [hbusy, hdone, hfail, herr]
    exact hs

/-! ## The invariant -/

/-- Settles O60: each part of the invariant is kept by itself. -/
theorem everyStepKeepsTheInvariant : Obligations.EveryStepKeepsTheInvariant :=
  fun _ _ hs h =>
    { keyStore := step_keeps_keyStoreOk hs.keyStore h
      keySchedule := step_keeps_keyScheduleOk hs.keySchedule h
      keyBits := step_keeps_keyBitsOk hs.keyBits h
      modeState := step_keeps_modeStateOk hs.modeState h
      commandState := step_keeps_commandStateOk hs.commandState h }

end Sys2Proof.Machine
end

