-- ==== Sys2Proof/Proofs/Registers.lean ====
section
/-! The window, its registers STATUS, INFO and MODECFG, and who writes each part of the state (R22 to R38). -/

namespace Sys2Proof

/-! ## Fields of a word -/

/-- A placed field is read back at its place. -/
@[simp] theorem extract_placeField_same {n : Nat} (x : BitVec n) (lo : Nat) (h : lo + n ≤ 32) :
    (placeField x lo).extractLsb' lo n = x := by
  apply BitVec.eq_of_getLsbD_eq
  intro i hi
  have h32 : lo + i < 32 := by omega
  simp [-BitVec.getLsbD_eq_getElem, BitVec.getLsbD_extractLsb', getLsbD_placeField, hi, h32]

/-- A placed field shows nothing below its place. -/
@[simp] theorem extract_placeField_below {n : Nat} (x : BitVec n) (lo start len : Nat) (h : start + len ≤ lo) :
    (placeField x lo).extractLsb' start len = 0#len := by
  apply BitVec.eq_of_getLsbD_eq
  intro i hi
  have hlo : ¬ lo ≤ start + i := by omega
  simp [-BitVec.getLsbD_eq_getElem, BitVec.getLsbD_extractLsb', getLsbD_placeField, hlo]

/-- A placed field shows nothing above its last bit. -/
@[simp] theorem extract_placeField_above {n : Nat} (x : BitVec n) (lo start len : Nat) (h : lo + n ≤ start) :
    (placeField x lo).extractLsb' start len = 0#len := by
  apply BitVec.eq_of_getLsbD_eq
  intro i hi
  have hx : x.getLsbD (start + i - lo) = false := BitVec.getLsbD_of_ge x _ (by omega)
  simp [-BitVec.getLsbD_eq_getElem, BitVec.getLsbD_extractLsb', getLsbD_placeField, hx]

end Sys2Proof

namespace Sys2Proof.Machine

/-! ## MODECFG (R32) -/

theorem modecfgWord_fields (s : State) :
    (modecfgWord s).extractLsb' 0 2 = modeBits s.mode ∧ (modecfgWord s).extractLsb' 2 1 = dirBits s.dir ∧
      (modecfgWord s).extractLsb' 3 5 = 0#5 ∧ (modecfgWord s).extractLsb' 8 8 = s.ctrM ∧
      (modecfgWord s).extractLsb' 16 16 = 0#16 := by
  refine ⟨?_, ?_, ?_, ?_, ?_⟩ <;> simp [modecfgWord, BitVec.extractLsb'_or]

/-- Settles O38: the fields bit by bit, and `Ran.modecfg_cases` for who writes them. -/
theorem modecfgRegister : Obligations.ModecfgRegister := by
  refine ⟨fun s => ?_, by decide, by unfold modeStateOk; decide, fun s t => step_keeps_modeStateOk,
    fun s t h hne => ?_⟩
  · obtain ⟨hmode, hdir, hlow, hctrM, hhigh⟩ := modecfgWord_fields s
    exact ⟨hmode.trans (by cases s.mode <;> rfl), hdir.trans (by cases s.dir <;> rfl), hlow, hctrM, hhigh,
      fun _ => rfl⟩
  · rcases step_reset_or_ran_or_same h with ⟨hreset, -⟩ | ⟨hc, es, i, hd, hr⟩ | hsame
    · exact .inl hreset
    · rcases hr.modecfg_cases with ⟨hfail, hi, -⟩ | hsame
      · exact .inr ⟨hc, hfail, i, hd, hi⟩
      · exact absurd ⟨hsame.mode, hsame.dir, hsame.ctrM⟩ hne
    · exact absurd ⟨hsame.mode, hsame.dir, hsame.ctrM⟩ hne

/-! ## STATUS (R30) -/

theorem statusWord_flags (s : State) :
    (statusWord s).getLsbD 0 = s.busy ∧ (statusWord s).getLsbD 1 = s.done ∧ (statusWord s).getLsbD 2 = s.fail ∧
      (statusWord s).getLsbD 3 = false ∧ (statusWord s).getLsbD 8 = s.keyValid ∧
      (statusWord s).getLsbD 9 = s.modeParamsOk ∧ (statusWord s).getLsbD 10 = modeReady s := by
  refine ⟨?_, ?_, ?_, ?_, ?_, ?_, ?_⟩ <;>
    simp [statusWord, getLsbD_placeField, -BitVec.getLsbD_eq_getElem]

theorem statusWord_err (s : State) : (statusWord s).extractLsb' 4 4 = errBits s.err := by
  simp [statusWord, BitVec.extractLsb'_or]

theorem statusWord_reserved (s : State) : (statusWord s).extractLsb' 11 21 = 0#21 := by
  simp [statusWord, BitVec.extractLsb'_or]

/-- Right after an acceptance only BUSY is set in bits 7:0 (R294). -/
theorem statusWord_accept (v : Word) (s : State) : (statusWord (accept v s)).extractLsb' 0 8 = 0x01#8 := by
  simp only [statusWord, BitVec.extractLsb'_or, accept_busy, accept_done, accept_fail, accept_err,
    extract_placeField_below, Nat.reduceAdd, Nat.reduceLeDiff]
  decide

/-- After a SET_KEY, KEY_VALID tells whether it succeeded (R148, R149). -/
theorem Ran.keyValid_of_setKey {keylen : Nat} {s t : State} (h : Ran (.setKey keylen) s t) :
    t.keyValid = !t.fail := by
  cases h with
  | keyLoaded => rfl
  | keyRejected => rfl

/-- After a MODE_INIT, MODE_PARAMS_OK tells whether it succeeded (R211 to R214). -/
theorem Ran.modeParamsOk_of_modeInit {i : Instr} {s t : State} (h : Ran i s t) (hi : isModeInit i = true) :
    t.modeParamsOk = !t.fail := by
  cases h with
  | ecbConfigured => rfl
  | cbcConfigured => rfl
  | cbcRejected => rfl
  | ctrConfigured => rfl
  | ctrRejectedIv => rfl
  | ctrRejectedWidth => rfl
  | _ => cases hi

/-- A completion ends the command with a legal result (R296). -/
theorem completeCommand_commandStateOk {s t : State} (h : completeCommand s = .next t) : commandStateOk t := by
  obtain ⟨u, hu, hcase⟩ := completeCommand_cases s
  rw [h] at hu
  cases hu
  rcases hcase with ⟨i, -, -, hr⟩ | ⟨-, rfl⟩
  · exact hr.commandStateOk
  · exact commandStateOk_raiseFailure (by decide) s

/-- A completion of a decoded command is one of the shapes of `Ran`. -/
theorem ran_of_completeCommand {i : Instr} {s t : State} (h : completeCommand s = .next t)
    (hd : decode s.lcmd = .legal i) : Ran i s t := by
  rw [completeCommand, hd] at h
  exact ran_of_exec h

/-- Settles O39: the fields bit by bit, then what a completion leaves, then who writes them. -/
theorem statusRegister : Obligations.StatusRegister := by
  refine ⟨fun s => ?_, by decide, fun s v => statusWord_accept v s, fun s t h => ?_, fun s t h hne => ?_,
    fun s t h hne => ?_⟩
  · obtain ⟨hbusy, hdone, hfail, hres, hkey, hmode, hready⟩ := statusWord_flags s
    exact ⟨hbusy, hdone, hfail, hres, (statusWord_err s).trans (by cases s.err <;> rfl), hkey, hmode, hready,
      statusWord_reserved s, fun _ => rfl⟩
  · have hun := completeCommand_untouched h
    obtain ⟨-, hcode, -⟩ := completeCommand_commandStateOk h
    refine ⟨hun.idle, hun.finished, fun hf => ?_, fun keylen hd => ?_, fun i hd hi => ?_⟩
    · by_contra herr
      exact absurd (hcode.2 herr) (by simp [hf])
    · exact (ran_of_completeCommand h hd).keyValid_of_setKey
    · exact (ran_of_completeCommand h hd).modeParamsOk_of_modeInit hi
  · rcases step_commandState_cases h with ⟨hkind, -⟩ | hsame
    · exact hkind
    · exact absurd hsame hne
  · rcases step_reset_or_ran_or_same h with ⟨hreset, -⟩ | ⟨hc, -⟩ | hsame
    · exact .inl hreset
    · exact .inr hc
    · exact absurd ⟨hsame.keyValid, hsame.modeParamsOk⟩ hne

/-! ## INFO (R31) -/

theorem infoWord_keyBits (s : State) :
    (infoWord s).extractLsb' 0 16 = if s.keyValid = true then s.keyBits else 0#16 := by
  simp [infoWord, BitVec.extractLsb'_or]

theorem infoWord_blockBits (s : State) : (infoWord s).extractLsb' 16 16 = 0x0080#16 := by
  simp [infoWord, BitVec.extractLsb'_or]

/-- The size of a valid key is 128, 192 or 256 bits (R140). -/
theorem keyBitsOk.legal_of_valid {s : State} (h : keyBitsOk s) (hv : s.keyValid = true) :
    s.keyBits = 0x0080#16 ∨ s.keyBits = 0x00C0#16 ∨ s.keyBits = 0x0100#16 := by
  simp only [keyBitsOk, hv, if_true] at h
  cases hn : s.nr <;> rw [hn] at h
  · exact .inl (BitVec.eq_of_toNat_eq h)
  · exact .inr (.inl (BitVec.eq_of_toNat_eq h))
  · exact .inr (.inr (BitVec.eq_of_toNat_eq h))

/-- Settles O40: the two fields, and the legal key sizes under the invariant. -/
theorem infoRegister : Obligations.InfoRegister := by
  refine ⟨fun s => ⟨infoWord_keyBits s, infoWord_blockBits s, fun _ => rfl⟩, fun s hs => ?_, by decide⟩
  rw [show readReg .info s = infoWord s from rfl, infoWord_keyBits]
  cases hv : s.keyValid with
  | false => exact .inl rfl
  | true => exact .inr (hs.keyBits.legal_of_valid hv)

/-! ## DOUT, CV and the key store (R26, R27, R34) -/

/-- Settles O35: `Ran.blockCommand_of_dout_ne` for who writes DOUT, `Ran` for what a success leaves there. -/
theorem onlyBlockCommandsWriteDout : Obligations.OnlyBlockCommandsWriteDout := by
  refine ⟨fun s t h hne => ?_, fun s t a b hok => ⟨fun h => ?_, fun h => ?_, fun h => ?_⟩, fun _ _ => rfl⟩
  · rcases step_reset_or_ran_or_same h with ⟨hreset, -⟩ | ⟨hc, es, i, hd, hr⟩ | hsame
    · exact .inl hreset
    · obtain ⟨hfail, hi⟩ := hr.blockCommand_of_dout_ne hne
      exact .inr ⟨hc, hfail, i, hd, hi⟩
    · exact absurd hsame.dout hne
  · cases ran_of_exec h with
    | encrypted => simp
    | encryptRejected => simp at hok
  · cases ran_of_exec h with
    | decrypted => simp
    | decryptRejected => simp at hok
  · cases ran_of_exec h with
    | processed => simp
    | processRejected => simp at hok

/-- Settles O36, by `Ran.writesCv_of_cv_ne`. -/
theorem onlyModeCommandsWriteCv : Obligations.OnlyModeCommandsWriteCv := by
  refine ⟨fun s t h hne => ?_, fun _ _ => rfl⟩
  rcases step_reset_or_ran_or_same h with ⟨hreset, -⟩ | ⟨hc, es, i, hd, hr⟩ | hsame
  · exact .inl hreset
  · obtain ⟨hfail, hi⟩ := hr.writesCv_of_cv_ne hne
    exact .inr ⟨hc, hfail, i, hd, hi⟩
  · exact absurd hsame.cv hne

/-- Settles O37, by `Ran.keyStore_cases`. -/
theorem onlySetKeyWritesTheKeyStore : Obligations.OnlySetKeyWritesTheKeyStore := by
  refine ⟨(KeyStoreMeets.of_no_key rfl rfl).keyStore, fun s t => step_keeps_keyStoreOk, fun s t h hne => ?_⟩
  have changed : ¬ SameKeyStore s t := fun hs => hne ⟨hs.keyValid, hs.keyBits, hs.nr, hs.ek, hs.dk⟩
  rcases step_reset_or_ran_or_same h with ⟨hreset, -⟩ | ⟨hc, es, i, hd, hr⟩ | hsame
  · exact .inl hreset
  · rcases hr.keyStore_cases with ⟨keylen, rfl, -⟩ | hsame
    · exact .inr ⟨hc, keylen, hd⟩
    · exact absurd hsame.of_withArrivals changed
  · exact absurd hsame.toSameKeyStore changed

/-! ## The block commands beside another mode state (R38) -/

/-- The mode state has the same values in t as in s. -/
structure SameModeState (s t : State) : Prop extends SameModecfg s t where
  modeParamsOk : t.modeParamsOk = s.modeParamsOk
  cv : t.cv = s.cv

theorem sameModeState_blockResult (err : Option ErrCode) (out : Block) (s : State) :
    SameModeState s (blockResult err out s) := by
  cases err <;> exact ⟨⟨rfl, rfl, rfl⟩, rfl, rfl⟩

/-- The state with another mode state. -/
def withModeState (ok : Bool) (md : Mode) (d : Dir) (m : BitVec 8) (v : Block) (s : State) : State :=
  { s with modeParamsOk := ok, mode := md, dir := d, ctrM := m, cv := v }

theorem blockResult_withModeState (err : Option ErrCode) (out : Block) (ok : Bool) (md : Mode) (d : Dir)
    (m : BitVec 8) (v : Block) (s : State) :
    blockResult err out (withModeState ok md d m v s) = withModeState ok md d m v (blockResult err out s) := by
  cases err <;> rfl

/-- Settles O17: what a block command reads is the key store and LDIN, and what it leaves is `blockResult`. -/
theorem blockCommandsIgnoreTheModeState : Obligations.BlockCommandsIgnoreTheModeState := by
  intro i a b hi s ok md d m v
  have hrun : ∃ err out, exec i s = .next (blockResult err out s) ∧
      exec i (withModeState ok md d m v s) = .next (blockResult err out (withModeState ok md d m v s)) := by
    rcases hi with rfl | rfl
    · exact ⟨_, _, exec_encrypt a b s, exec_encrypt a b (withModeState ok md d m v s)⟩
    · exact ⟨_, _, exec_decrypt a b s, exec_decrypt a b (withModeState ok md d m v s)⟩
  obtain ⟨err, out, hs, hbeside⟩ := hrun
  obtain ⟨⟨hmode, hdir, hctrM⟩, hok, hcv⟩ := sameModeState_blockResult err out s
  rw [blockResult_withModeState] at hbeside
  exact ⟨_, hs, hok, hmode, hdir, hctrM, hcv, hbeside⟩

/-! ## The window and the staging registers (R22 to R25, R29) -/

/-- Settles O34. -/
theorem windowMapIsOneToOne : Obligations.WindowMapIsOneToOne :=
  ⟨regAt_regOffset, fun r => ⟨regOffset_lt r, regOffset_mod_four r⟩, regOffset_regAt⟩

/-- A write to a register that is no staging register leaves KEY, IV and DIN as they are. -/
theorem writeReg_staging {r : WindowReg} (hr : isStaging r = false) (v : Word) (s : State) :
    (writeReg r v s).key = s.key ∧ (writeReg r v s).iv = s.iv ∧ (writeReg r v s).din = s.din := by
  cases r with
  | key => cases hr
  | iv => cases hr
  | din => cases hr
  | _ => exact ⟨rfl, rfl, rfl⟩

/-- CMD alone stands at offset 0 (R22). -/
theorem regOffset_ne_zero {r : WindowReg} (h : r ≠ .cmd) : regOffset r ≠ 0 := by
  cases r with
  | cmd => exact absurd rfl h
  | _ => simp [regOffset]

/-- A supported write to a register other than CMD is never held: it takes place in this step (R65, R295). -/
theorem step_of_writeNext {r : WindowReg} {v : Word} {rest : List PortEvent} {s : State} (h : WriteNext r v rest s)
    (hr : r ≠ .cmd) : step s = .next (withAnswer .written (writeReg r v (withArrivals rest s))) := by
  have hcmd : isCmdWrite { addr := Config.baseAddr + regOffset r, size := 4, op := .write v } = false := by
    rw [Bool.eq_false_iff, ne_eq, isCmdWrite_iff]
    rintro ⟨-, haddr, -⟩
    exact regOffset_ne_zero hr (Nat.left_eq_add.mp haddr.symm)
  rw [step, portStep, h]
  simp only [heldAccess, hcmd, Bool.and_false, Bool.false_eq_true, if_false]
  have hw := windowOffset_base_add (regOffset r) (regOffset_lt r)
  have ha := accessAligned_base_add (regOffset r) (.write v) (regOffset_mod_four r)
  rw [busAccess_write hw ha rfl, regAt_regOffset]

/-- Settles O43: no completion touches the staging registers, and a write touches its register only. -/
theorem onlyHostWritesChangeStaging : Obligations.OnlyHostWritesChangeStaging := by
  refine ⟨fun s t h hne => ?_, fun s v rest j => ⟨fun h => ?_, fun h => ?_⟩⟩
  · cases moved_of_step h with
    | reset rest harr _ => exact .inl ⟨rest, harr⟩
    | ran es i hc hd hr => exact absurd ⟨hr.untouched.key, hr.untouched.iv, hr.untouched.din⟩ hne
    | illegal es hc ht => exact absurd (ht ▸ ⟨rfl, rfl, rfl⟩) hne
    | wrote r v rest hw hb ht =>
      refine .inr ⟨r, v, rest, ?_, hw⟩
      by_contra hstage
      exact hne (ht ▸ writeReg_staging (by simpa using hstage) v (withArrivals rest s))
    | passed es ans ht => exact absurd (ht ▸ ⟨rfl, rfl, rfl⟩) hne
  · exact ⟨_, step_of_writeNext h (by simp), by simp [readReg, writeReg, withAnswer], rfl⟩
  · exact ⟨_, step_of_writeNext h (by simp), by simp [readReg, writeReg, withAnswer]⟩

end Sys2Proof.Machine
end

