-- ==== Sys2Proof/Proofs/BusAccess.lean ====
section
/-! One access at the window, from its arrival to the answer of the bus, and the byte lanes of its data (R60 to R66). -/

namespace Sys2Proof.Machine

/-! ## An access that arrives -/

/-- An access that is not held takes place in this step. -/
theorem step_of_access {a : Access} {rest : List PortEvent} {s : State} (h : s.arrivals = .access a :: rest)
    (hheld : heldAccess a s = false) : step s = busAccess a (withArrivals rest s) := by
  simp [step, portStep, h, hheld]

/-- Only a supported write to CMD is ever held (R295). -/
theorem heldAccess_of_not_cmdWrite {a : Access} (h : isCmdWrite a = false) (s : State) : heldAccess a s = false := by
  simp [heldAccess, h]

theorem heldAccess_of_idle (a : Access) {s : State} (h : s.busy = false) : heldAccess a s = false := by
  simp [heldAccess, h]

/-- A held access stays first, and the command in flight completes (R295). -/
theorem step_of_heldAccess {a : Access} {rest : List PortEvent} {s : State} (h : s.arrivals = .access a :: rest)
    (hheld : heldAccess a s = true) : step s = completeCommand s := by
  have hbusy : s.busy = true := (Bool.and_eq_true_iff.mp hheld).1
  simp [step, portStep, h, hheld, engineTurn, hbusy]

/-! ## Reads (R64) -/

/-- What a register reads as depends neither on what is to arrive nor on the last answer of the bus. -/
theorem readReg_port (r : WindowReg) (es : List PortEvent) (ans : BusAnswer) (s : State) :
    readReg r (withAnswer ans (withArrivals es s)) = readReg r s := by
  cases r <;> rfl

theorem busAccess_read {a : Access} {off : Fin 256} (hw : windowOffset a.addr = some off)
    (ha : accessAligned a = true) (hop : a.op = .read) (s : State) :
    busAccess a s = .next (withAnswer (.readData (readReg (regAt off) s)) s) := by
  simp [busAccess, hw, ha, hop, withAnswer]

/-- A supported read of a register answers its value and changes nothing of the engine. -/
theorem step_read (r : WindowReg) (rest : List PortEvent) (s : State) :
    step (withArrivals (.access { addr := Config.baseAddr + regOffset r, size := 4, op := .read } :: rest) s) =
      .next (withAnswer (.readData (readReg r s)) (withArrivals rest s)) := by
  have hw := windowOffset_base_add (regOffset r) (regOffset_lt r)
  have ha := accessAligned_base_add (regOffset r) .read (regOffset_mod_four r)
  have hread : readReg r (withArrivals rest s) = readReg r s := readReg_port r rest s.answer s
  rw [step_of_access (withArrivals_arrivals _ _) (heldAccess_of_not_cmdWrite rfl _), withArrivals_withArrivals,
    busAccess_read hw ha rfl, regAt_regOffset, hread]

/-- The four bytes of a word as shifts, the first byte highest (R62). -/
theorem wordOfBytes_eq_shifts (b0 b1 b2 b3 : Byte) :
    wordOfBytes b0 b1 b2 b3 =
      b0.setWidth 32 <<< 24 ||| b1.setWidth 32 <<< 16 ||| b2.setWidth 32 <<< 8 ||| b3.setWidth 32 := by
  simp [wordOfBytes, placeField]

/-- Settles O41: `step_read` at the offset of each register. -/
theorem busReadReturnsTheRegister : Obligations.BusReadReturnsTheRegister := by
  intro s rest
  refine ⟨step_read .cmd rest s, step_read .status rest s, step_read .info rest s, step_read .modecfg rest s,
    fun j => step_read (.key j) rest s, fun j => step_read (.iv j) rest s, fun j => step_read (.din j) rest s,
    fun j => ?dout, fun j => ?cv, fun off hlo hhi h4 => ?reserved, fun r es ans => readReg_port r es ans s⟩
  case dout =>
    rw [← wordOfBytes_eq_shifts]
    exact step_read (.dout j) rest s
  case cv =>
    rw [← wordOfBytes_eq_shifts]
    exact step_read (.cv j) rest s
  case reserved =>
    obtain ⟨k, rfl⟩ : ∃ k : Fin 36, off = 0x70 + 4 * k.val := ⟨⟨(off - 0x70) / 4, by omega⟩, by simp only; omega⟩
    exact step_read (.reserved k) rest s

/-! ## Writes (R65) -/

/-- The registers STATUS to MODECFG and those from DOUT on ignore a write (R29). -/
theorem writeReg_readOnly {r : WindowReg}
    (h : 0x04 ≤ regOffset r ∧ regOffset r ≤ 0x0C ∨ 0x50 ≤ regOffset r ∧ regOffset r ≤ 0xFC) (v : Word) (s : State) :
    writeReg r v s = s := by
  cases r with
  | cmd | key | iv | din => simp only [regOffset] at h; omega
  | _ => rfl

/-- A supported write to CMD while BUSY = 0 is accepted in this step (R294). -/
theorem step_cmdWrite_idle {v : Word} {rest : List PortEvent} {s : State} (h : WriteNext .cmd v rest s)
    (hb : s.busy = false) : step s = .next (withAnswer .written (accept v (withArrivals rest s))) := by
  have hw := windowOffset_base_add (regOffset .cmd) (regOffset_lt .cmd)
  have ha := accessAligned_base_add (regOffset .cmd) (.write v) (regOffset_mod_four .cmd)
  rw [step_of_access h (heldAccess_of_idle _ hb), busAccess_write hw ha rfl]
  rfl

/-- A supported write to CMD while BUSY = 1 is held: the command in flight completes (R295). -/
theorem step_cmdWrite_busy {v : Word} {rest : List PortEvent} {s : State} (h : WriteNext .cmd v rest s)
    (hb : s.busy = true) : step s = completeCommand s := by
  obtain ⟨a, harr, hcmd, -⟩ := cmdWriteNext_of_writeNext h
  exact step_of_heldAccess harr (by simp [heldAccess, hb, hcmd])

/-- Settles O42: `step_of_writeNext` at the offset of each register but CMD, where the write is accepted or held. -/
theorem busWriteChangesOnlyItsRegister : Obligations.BusWriteChangesOnlyItsRegister := by
  intro s rest v writing
  have next : ∀ r, WriteNext r v rest (writing (regOffset r)) := fun _ => rfl
  refine ⟨fun j => step_of_writeNext (next (.key j)) (by simp), fun j => step_of_writeNext (next (.iv j)) (by simp),
    fun j => step_of_writeNext (next (.din j)) (by simp), fun off h4 hoff => ?readOnly,
    fun hb => step_cmdWrite_idle (next .cmd) hb, fun hb => step_cmdWrite_busy (next .cmd) hb⟩
  case readOnly =>
    obtain ⟨r, rfl⟩ : ∃ r, regOffset r = off := ⟨_, regOffset_regAt ⟨off, by omega⟩ h4⟩
    have hcmd : r ≠ .cmd := by
      rintro rfl
      simp [regOffset] at hoff
    rw [step_of_writeNext (next r) hcmd, writeReg_readOnly hoff]
    rfl

/-! ## Accesses that are not supported (R60, R66) -/

theorem windowOffset_eq_none {addr : Nat} (h : addr < Config.baseAddr ∨ Config.baseAddr + 0x100 ≤ addr) :
    windowOffset addr = none := by
  cases hw : windowOffset addr with
  | none => rfl
  | some off =>
    have haddr := addr_of_windowOffset hw
    omega

theorem windowOffset_of_mem {addr : Nat} (hlo : Config.baseAddr ≤ addr) (hhi : addr < Config.baseAddr + 0x100) :
    ∃ off, windowOffset addr = some off := by
  obtain ⟨off, rfl⟩ := Nat.exists_eq_add_of_le hlo
  exact ⟨_, windowOffset_base_add off (by omega)⟩

theorem busAccess_outside {a : Access} (h : windowOffset a.addr = none) (s : State) :
    busAccess a s = .refused (.outsideWindow a) := by
  simp [busAccess, h]

theorem busAccess_unsupported {a : Access} {off : Fin 256} (hw : windowOffset a.addr = some off)
    (ha : accessAligned a = false) (s : State) : busAccess a s = .fault (.busError a 0#32) := by
  simp [busAccess, hw, ha]

/-- A write that is held is supported. -/
theorem accessAligned_of_isCmdWrite {a : Access} (h : isCmdWrite a = true) : accessAligned a = true := by
  obtain ⟨hsize, haddr, -⟩ := (isCmdWrite_iff a).1 h
  exact (accessAligned_iff a).2 ⟨hsize, haddr ▸ baseAddr_mod_four⟩

/-- Settles O45: neither kind of access is a supported write to CMD, so neither is held, whatever BUSY is. -/
theorem unsupportedAccessesStop : Obligations.UnsupportedAccessesStop := by
  refine fun s a rest harr => ⟨fun hlo hhi hform => ?_, fun hout => ?_⟩
  · have ha : accessAligned a = false := by
      rw [Bool.eq_false_iff, ne_eq, accessAligned_iff]
      omega
    have hcmd : isCmdWrite a = false := Bool.eq_false_iff.2 fun h => by simp [accessAligned_of_isCmdWrite h] at ha
    obtain ⟨off, hw⟩ := windowOffset_of_mem hlo hhi
    rw [step_of_access harr (heldAccess_of_not_cmdWrite hcmd s), busAccess_unsupported hw ha]
  · have hcmd : isCmdWrite a = false := by
      rw [Bool.eq_false_iff, ne_eq, isCmdWrite_iff]
      omega
    rw [step_of_access harr (heldAccess_of_not_cmdWrite hcmd s), busAccess_outside (windowOffset_eq_none hout)]

/-! ## The byte lanes (R23, R62) -/

theorem getElem_blockOfWords (ws : Vector Word 4) (j : Fin 4) {t : Nat} (ht : t < 4) :
    (blockOfWords ws)[4 * j.val + t] = laneByte ws[j] t := by
  have hdiv : (4 * j.val + t) / 4 = j.val := by omega
  have hmod : (4 * j.val + t) % 4 = t := by omega
  simp [blockOfWords, hdiv, hmod]

theorem getElem_keyBytesOfWords (ws : Vector Word 8) (j : Fin 8) (t : Fin 4) :
    (keyBytesOfWords ws)[4 * j.val + t.val] = laneByte ws[j] t.val := by
  have hdiv : (4 * j.val + t.val) / 4 = j.val := by omega
  have hmod : (4 * j.val + t.val) % 4 = t.val := by omega
  simp [keyBytesOfWords, hdiv, hmod]

theorem laneByte_wordOfBytes (b0 b1 b2 b3 : Byte) :
    laneByte (wordOfBytes b0 b1 b2 b3) 0 = b0 ∧ laneByte (wordOfBytes b0 b1 b2 b3) 1 = b1 ∧
      laneByte (wordOfBytes b0 b1 b2 b3) 2 = b2 ∧ laneByte (wordOfBytes b0 b1 b2 b3) 3 = b3 := by
  refine ⟨?_, ?_, ?_, ?_⟩ <;> simp [laneByte, wordOfBytes, BitVec.extractLsb'_or]

/-- The four lanes of a word give the word back: bit i lies in one lane only, at i - lo of the lane that begins at bit
lo. -/
theorem wordOfBytes_laneByte (w : Word) :
    wordOfBytes (laneByte w 0) (laneByte w 1) (laneByte w 2) (laneByte w 3) = w := by
  apply BitVec.eq_of_getLsbD_eq
  intro i hi
  simp only [wordOfBytes, laneByte, BitVec.getLsbD_or, getLsbD_placeField, BitVec.getLsbD_extractLsb']
  grind

theorem laneByte_wordOfBlock (b : Block) (j t : Fin 4) :
    laneByte (wordOfBlock b j) t.val = b[4 * j.val + t.val] := by
  obtain ⟨h0, h1, h2, h3⟩ :=
    laneByte_wordOfBytes b[4 * j.val] b[4 * j.val + 1] b[4 * j.val + 2] b[4 * j.val + 3]
  match t with
  | 0 => exact h0
  | 1 => exact h1
  | 2 => exact h2
  | 3 => exact h3

/-- Writing the words that a block reads as gives the block. -/
theorem blockOfWords_wordOfBlock (b : Block) : blockOfWords (Vector.ofFn fun j => wordOfBlock b j) = b := by
  apply Vector.ext
  intro i hi
  have hlane := laneByte_wordOfBlock b ⟨i / 4, by omega⟩ ⟨i % 4, by omega⟩
  simpa [blockOfWords, Nat.div_add_mod] using hlane

/-- Reading the block in four words gives the words. -/
theorem wordOfBlock_blockOfWords (ws : Vector Word 4) (j : Fin 4) : wordOfBlock (blockOfWords ws) j = ws[j] := by
  have h0 : (blockOfWords ws)[4 * j.val] = laneByte ws[j] 0 := getElem_blockOfWords ws j (t := 0) (by decide)
  rw [wordOfBlock, h0, getElem_blockOfWords ws j (by decide), getElem_blockOfWords ws j (by decide),
    getElem_blockOfWords ws j (by decide), wordOfBytes_laneByte]

/-- Settles O44. -/
theorem byteLanesAreBigEndian : Obligations.ByteLanesAreBigEndian :=
  ⟨fun ws j t => getElem_blockOfWords ws j t.isLt, getElem_keyBytesOfWords, blockOfWords_wordOfBlock,
    wordOfBlock_blockOfWords⟩

end Sys2Proof.Machine
end

