-- ==== Sys2Proof/Proofs/Encoding.lean ====
section
/-! The encoder and the decoder are inverse, the decoder is the opcode map, and what an ILLEGAL word does (R80 to R88). -/

namespace Sys2Proof

/-! ## Encoding a decoded command (R80, R83) -/

@[simp] theorem dirBit_dirOfBit (b : Bool) : dirBit (dirOfBit b) = BitVec.ofBool b := by cases b <;> rfl

@[simp] theorem fitsLengthField_lenaField (c : Word) : fitsLengthField (lenaField c) = true :=
  decide_eq_true (BitVec.isLt _)

@[simp] theorem fitsLengthField_lenbField (c : Word) : fitsLengthField (lenbField c) = true :=
  decide_eq_true (BitVec.isLt _)

/-- A word whose reserved bits are 0 is the pack of its fields: each bit below 24 lies in one of them. -/
theorem packWord_fields {c : Word} (h0 : rsv0Field c = false) (h1 : rsv1Field c = 0#8) :
    packWord (opField c) (modeField c) (BitVec.ofBool (dirField c)) (lenaField c) (lenbField c) = c := by
  have hhigh (i : Nat) (hlo : 24 ≤ i) (hhi : i < 32) : c.getLsbD i = false := by
    obtain ⟨j, rfl⟩ := Nat.exists_eq_add_of_le hlo
    have hj : j < 8 := by omega
    simpa [rsv1Field, BitVec.getLsbD_extractLsb', hj, -BitVec.getLsbD_eq_getElem] using
      congrArg (BitVec.getLsbD · j) h1
  apply BitVec.eq_of_getLsbD_eq
  intro i hi
  rw [getLsbD_packWord _ _ _ _ _ _ hi]
  simp only [opField, modeField, dirField, lenaField, lenbField, BitVec.ofNat_toNat, BitVec.setWidth_eq,
    BitVec.getLsbD_extractLsb', BitVec.getLsbD_ofBool]
  simp only [rsv0Field] at h0
  grind

/-- Each field of the packed word is read back, and no field that must be 0 is another value. -/
theorem decode_encode {i : Instr} (h : i.wellFormed = true) : decode (encode i) = .legal i := by
  cases i <;>
    simp_all [Instr.wellFormed, fitsLengthField, decode, encode, lenaField_packWord, lenbField_packWord,
      -BitVec.getLsbD_eq_getElem]

/-- A word that decodes as a command has its reserved bits 0, and the command keeps its other fields: in each branch
the fields that the command has no operand for have the values it is encoded with. -/
theorem fields_of_decode {c : Word} {i : Instr} (h : decode c = .legal i) :
    rsv0Field c = false ∧ rsv1Field c = 0#8 ∧ i.wellFormed = true ∧
      encode i = packWord (opField c) (modeField c) (BitVec.ofBool (dirField c)) (lenaField c) (lenbField c) := by
  have ofNat {n : Nat} {x : BitVec n} {k : Nat} (hx : x.toNat = k) : x = BitVec.ofNat n k :=
    (BitVec.toNat_eq_nat.1 hx).2
  unfold decode at h
  split at h
  · cases h
  next hres =>
    rw [not_or, not_ne_iff, Bool.not_eq_true] at hres
    refine ⟨hres.2, hres.1, ?_⟩
    split at h
    case h_1 hop | h_2 hop | h_3 hop | h_5 hop =>
      split at h
      · cases h
      · cases h
        simp_all [Instr.wellFormed, encode, ofNat hop]
    case h_4 hop =>
      split at h
      case h_4 => cases h
      all_goals
        rename_i hmode
        cases h
        simp [Instr.wellFormed, encode, ofNat hop, ofNat hmode]
    case h_6 => cases h

theorem wellFormed_and_encode_of_decode {c : Word} {i : Instr} (h : decode c = .legal i) :
    i.wellFormed = true ∧ encode i = c := by
  obtain ⟨h0, h1, hwf, henc⟩ := fields_of_decode h
  exact ⟨hwf, henc.trans (packWord_fields h0 h1)⟩

theorem decode_eq_legal_iff {c : Word} {i : Instr} :
    decode c = .legal i ↔ i.wellFormed = true ∧ encode i = c :=
  ⟨wellFormed_and_encode_of_decode, fun ⟨hwf, henc⟩ => henc ▸ decode_encode hwf⟩

/-- Settles O28: `decode_encode`, and `fields_of_decode` for the other way. -/
theorem decodeAndEncodeAgree : Obligations.DecodeAndEncodeAgree :=
  ⟨fun _ => decode_encode, fun _ _ => wellFormed_and_encode_of_decode⟩

/-! ## The rows of the opcode map (R86) -/

/-- What a mask keeps of a field is the field. -/
theorem extract_of_and {c mask w : Word} (h : c &&& mask = w) (lo n : Nat)
    (hm : mask.extractLsb' lo n = BitVec.allOnes n) : c.extractLsb' lo n = w.extractLsb' lo n := by
  rw [← h, BitVec.extractLsb'_and, hm, BitVec.and_allOnes]

theorem getLsbD_of_and {c mask w : Word} (h : c &&& mask = w) (i : Nat) (hm : mask.getLsbD i = true) :
    c.getLsbD i = w.getLsbD i := by
  rw [← h, BitVec.getLsbD_and, hm, Bool.and_true]

/-- A word whose OP, MODE, RSV0 and RSV1 are those of a packed word is packed from them and its other fields. -/
theorem packWord_of_and_mode {op : BitVec 4} {md : BitVec 2} {c : Word}
    (h : c &&& 0xFF0000BF#32 = packWord op md 0#1 0 0) :
    packWord op md (BitVec.ofBool (dirField c)) (lenaField c) (lenbField c) = c := by
  have hop : opField c = op := (extract_of_and h 0 4 rfl).trans (opField_packWord ..)
  have hmode : modeField c = md := (extract_of_and h 4 2 rfl).trans (modeField_packWord ..)
  have hrsv0 : rsv0Field c = false := (getLsbD_of_and h 7 rfl).trans (rsv0Field_packWord ..)
  have hrsv1 : rsv1Field c = 0#8 := (extract_of_and h 24 8 rfl).trans (rsv1Field_packWord ..)
  rw [← hop, ← hmode, packWord_fields hrsv0 hrsv1]

/-- The mask of MODE_INIT keeps no bit of DIR, LENA and LENB. -/
theorem packWord_and_mode_eq (op : BitVec 4) (md : BitVec 2) (dir : BitVec 1) (a b : Nat) :
    packWord op md dir a b &&& 0xFF0000BF#32 = packWord op md 0#1 0 0 := by
  rw [Laws.EncodeInRow.packWord_and_mode]
  simp [packWord, placeField]

/-- The match bits under a mask that keeps more than that of MODE_INIT. -/
theorem and_mode_of_and {op : BitVec 4} {md : BitVec 2} {mask c : Word} (h : c &&& mask = packWord op md 0#1 0 0)
    (hm : mask &&& 0xFF0000BF#32 = 0xFF0000BF#32) : c &&& 0xFF0000BF#32 = packWord op md 0#1 0 0 := by
  rw [← hm, ← BitVec.and_assoc, h, packWord_and_mode_eq]

theorem fitsLengthField_iff (n : Nat) : fitsLengthField n = true ↔ n < 256 := decide_eq_true_iff

theorem dirBit_eq_ofBool_dirField_iff (c : Word) (d : Dir) :
    dirBit d = BitVec.ofBool (dirField c) ↔ (d = .decrypt ↔ c.getLsbD 6 = true) := by
  rw [dirField]
  cases d <;> cases c.getLsbD 6 <;> decide

/-- The words of a MODE_INIT row: the match bits are the word without DIR and operands. -/
theorem packWord_eq_iff_mode (op : BitVec 4) (md : BitVec 2) (d : Dir) (a b : Nat) (c : Word) :
    ((fitsLengthField a && fitsLengthField b) = true ∧ packWord op md (dirBit d) a b = c) ↔
      c &&& 0xFF0000BF#32 = packWord op md 0#1 0 0 ∧ (d = .decrypt ↔ c.getLsbD 6 = true) ∧
        a = lenaField c ∧ b = lenbField c := by
  rw [← dirBit_eq_ofBool_dirField_iff]
  constructor
  · rintro ⟨hfit, rfl⟩
    rw [Bool.and_eq_true, fitsLengthField_iff, fitsLengthField_iff] at hfit
    exact ⟨packWord_and_mode_eq .., by cases d <;> simp [dirBit], (lenaField_packWord _ _ _ _ _ hfit.1).symm,
      (lenbField_packWord _ _ _ _ _ hfit.2).symm⟩
  · rintro ⟨h, hdir, rfl, rfl⟩
    exact ⟨by simp, by rw [hdir, packWord_of_and_mode h]⟩

/-- The words of the rows of ENCRYPT, DECRYPT and PROCESS, where DIR is 0. -/
theorem packWord_eq_iff_fixed (op : BitVec 4) (md : BitVec 2) (a b : Nat) (c : Word) :
    ((fitsLengthField a && fitsLengthField b) = true ∧ packWord op md 0#1 a b = c) ↔
      c &&& 0xFF0000FF#32 = packWord op md 0#1 0 0 ∧ a = lenaField c ∧ b = lenbField c := by
  constructor
  · rintro ⟨hfit, rfl⟩
    rw [Bool.and_eq_true, fitsLengthField_iff, fitsLengthField_iff] at hfit
    refine ⟨?_, (lenaField_packWord _ _ _ _ _ hfit.1).symm, (lenbField_packWord _ _ _ _ _ hfit.2).symm⟩
    rw [Laws.EncodeInRow.packWord_and_fixed]
    simp [packWord, placeField]
  · rintro ⟨h, rfl, rfl⟩
    have hdir : dirField c = false := (getLsbD_of_and h 6 rfl).trans (dirField_packWord ..)
    have hc := packWord_of_and_mode (and_mode_of_and h rfl)
    rw [hdir] at hc
    exact ⟨by simp, hc⟩

/-- The words of the row of SET_KEY, where LENB too is 0. -/
theorem packWord_eq_iff_key (op : BitVec 4) (md : BitVec 2) (a : Nat) (c : Word) :
    (fitsLengthField a = true ∧ packWord op md 0#1 a 0 = c) ↔
      c &&& 0xFFFF00FF#32 = packWord op md 0#1 0 0 ∧ a = lenaField c := by
  constructor
  · rintro ⟨hfit, rfl⟩
    refine ⟨?_, (lenaField_packWord _ _ _ _ _ ((fitsLengthField_iff a).1 hfit)).symm⟩
    rw [Laws.EncodeInRow.packWord_and_key]
    simp [packWord, placeField]
  · rintro ⟨h, rfl⟩
    have hdir : dirField c = false := (getLsbD_of_and h 6 rfl).trans (dirField_packWord ..)
    have hlenb : lenbField c = 0 := congrArg BitVec.toNat ((extract_of_and h 16 8 rfl).trans (lenbBits_packWord ..))
    have hc := packWord_of_and_mode (and_mode_of_and h rfl)
    rw [hdir, hlenb] at hc
    exact ⟨by simp, hc⟩

section
variable (c : Word) (d : Dir) (a b : Nat)

theorem decode_eq_setKey_iff :
    decode c = .legal (.setKey a) ↔ c &&& 0xFFFF00FF#32 = 0x00000001#32 ∧ a = lenaField c :=
  decode_eq_legal_iff.trans (packWord_eq_iff_key 1#4 0#2 a c)

theorem decode_eq_encrypt_iff :
    decode c = .legal (.encrypt a b) ↔
      c &&& 0xFF0000FF#32 = 0x00000002#32 ∧ a = lenaField c ∧ b = lenbField c :=
  decode_eq_legal_iff.trans (packWord_eq_iff_fixed 2#4 0#2 a b c)

theorem decode_eq_decrypt_iff :
    decode c = .legal (.decrypt a b) ↔
      c &&& 0xFF0000FF#32 = 0x00000003#32 ∧ a = lenaField c ∧ b = lenbField c :=
  decode_eq_legal_iff.trans (packWord_eq_iff_fixed 3#4 0#2 a b c)

theorem decode_eq_modeInitEcb_iff :
    decode c = .legal (.modeInitEcb d a b) ↔
      c &&& 0xFF0000BF#32 = 0x00000004#32 ∧ (d = .decrypt ↔ c.getLsbD 6 = true) ∧
        a = lenaField c ∧ b = lenbField c :=
  decode_eq_legal_iff.trans (packWord_eq_iff_mode 4#4 0#2 d a b c)

theorem decode_eq_modeInitCbc_iff :
    decode c = .legal (.modeInitCbc d a b) ↔
      c &&& 0xFF0000BF#32 = 0x00000014#32 ∧ (d = .decrypt ↔ c.getLsbD 6 = true) ∧
        a = lenaField c ∧ b = lenbField c :=
  decode_eq_legal_iff.trans (packWord_eq_iff_mode 4#4 1#2 d a b c)

theorem decode_eq_modeInitCtr_iff :
    decode c = .legal (.modeInitCtr d a b) ↔
      c &&& 0xFF0000BF#32 = 0x00000024#32 ∧ (d = .decrypt ↔ c.getLsbD 6 = true) ∧
        a = lenaField c ∧ b = lenbField c :=
  decode_eq_legal_iff.trans (packWord_eq_iff_mode 4#4 2#2 d a b c)

theorem decode_eq_process_iff :
    decode c = .legal (.process a b) ↔
      c &&& 0xFF0000FF#32 = 0x00000005#32 ∧ a = lenaField c ∧ b = lenbField c :=
  decode_eq_legal_iff.trans (packWord_eq_iff_fixed 5#4 0#2 a b c)

end

theorem decode_legal_or_illegal (c : Word) : (∃ i, decode c = .legal i) ∨ ∃ why, decode c = .illegal why := by
  cases decode c with
  | legal i => exact .inl ⟨i, rfl⟩
  | illegal why => exact .inr ⟨why, rfl⟩

theorem dirOfBit_eq_decrypt_iff (bit : Bool) : dirOfBit bit = .decrypt ↔ bit = true := by
  cases bit <;> simp [dirOfBit]

/-- A row's word decodes as a command with the row's mnemonic. -/
theorem decode_of_covers {r : OpcodeRow} {c : Word} (hr : r ∈ opcodeRows) (hc : r.covers c = true) :
    ∃ i, decode c = .legal i ∧ i.mnemonic = r.mnemonic := by
  have hmask := of_decide_eq_true hc
  have hdir := dirOfBit_eq_decrypt_iff (dirField c)
  simp only [opcodeRows, List.mem_cons, List.not_mem_nil, or_false] at hr
  rcases hr with rfl | rfl | rfl | rfl | rfl | rfl | rfl
  · exact ⟨_, (decode_eq_setKey_iff c _).2 ⟨hmask, rfl⟩, rfl⟩
  · exact ⟨_, (decode_eq_encrypt_iff c _ _).2 ⟨hmask, rfl, rfl⟩, rfl⟩
  · exact ⟨_, (decode_eq_decrypt_iff c _ _).2 ⟨hmask, rfl, rfl⟩, rfl⟩
  · exact ⟨_, (decode_eq_modeInitEcb_iff c _ _ _).2 ⟨hmask, hdir, rfl, rfl⟩, rfl⟩
  · exact ⟨_, (decode_eq_modeInitCbc_iff c _ _ _).2 ⟨hmask, hdir, rfl, rfl⟩, rfl⟩
  · exact ⟨_, (decode_eq_modeInitCtr_iff c _ _ _).2 ⟨hmask, hdir, rfl, rfl⟩, rfl⟩
  · exact ⟨_, (decode_eq_process_iff c _ _).2 ⟨hmask, rfl, rfl⟩, rfl⟩

/-- A word that decodes as a command lies in a row. -/
theorem exists_covers_of_decode {c : Word} {i : Instr} (h : decode c = .legal i) :
    ∃ r ∈ opcodeRows, r.covers c = true := by
  obtain ⟨-, rfl⟩ := wellFormed_and_encode_of_decode h
  have hrow : Laws.EncodeInRow.Statement i := by
    cases i with
    | setKey keylen => exact Laws.EncodeInRow.setKey keylen
    | encrypt inlen outlen => exact Laws.EncodeInRow.encrypt inlen outlen
    | decrypt inlen outlen => exact Laws.EncodeInRow.decrypt inlen outlen
    | modeInitEcb dir lena lenb => exact Laws.EncodeInRow.modeInitEcb dir lena lenb
    | modeInitCbc dir ivlen lenb => exact Laws.EncodeInRow.modeInitCbc dir ivlen lenb
    | modeInitCtr dir ivlen m => exact Laws.EncodeInRow.modeInitCtr dir ivlen m
    | process inlen outlen => exact Laws.EncodeInRow.process inlen outlen
  obtain ⟨r, hr, -, hc⟩ := hrow
  exact ⟨r, hr, hc⟩

theorem illegal_iff_no_row (c : Word) :
    (∃ why, decode c = .illegal why) ↔ ∀ r ∈ opcodeRows, r.covers c = false := by
  constructor
  · rintro ⟨why, hill⟩ r hr
    rw [Bool.eq_false_iff]
    intro hc
    obtain ⟨i, hlegal, -⟩ := decode_of_covers hr hc
    cases hlegal.symm.trans hill
  · intro hno
    refine (decode_legal_or_illegal c).resolve_left ?_
    rintro ⟨i, hlegal⟩
    obtain ⟨r, hr, hc⟩ := exists_covers_of_decode hlegal
    simp [hno r hr] at hc

/-- The mnemonic names the row, and the decoded command has one mnemonic. -/
theorem row_unique {r q : OpcodeRow} {c : Word} (hr : r ∈ opcodeRows) (hq : q ∈ opcodeRows)
    (hrc : r.covers c = true) (hqc : q.covers c = true) : r = q := by
  have named : ∀ r ∈ opcodeRows, ∀ q ∈ opcodeRows, r.mnemonic = q.mnemonic → r = q := by decide
  obtain ⟨i, hi, hir⟩ := decode_of_covers hr hrc
  obtain ⟨j, hj, hjq⟩ := decode_of_covers hq hqc
  cases hi.symm.trans hj
  exact named r hr q hq (hir.symm.trans hjq)

/-- Settles O29: the rows one by one, then what they have to do with each other. -/
theorem opcodeMapIsTheDecoder : Obligations.OpcodeMapIsTheDecoder := fun c =>
  ⟨fun d a b => ⟨decode_eq_setKey_iff c a, decode_eq_encrypt_iff c a b, decode_eq_decrypt_iff c a b,
      decode_eq_modeInitEcb_iff c d a b, decode_eq_modeInitCbc_iff c d a b, decode_eq_modeInitCtr_iff c d a b,
      decode_eq_process_iff c a b⟩,
    illegal_iff_no_row c, fun _ hr _ hq => row_unique hr hq⟩

/-! ## The common encodings (R87) and the assembler (R88) -/

/-- Settles O30: the words are evaluated, and they decode by `decode_encode`. -/
theorem commonEncodings : Obligations.CommonEncodings := by
  have both {rows : List (Instr × Word)} (h : ∀ p ∈ rows, p.1.wellFormed = true ∧ encode p.1 = p.2) :
      ∀ p ∈ rows, encode p.1 = p.2 ∧ decode p.2 = .legal p.1 := fun p hp =>
    ⟨(h p hp).2, decode_eq_legal_iff.2 (h p hp)⟩
  exact ⟨both (by decide), both (by decide), by decide, by decide⟩

theorem placeField_ofNat {n : Nat} (h : n < 256) (lo : Nat) :
    placeField (BitVec.ofNat 8 n) lo = BitVec.ofNat 32 n <<< lo := by
  rw [placeField, BitVec.setWidth_ofNat_of_le_of_lt (by decide) h]

end Sys2Proof

namespace Sys2Proof.Machine

theorem placeField_dirBit (d : Dir) : placeField (dirBit d) 6 = asmDir d <<< 6 := by cases d <;> rfl

/-- Settles O32: LENA, LENB and DIR of a packed word are the shifts of the formulas, its other fields are constants. -/
theorem assemblerWritesTheEncoding : Obligations.AssemblerWritesTheEncoding := by
  intro d a b ha hb
  have hlena := placeField_ofNat ha 8
  have hlenb := placeField_ofNat hb 16
  refine ⟨?_, ?_, ?_, ?_, ?_, ?_, ?_⟩ <;>
    simp only [asmWord, encode, packWord, hlena, hlenb, placeField_dirBit] <;> simp [placeField]

/-! ## ILLEGAL words (R82, R85) -/

theorem writeNext_of_cmdWriteNext {v : Word} {rest : List PortEvent} {s : State} (h : CmdWriteNext v rest s) :
    WriteNext .cmd v rest s := by
  obtain ⟨⟨addr, size, op⟩, harr, hcmd, hop⟩ := h
  obtain ⟨hsize, haddr, -⟩ := (isCmdWrite_iff _).1 hcmd
  cases hop
  cases hsize
  cases haddr
  exact harr

/-- The word of a command has an assigned OP, and MODE = 3 only with an OP other than MODE_INIT's. -/
theorem encode_fields (i : Instr) :
    ((opField (encode i)).toNat ≠ 0 ∧ (opField (encode i)).toNat < 6) ∧
      ((opField (encode i)).toNat = 4 → (modeField (encode i)).toNat ≠ 3) ∧
      rsv0Field (encode i) = false ∧ rsv1Field (encode i) = 0#8 := by
  cases i <;> simp [encode]

/-- Settles O31: a decoded word is a command's word, which has none of the ILLEGAL fields; then the acceptance and the
completion. -/
theorem illegalWordsFailAndChangeNothing : Obligations.IllegalWordsFailAndChangeNothing := by
  refine ⟨fun c hc => ?_, fun s v rest hb hw => ?_, fun s why hd => ?_⟩
  · refine (decode_legal_or_illegal c).resolve_left ?_
    rintro ⟨i, hlegal⟩
    obtain ⟨-, rfl⟩ := wellFormed_and_encode_of_decode hlegal
    obtain ⟨⟨h0, h6⟩, hmode, hrsv0, hrsv1⟩ := encode_fields i
    rcases hc with h | h | ⟨h4, h3⟩ | h | h
    · exact h0 h
    · omega
    · exact hmode h4 h3
    · simp [hrsv0] at h
    · exact h hrsv1
  · exact ⟨_, step_cmdWrite_idle (writeNext_of_cmdWriteNext hw) hb, rfl, rfl⟩
  · rw [completeCommand, hd]
    rfl

end Sys2Proof.Machine
end

