-- ==== Sys2Proof/Proofs/StagingLines.lean ====
section
/-! The pseudo-instructions that load the staging registers, as runs of writes (R89). -/

namespace Sys2Proof.Machine

/-! ## Runs of staging writes (R89) -/

/-- A group of staging registers: its registers, its words in the state, and the state after one of its writes with
the words given (R23 to R25). -/
structure StagingGroup (m : Nat) where
  reg : Fin m → WindowReg
  words : State → Vector Word m
  load : Vector Word m → State → State
  reg_ne_cmd : ∀ j, reg j ≠ .cmd
  words_load : ∀ ws s, words (load ws s) = ws
  load_load : ∀ ws ws' s, load ws (load ws' s) = load ws s
  write : ∀ j v rest s, withAnswer .written (writeReg (reg j) v (withArrivals rest s)) =
    withArrivals rest (load ((words s).set j v) s)

/-- KEY (R23). -/
def keyGroup : StagingGroup 8 where
  reg := .key
  words := State.key
  load ws s := { s with key := ws, answer := .written }
  reg_ne_cmd _ := nofun
  words_load _ _ := rfl
  load_load _ _ _ := rfl
  write _ _ _ _ := rfl

/-- IV (R24). -/
def ivGroup : StagingGroup 4 where
  reg := .iv
  words := State.iv
  load ws s := { s with iv := ws, answer := .written }
  reg_ne_cmd _ := nofun
  words_load _ _ := rfl
  load_load _ _ _ := rfl
  write _ _ _ _ := rfl

/-- DIN (R25). -/
def dinGroup : StagingGroup 4 where
  reg := .din
  words := State.din
  load ws s := { s with din := ws, answer := .written }
  reg_ne_cmd _ := nofun
  words_load _ _ := rfl
  load_load _ _ _ := rfl
  write _ _ _ _ := rfl

/-- The words with those at the places of a list replaced, in its order. -/
def setWords {m : Nat} (f : Fin m → Word) (l : List (Fin m)) (ws : Vector Word m) : Vector Word m :=
  l.foldl (fun ws j => ws.set j.val (f j)) ws

theorem getElem_setWords {m : Nat} (f : Fin m → Word) (l : List (Fin m)) (ws : Vector Word m) (i : Fin m) :
    (setWords f l ws)[i] = if i ∈ l then f i else ws[i] := by
  induction l generalizing ws with
  | nil => rfl
  | cons j l ih =>
    rw [setWords, List.foldl_cons, ← setWords, ih]
    by_cases hij : i = j
    · simp [hij]
    · have hne : j.val ≠ i.val := fun h => hij (Fin.ext h.symm)
      simp [hij, Vector.getElem_set_ne _ _ hne]

theorem run_succ_of_core (M : Host.Core) {s t : M.State} (h : M.step s = .next t) (k : Nat) :
    M.run (k + 1) s = M.run k t := by
  simp only [Host.Core.run, h]

/-- A step that answers a next state is the first of a run. -/
theorem run_succ {s t : State} (h : step s = .next t) (k : Nat) :
    Sys2Proof.core.run (k + 1) s = Sys2Proof.core.run k t :=
  run_succ_of_core Sys2Proof.core h k

/-- A run of writes to a group of staging registers, at any time: each takes place in its step, and nothing else of the
engine changes. -/
theorem StagingGroup.run_writes {m : Nat} (g : StagingGroup m) (f : Fin m → Word) (rest : List PortEvent)
    {l : List (Fin m)} (hl : l ≠ []) (s : State) :
    Sys2Proof.core.run l.length (withArrivals (l.map (fun j => memWrite (g.reg j) (f j)) ++ rest) s) =
      .next (withArrivals rest (g.load (setWords f l (g.words s)) s)) := by
  have first (es : List PortEvent) (j : Fin m) (s : State) :
      step (withArrivals (memWrite (g.reg j) (f j) :: es) s) =
        .next (withArrivals es (g.load ((g.words s).set j (f j)) s)) :=
    (step_of_writeNext (withArrivals_arrivals _ _) (g.reg_ne_cmd j)).trans (congrArg _ (g.write j (f j) es s))
  induction l generalizing s with
  | nil => exact absurd rfl hl
  | cons j l ih =>
    refine (run_succ (first _ j s) _).trans ?_
    cases l with
    | nil => rfl
    | cons i l =>
      have hload : g.load (setWords f (i :: l) (g.words (g.load ((g.words s).set j (f j)) s)))
          (g.load ((g.words s).set j (f j)) s) = g.load (setWords f (j :: i :: l) (g.words s)) s := by
        rw [g.words_load, g.load_load]
        rfl
      exact (ih (List.cons_ne_nil i l) _).trans (hload ▸ rfl)

theorem mem_take_finRange {m k : Nat} (j : Fin m) : j ∈ (List.finRange m).take k ↔ j.val < k := by
  rw [List.mem_take_iff_getElem]
  constructor
  · rintro ⟨i, hi, rfl⟩
    simp at hi ⊢
    omega
  · intro h
    exact ⟨j.val, by simp [h], by simp⟩

theorem blockOfWords_setWords (b : Block) (ws : Vector Word 4) :
    blockOfWords (setWords (wordOfBlock b) (List.finRange 4) ws) = b := by
  have hall : setWords (wordOfBlock b) (List.finRange 4) ws = Vector.ofFn (wordOfBlock b) := by
    apply Vector.ext
    intro i hi
    have hget := getElem_setWords (wordOfBlock b) (List.finRange 4) ws ⟨i, hi⟩
    simpa using hget
  rw [hall, blockOfWords_wordOfBlock]

/-- The word that LDKEY writes to KEY[j] (R89). -/
def keyRegWord (key : Vector Byte 32) (j : Fin 8) : Word :=
  wordOfBytes key[4 * j.val] key[4 * j.val + 1] key[4 * j.val + 2] key[4 * j.val + 3]

theorem keyWrite_eq (key : Vector Byte 32) :
    keyWrite key = fun j => memWrite (keyGroup.reg j) (keyRegWord key j) := rfl

theorem laneByte_keyRegWord (key : Vector Byte 32) (j : Fin 8) (t : Fin 4) :
    laneByte (keyRegWord key j) t.val = key[4 * j.val + t.val] := by
  obtain ⟨h0, h1, h2, h3⟩ :=
    laneByte_wordOfBytes key[4 * j.val] key[4 * j.val + 1] key[4 * j.val + 2] key[4 * j.val + 3]
  match t with
  | 0 => exact h0
  | 1 => exact h1
  | 2 => exact h2
  | 3 => exact h3

theorem keyBytesOfWords_setWords (key : Vector Byte 32) (k : Nat) (ws : Vector Word 8) (i : Fin 32)
    (hi : i.val < 4 * k) :
    (keyBytesOfWords (setWords (keyRegWord key) ((List.finRange 8).take k) ws))[i] = key[i] := by
  obtain ⟨j, t, hjt⟩ : ∃ (j : Fin 8) (t : Fin 4), 4 * j.val + t.val = i.val :=
    ⟨⟨i.val / 4, by omega⟩, ⟨i.val % 4, by omega⟩, by simp only; omega⟩
  have hj : j ∈ (List.finRange 8).take k := (mem_take_finRange j).2 (by omega)
  have hbyte := getElem_keyBytesOfWords (setWords (keyRegWord key) ((List.finRange 8).take k) ws) j t
  rw [getElem_setWords, if_pos hj, laneByte_keyRegWord] at hbyte
  simpa [hjt] using hbyte

/-- Settles O33: each pseudo-instruction is a run of writes to its group, and the words it leaves are those of the
list of writes. -/
theorem stagingPseudoInstructionsLoadTheirBytes : Obligations.StagingPseudoInstructionsLoadTheirBytes := by
  intro s rest b n key
  have hfour : List.finRange 4 ≠ [] := by decide
  refine ⟨⟨_, dinGroup.run_writes (wordOfBlock b) rest hfour s, blockOfWords_setWords b s.din, rfl⟩,
    ⟨_, ivGroup.run_writes (wordOfBlock b) rest hfour s, blockOfWords_setWords b s.iv, rfl⟩, ?ldkey⟩
  case ldkey =>
    have hlen : ((List.finRange 8).take (keyWordCount n)).length = keyWordCount n := by
      simpa using keyWordCount_le n
    have hne : (List.finRange 8).take (keyWordCount n) ≠ [] := by
      rw [← List.length_pos_iff, hlen]
      exact keyWordCount_pos n
    have hrun := keyGroup.run_writes (keyRegWord key) rest hne s
    rw [hlen, ← keyWrite_eq] at hrun
    refine ⟨_, hrun, keyBytesOfWords_setWords key (keyWordCount n) s.key, fun j hj => ?_, rfl⟩
    exact (getElem_setWords ..).trans (if_neg (by rw [mem_take_finRange]; omega))

end Sys2Proof.Machine
end

