-- ==== Sys2Proof/Proofs/Field.lean ====
section
/-! The bytes under XOR and gmul are a field, and gpow and ginv are its powers and inverses (R101 to R106).

Every byte comes from 0x01 by XOR and doubling, and gmul commutes with both in each of its arguments; the laws of gmul
are inductions over how a byte is made. -/

namespace Sys2Proof.Machine

/-! ## What respects XOR and doubling -/

theorem xor_xor_xor_cancel (a b c : Byte) : a ^^^ c ^^^ (b ^^^ c) = a ^^^ b := by
  rw [BitVec.xor_comm b c, BitVec.xor_assoc, ← BitVec.xor_assoc c c, BitVec.xor_self, BitVec.zero_xor]

theorem xtime_xor (a b : Byte) : xtime (a ^^^ b) = xtime a ^^^ xtime b := by
  cases ha : a.getLsbD 7 <;> cases hb : b.getLsbD 7 <;>
    simp [xtime, ha, hb, BitVec.shiftLeft_xor_distrib, xor_xor_xor_cancel, -BitVec.getLsbD_eq_getElem] <;> ac_rfl

theorem gmulLoop_xor_left (y : Byte) (n i : Nat) (acc acc' p p' : Byte) :
    gmulLoop y n i (acc ^^^ acc') (p ^^^ p') = gmulLoop y n i acc p ^^^ gmulLoop y n i acc' p' := by
  induction n generalizing i acc acc' p p' with
  | zero => rfl
  | succ n ih =>
    simp only [gmulLoop, xtime_xor, ← ih]
    split
    · rw [show acc ^^^ acc' ^^^ (p ^^^ p') = acc ^^^ p ^^^ (acc' ^^^ p') by ac_rfl]
    · rfl

theorem gmulLoop_xor_right (y y' : Byte) (n i : Nat) (acc acc' p : Byte) :
    gmulLoop (y ^^^ y') n i (acc ^^^ acc') p = gmulLoop y n i acc p ^^^ gmulLoop y' n i acc' p := by
  induction n generalizing i acc acc' p with
  | zero => rfl
  | succ n ih =>
    simp only [gmulLoop, ← ih, BitVec.getLsbD_xor]
    congr 1
    cases y.getLsbD i <;> cases y'.getLsbD i <;> simp [xor_xor_xor_cancel] <;> ac_rfl

theorem gmulLoop_xtime (y : Byte) (n i : Nat) (acc p : Byte) :
    gmulLoop y n i (xtime acc) (xtime p) = xtime (gmulLoop y n i acc p) := by
  induction n generalizing i acc p with
  | zero => rfl
  | succ n ih =>
    simp only [gmulLoop, ← ih, apply_ite xtime, xtime_xor]

theorem gmul_xor_left (a b c : Byte) : gmul (a ^^^ b) c = gmul a c ^^^ gmul b c :=
  gmulLoop_xor_left c 8 0 0#8 0#8 a b

theorem gmul_xor_right (a b c : Byte) : gmul a (b ^^^ c) = gmul a b ^^^ gmul a c :=
  gmulLoop_xor_right b c 8 0 0#8 0#8 a

theorem gmul_xtime_left (a b : Byte) : gmul (xtime a) b = xtime (gmul a b) :=
  gmulLoop_xtime b 8 0 0#8 a

@[simp] theorem gmul_one_right (a : Byte) : gmul a 0x01#8 = a := by
  simp [gmul, gmulLoop]

/-- Evaluated at each byte: the product adds up the powers of x at the bits of a. -/
@[simp] theorem gmul_one_left (a : Byte) : gmul 0x01#8 a = a := by
  revert a
  decide +kernel

/-- R101: doubling is the product with 0x02. -/
theorem xtime_eq_gmul_two (a : Byte) : xtime a = gmul a 0x02#8 := by
  simp [gmul, gmulLoop]

/-! ## The laws (R106) -/

/-- The loop only adds and doubles, so what is closed under both holds of its result. -/
theorem gmulLoop_induction {P : Byte → Prop} (xor : ∀ a b, P a → P b → P (a ^^^ b))
    (double : ∀ a, P a → P (xtime a)) (y : Byte) (n i : Nat) {acc p : Byte} (hacc : P acc) (hp : P p) :
    P (gmulLoop y n i acc p) := by
  induction n generalizing i acc p with
  | zero => exact hacc
  | succ n ih =>
    refine ih (i + 1) ?_ (double p hp)
    split
    · exact xor acc p hacc hp
    · exact hacc

/-- Every byte is made from 0x01 by XOR and doubling: it is its own product with 0x01. -/
theorem byte_induction {P : Byte → Prop} (one : P 0x01#8) (xor : ∀ a b, P a → P b → P (a ^^^ b))
    (double : ∀ a, P a → P (xtime a)) (a : Byte) : P a := by
  have zero : P 0x00#8 := xor _ _ one one
  exact gmul_one_left a ▸ gmulLoop_induction xor double a 8 0 zero one

theorem gmul_xtime_right (a b : Byte) : gmul a (xtime b) = xtime (gmul a b) := by
  induction a using byte_induction with
  | one => simp
  | xor a a' ha ha' => simp [gmul_xor_left, xtime_xor, ha, ha']
  | double a ha => simp [gmul_xtime_left, ha]

theorem gmul_comm (a b : Byte) : gmul a b = gmul b a := by
  induction a using byte_induction with
  | one => simp
  | xor a a' ha ha' => simp [gmul_xor_left, gmul_xor_right, ha, ha']
  | double a ha => simp [gmul_xtime_left, gmul_xtime_right, ha]

theorem gmul_assoc (a b c : Byte) : gmul (gmul a b) c = gmul a (gmul b c) := by
  induction a using byte_induction with
  | one => simp
  | xor a a' ha ha' => simp [gmul_xor_left, ha, ha']
  | double a ha => simp [gmul_xtime_left, ha]

@[simp] theorem gmul_zero_left (a : Byte) : gmul 0x00#8 a = 0x00#8 := by
  simpa using gmul_xor_left a a a

/-! ## Powers (R103) -/

/-- The turn of the loop: the square to the power k is the power 2k. -/
theorem iterate_gmul_gmul_self (b : Byte) (k : Nat) :
    (gmul (gmul b b))^[k] 0x01#8 = (gmul b)^[2 * k] 0x01#8 := by
  have hsq : gmul (gmul b b) = (gmul b)^[2] := funext fun c => gmul_assoc b b c
  rw [hsq, Function.iterate_mul]

/-- With fuel enough, the loop multiplies r by the power of b. -/
theorem gpowLoop_eq {fuel e : Nat} (h : e ≤ fuel) (r b : Byte) :
    gpowLoop fuel e r b = gmul r ((gmul b)^[e] 0x01#8) := by
  induction fuel generalizing e r b with
  | zero =>
    obtain rfl : e = 0 := by omega
    simp [gpowLoop]
  | succ fuel ih =>
    rw [gpowLoop]
    by_cases he : e = 0
    · simp [he]
    rw [if_neg he, ih (by omega), iterate_gmul_gmul_self]
    rcases Nat.even_or_odd' e with ⟨k, rfl | rfl⟩
    · simp
    · have hdiv : (2 * k + 1) / 2 = k := by omega
      simp [hdiv, Function.iterate_succ_apply', gmul_assoc]

/-- Settles O2: `gpowLoop_eq` from 0x01. -/
theorem powerIsRepeatedProduct : Obligations.PowerIsRepeatedProduct := fun a e => by
  rw [gpow, gpowLoop_eq le_rfl, gmul_one_left]

/-! ## The inverse (R104)

A byte to the power 2^8 is the byte: that power respects XOR and gmul, so it is an induction over how the byte is made.
So a^254 is the inverse of a byte that has one. -/

theorem gmul_self_xor (a b : Byte) : gmul (a ^^^ b) (a ^^^ b) = gmul a a ^^^ gmul b b := by
  rw [gmul_xor_left, gmul_xor_right, gmul_xor_right, gmul_comm b a, BitVec.xor_comm (gmul a b), xor_xor_xor_cancel]

theorem iterate_two_pow_xor (n : Nat) (a b : Byte) :
    (gmul (a ^^^ b))^[2 ^ n] 0x01#8 = (gmul a)^[2 ^ n] 0x01#8 ^^^ (gmul b)^[2 ^ n] 0x01#8 := by
  induction n generalizing a b with
  | zero => simp
  | succ n ih => simp only [pow_succ', ← iterate_gmul_gmul_self, gmul_self_xor, ih]

theorem iterate_gmul (e : Nat) (a b : Byte) :
    (gmul (gmul a b))^[e] 0x01#8 = gmul ((gmul a)^[e] 0x01#8) ((gmul b)^[e] 0x01#8) := by
  have : Std.Associative gmul := ⟨gmul_assoc⟩
  have : Std.Commutative gmul := ⟨gmul_comm⟩
  induction e with
  | zero => simp
  | succ e ih =>
    simp only [Function.iterate_succ_apply', ih]
    ac_rfl

theorem iterate_two_pow_eight (a : Byte) : (gmul a)^[2 ^ 8] 0x01#8 = a := by
  induction a using byte_induction with
  | one => exact Function.iterate_fixed (gmul_one_left _) _
  | xor a a' ha ha' => rw [iterate_two_pow_xor, ha, ha']
  | double a ha =>
    have htwo : (gmul 0x02#8)^[2 ^ 8] 0x01#8 = 0x02#8 := by
      rw [← powerIsRepeatedProduct]
      decide +kernel
    rw [xtime_eq_gmul_two, iterate_gmul, ha, htwo]

theorem ginv_eq_of_gmul_eq_one {a b : Byte} (h : gmul a b = 0x01#8) : ginv a = b := by
  have ha : a ≠ 0x00#8 := by
    rintro rfl
    simp at h
  have hpow : gmul a (gmul a (ginv a)) = a := by
    rw [ginv, if_neg ha, powerIsRepeatedProduct, ← Function.iterate_succ_apply' (gmul a),
      ← Function.iterate_succ_apply' (gmul a)]
    exact iterate_two_pow_eight a
  have cancel (c : Byte) : gmul b (gmul a c) = c := by rw [← gmul_assoc, gmul_comm b, h, gmul_one_left]
  calc ginv a = gmul b (gmul b (gmul a (gmul a (ginv a)))) := by rw [cancel, cancel]
    _ = gmul b (gmul a b) := by rw [hpow, gmul_comm b a]
    _ = b := cancel b

/-- Every byte but 0 has an inverse, and the printed S-box shows it: its entry less the affine transform. -/
theorem table40_1_gives_inverse : ∀ x : Byte, x ≠ 0x00#8 →
    table40_1[x.toNat]?.map (fun y => gmul x (invAffine y)) = some 0x01#8 := by
  decide +kernel

theorem gmul_ginv {a : Byte} (h : a ≠ 0x00#8) : gmul a (ginv a) = 0x01#8 := by
  obtain ⟨y, -, hy⟩ := Option.map_eq_some_iff.1 (table40_1_gives_inverse a h)
  rw [ginv_eq_of_gmul_eq_one hy, hy]

theorem ginv_ginv (a : Byte) : ginv (ginv a) = a := by
  by_cases h : a = 0x00#8
  · simp [h, ginv]
  · exact ginv_eq_of_gmul_eq_one (gmul_comm a _ ▸ gmul_ginv h)

/-- Settles O1. -/
theorem fieldLawsOfGmul : Obligations.FieldLawsOfGmul :=
  ⟨gmul_comm, gmul_assoc, fun a => ⟨gmul_one_left a, gmul_one_right a⟩,
    fun a b c => ⟨gmul_xor_right a b c, gmul_xor_left a b c⟩, fun _ => gmul_ginv, xtime_eq_gmul_two⟩

end Sys2Proof.Machine
end

