-- ==== Sys2Proof/Proofs/SBox.lean ====
section
/-! The S-box and its inverse, and the tables printed of them (R110 to R115). -/

namespace Sys2Proof.Machine

/-! ## Inverse permutations (R114) -/

theorem invAffine_affine : ∀ y : Byte, invAffine (affine y) = y := by decide +kernel

theorem affine_invAffine : ∀ x : Byte, affine (invAffine x) = x := by decide +kernel

@[simp] theorem invSbox_sbox (x : Byte) : invSbox (sbox x) = x := by
  rw [invSbox, sbox, invAffine_affine, ginv_ginv]

@[simp] theorem sbox_invSbox (x : Byte) : sbox (invSbox x) = x := by
  rw [sbox, invSbox, ginv_ginv, affine_invAffine]

/-- Settles O3: each S-box is an affine transform and `ginv`, and both are undone. -/
theorem sboxesAreInversePermutations : Obligations.SboxesAreInversePermutations :=
  ⟨invSbox_sbox, sbox_invSbox⟩

/-! ## The printed tables (R36, R111, R113) -/

theorem getElem?_table40_1 (x : Byte) : table40_1[x.toNat]? = some (sbox x) := by
  by_cases h : x = 0x00#8
  · subst h
    rfl
  · obtain ⟨y, hy, hinv⟩ := Option.map_eq_some_iff.1 (table40_1_gives_inverse x h)
    rw [hy, sbox, ginv_eq_of_gmul_eq_one hinv, affine_invAffine]

/-- The printed tables undo each other. -/
theorem table40_1_of_table40_2 : ∀ x : Byte,
    (table40_2[x.toNat]?.bind fun y => table40_1[y.toNat]?) = some x := by
  decide +kernel

theorem getElem?_table40_2 (x : Byte) : table40_2[x.toNat]? = some (invSbox x) := by
  obtain ⟨y, hy, hx⟩ := Option.bind_eq_some_iff.1 (table40_1_of_table40_2 x)
  rw [getElem?_table40_1, Option.some_inj] at hx
  rw [hy, ← hx, invSbox_sbox]

theorem table40_1_no_fixed_point : ∀ x : Byte,
    table40_1[x.toNat]? ≠ some x ∧ table40_1[x.toNat]? ≠ some (x ^^^ 0xFF#8) := by
  decide +kernel

theorem sbox_ne (x : Byte) : sbox x ≠ x ∧ sbox x ≠ x ^^^ 0xFF#8 := by
  simpa only [getElem?_table40_1, ne_eq, Option.some_inj] using table40_1_no_fixed_point x

/-- Settles O4: the tables against the functions, then what the first table shows of S. -/
theorem sboxFunctionsMatchPrintedTables : Obligations.SboxFunctionsMatchPrintedTables :=
  ⟨by decide +kernel, by decide +kernel, fun x => ⟨getElem?_table40_1 x, getElem?_table40_2 x⟩, sbox_ne⟩

end Sys2Proof.Machine
end

