-- ==== Sys2Proof/Proofs/KeySchedule.lean ====
section
/-! The words of the key schedule and what SET_KEY makes of them (R140 to R150). -/

namespace Sys2Proof.Machine

/-! ## The words of the schedule (R144) -/

/-- A word of the schedule is final from the moment it is made. -/
theorem getElem_expandWords_of_le (n : Rounds) (key : Vector Byte 32) {k m : Nat} (hkm : k ≤ m) (i : Nat)
    (h : i < keyWordCount n + k) : (expandWords n key m)[i] = (expandWords n key k)[i] := by
  induction hkm with
  | refl => rfl
  | step hle ih =>
    have hi := Nat.lt_of_lt_of_le h (Nat.add_le_add_left hle _)
    exact (getElem_expandWords_succ n key _ i hi).trans ih

/-- The first Nk + k words of the whole schedule are those of its k-th stage. -/
theorem getElem_keyExpansion {n : Rounds} {k : Nat} (hk : keyWordCount n + k ≤ scheduleLength n)
    (key : Vector Byte 32) (i : Nat) (h : i < keyWordCount n + k) :
    (keyExpansion n key)[i] = (expandWords n key k)[i] := by
  simp only [keyExpansion, Vector.getElem_cast]
  exact getElem_expandWords_of_le n key (by omega) i h

theorem getElem_keyExpansion_first (n : Rounds) (key : Vector Byte 32) {i : Nat} (h : i < scheduleLength n)
    (hi : i < keyWordCount n) : (keyExpansion n key)[i] = (firstWords n key)[i] :=
  getElem_keyExpansion (k := 0) (by have := keyWordCount_add n; omega) key i hi

/-- The recurrence, at word Nk + k (R144). -/
theorem getElem_keyExpansion_add (n : Rounds) (key : Vector Byte 32) {k : Nat}
    (h : keyWordCount n + k < scheduleLength n) :
    (keyExpansion n key)[keyWordCount n + k] =
      keyWordXor (keyExpansion n key)[k]
        (scheduleTemp (keyWordCount n) (keyWordCount n + k) (keyExpansion n key)[keyWordCount n + k - 1]) := by
  have hpos := keyWordCount_pos n
  rw [getElem_keyExpansion (k := k + 1) h key _ (by omega), getElem_expandWords_last,
    getElem_keyExpansion h.le key k (by omega), getElem_keyExpansion h.le key _ (by omega)]

/-! ## The schedule reads the first 4 Nk bytes of the key (R141) -/

/-- Two keys agree on the bytes that the schedule of these rounds reads. -/
def SameKeyBytes (n : Rounds) (a b : Vector Byte 32) : Prop :=
  ∀ i : Fin 32, i.val < 4 * keyWordCount n → a[i] = b[i]

theorem SameKeyBytes.firstWords {n : Rounds} {a b : Vector Byte 32} (h : SameKeyBytes n a b) :
    firstWords n a = firstWords n b := by
  have hn := keyWordCount_le n
  ext i hi t ht : 2
  simp only [Machine.firstWords, Vector.getElem_ofFn]
  exact h ⟨4 * i + t, by omega⟩ (by simp only; omega)

theorem SameKeyBytes.expandWords {n : Rounds} {a b : Vector Byte 32} (h : SameKeyBytes n a b) (k : Nat) :
    expandWords n a k = expandWords n b k := by
  induction k with
  | zero => exact h.firstWords
  | succ k ih => simp only [Machine.expandWords, ih]

theorem SameKeyBytes.keyExpansion {n : Rounds} {a b : Vector Byte 32} (h : SameKeyBytes n a b) :
    keyExpansion n a = keyExpansion n b := by
  simp only [Machine.keyExpansion, h.expandWords]

theorem SameKeyBytes.encryptionKeys {n : Rounds} {a b : Vector Byte 32} (h : SameKeyBytes n a b) (d : Nat) :
    encryptionKeys n a d = encryptionKeys n b d := by
  simp only [Machine.encryptionKeys, h.keyExpansion]

/-! ## The recurrence and its worked example (R144) -/

/-- The key bytes 00 to 0f, then zeros. -/
def countingKey : Vector Byte 32 := Vector.ofFn fun i => if i.val < 16 then BitVec.ofNat 8 i.val else 0x00#8

theorem sameKeyBytes_countingKey {key : Vector Byte 32} (h : ∀ i : Fin 16, key[i.val] = BitVec.ofNat 8 i.val) :
    SameKeyBytes .r10 key countingKey := by
  intro i hi
  have h16 : i.val < 16 := hi
  simpa [countingKey, h16] using h ⟨i.val, h16⟩

theorem keyExpansion_countingKey :
    (keyExpansion .r10 countingKey)[4]? = some #v[0xD6#8, 0xAA#8, 0x74#8, 0xFD#8] ∧
      (keyExpansion .r10 countingKey)[43]? = some #v[0x4D#8, 0x2B#8, 0x30#8, 0xC5#8] := by
  decide +kernel

/-- Settles O5: the words up to Nk, the recurrence behind them, and one evaluated schedule for the examples, since
AES-128 reads the first 16 bytes only. -/
theorem keyExpansionRecurrence : Obligations.KeyExpansionRecurrence := by
  refine ⟨fun n key i h => ⟨fun hi t => ?_, fun hi => ?_⟩, fun key hkey => ?_⟩
  · have hn := keyWordCount_le n
    rw [getElem_keyExpansion_first n key h hi, Vector.getElem?_eq_getElem (by omega)]
    simp [firstWords]
  · obtain ⟨k, rfl⟩ := Nat.exists_eq_add_of_le hi
    simp only [Nat.add_sub_cancel_left]
    exact getElem_keyExpansion_add n key h
  · rw [(sameKeyBytes_countingKey hkey).keyExpansion]
    exact keyExpansion_countingKey

/-! ## SET_KEY (R148, R149) -/

theorem exec_setKey_of_legal {keylen : Nat} {n : Rounds} (h : roundsOfKeyLength keylen = some n) (s : State) :
    exec (.setKey keylen) s = .next (completeSuccess (loadKey n s)) := by
  simp [exec, execSetKey, h]

theorem exec_setKey_of_illegal {keylen : Nat} (h : roundsOfKeyLength keylen = none) (s : State) :
    exec (.setKey keylen) s = .next (raiseFailure .keyLength (invalidateKey s)) := by
  simp [exec, execSetKey, h]

/-- The state with another latched key. -/
def withLkey (key : Vector Byte 32) (s : State) : State := { s with lkey := key }

theorem loadKey_withLkey {n : Rounds} {s : State} {other : Vector Byte 32} (h : SameKeyBytes n other s.lkey) :
    loadKey n (withLkey other s) = withLkey other (loadKey n s) := by
  simp only [loadKey, withLkey, h.encryptionKeys]

/-- Settles O7: the schedule of keylen bytes is the same, and a rejected SET_KEY reads no key byte. -/
theorem setKeyIgnoresBytesPastItsLength : Obligations.SetKeyIgnoresBytesPastItsLength := by
  intro s t keylen other hsame h
  show exec (.setKey keylen) (withLkey other s) = .next (withLkey other t)
  cases ran_of_exec h with
  | keyLoaded _ n _ hlen =>
    obtain rfl := (roundsOfKeyLength_eq_some keylen n).1 hlen
    rw [exec_setKey_of_legal hlen, loadKey_withLkey hsame]
    rfl
  | keyRejected _ _ hlen =>
    rw [exec_setKey_of_illegal hlen]
    rfl

/-- Round key r is the words 4r to 4r + 3 (R145). -/
theorem getElem_roundKeyBlock (n : Rounds) (w : Vector KeyWord (scheduleLength n)) {r : Nat} (h : r ≤ roundCount n)
    (k t : Fin 4) (hw : 4 * r + k.val < scheduleLength n) :
    (roundKeyBlock n w r h)[4 * k.val + t.val] = w[4 * r + k.val][t] := by
  have hdiv : (4 * k.val + t.val) / 4 = k.val := by omega
  have hmod : (4 * k.val + t.val) % 4 = t.val := by omega
  simp [roundKeyBlock, hdiv, hmod]

/-- Settles O6: the key store is that of `loadKey`, whose decryption keys `keyStoreOk_loadKey` describes. -/
theorem setKeyLoadsTheSchedule : Obligations.SetKeyLoadsTheSchedule := by
  intro s n keylen hlegal
  have hlen : keylen = 4 * keyWordCount n := by
    rcases hlegal with ⟨rfl, rfl⟩ | ⟨rfl, rfl⟩ | ⟨rfl, rfl⟩ <;> rfl
  have hbits : (loadKey n s).keyBits.toNat = 8 * keylen := by
    rw [keyBitsOk_loadKey n s, hlen, ← Nat.mul_assoc]
    rfl
  obtain ⟨hfirst, hlast, hmiddle⟩ := keyStoreOk_loadKey n s rfl
  refine ⟨_, exec_setKey_of_legal ((roundsOfKeyLength_eq_some keylen n).2 hlen) s, rfl, ?_, fun r k t' h => ?_,
    hfirst, hlast, hmiddle, hbits, rfl⟩
  · cases n <;> simp [hlen, keyWordCount, roundCount]
  · have hr : r.val ≤ roundCount n := by simp only [scheduleLength] at h; omega
    simp only [completeSuccess_ek, loadKey_ek, getElem_encryptionKeys n s.lkey s.draws r hr]
    exact getElem_roundKeyBlock n _ hr k t' h

/-! ## Without a valid key (R149, R263) -/

/-- With the right lengths the check of the key is the one that fails (R186, R187). -/
theorem blockCommandError_of_no_key {s : State} (h : s.keyValid = false) :
    blockCommandError 16 16 s = some .keyInvalid := by
  simp [blockCommandError, blockLengthsOk, blockBytes, h]

theorem processError_of_no_key {s : State} (h : s.keyValid = false) (hm : s.modeParamsOk = true) :
    processError 16 16 s = some .keyInvalid := by
  simp [processError, blockLengthsOk, blockBytes, h, hm]

theorem exec_process_of_error {a b : Nat} {s : State} {e : ErrCode} (h : processError a b s = some e) :
    exec (.process a b) s = .next (raiseFailure e s) := by
  simp [exec, execProcess, h]

/-- Only a SET_KEY that succeeds makes a key valid (R149). -/
theorem Ran.setKey_of_keyValid {i : Instr} {s t : State} (h : Ran i s t) (hs : s.keyValid = false)
    (ht : t.keyValid = true) : t.fail = false ∧ ∃ keylen, i = .setKey keylen := by
  rcases h.keyStore_cases with ⟨keylen, hi, ⟨hv, -, -⟩ | ⟨n, rfl⟩⟩ | hsame
  · simp [hv] at ht
  · exact ⟨rfl, keylen, hi⟩
  · simp [hsame.keyValid, hs] at ht

/-- Settles O8: the rejected SET_KEY, the checks without a key, and the steps that make a key valid. -/
theorem badKeyLengthInvalidatesTheKey : Obligations.BadKeyLengthInvalidatesTheKey := by
  refine ⟨fun s keylen h16 h24 h32 => ?_, fun s hv => ⟨?_, ?_, fun hm => ?_⟩, fun s t hs h ht => ?_⟩
  · exact ⟨_, exec_setKey_of_illegal ((roundsOfKeyLength_eq_none keylen).2 ⟨h16, h24, h32⟩) s, rfl⟩
  · rw [exec_encrypt, blockCommandError_of_no_key hv]
    rfl
  · rw [exec_decrypt, blockCommandError_of_no_key hv]
    rfl
  · rw [exec_process_of_error (processError_of_no_key hv hm)]
    rfl
  · rcases step_reset_or_ran_or_same h with ⟨-, u, rfl⟩ | ⟨hc, es, i, hd, hr⟩ | hsame
    · simp [State.reset] at ht
    · obtain ⟨hfail, keylen, rfl⟩ := hr.setKey_of_keyValid hs ht
      exact ⟨hc, hfail, keylen, hd⟩
    · simp [hsame.keyValid, hs] at ht

/-! ## The mode state beside SET_KEY (R150) -/

theorem Ran.sameModeState_of_setKey {keylen : Nat} {s t : State} (h : Ran (.setKey keylen) s t) :
    SameModeState s t := by
  cases h with
  | keyLoaded => exact ⟨⟨rfl, rfl, rfl⟩, rfl, rfl⟩
  | keyRejected => exact ⟨⟨rfl, rfl, rfl⟩, rfl, rfl⟩

/-- Settles O9: SET_KEY keeps the mode state, and KEY_VALID after it is its success. -/
theorem setKeyKeepsTheModeState : Obligations.SetKeyKeepsTheModeState := by
  intro s keylen
  obtain ⟨t, ht, hr⟩ := exec_ran (.setKey keylen) s
  obtain ⟨⟨hmode, hdir, hctrM⟩, hok, hcv⟩ := hr.sameModeState_of_setKey
  have hvalid := hr.keyValid_of_setKey
  exact ⟨t, ht, hok, hmode, hdir, hctrM, hcv, fun hf => by simp [modeReady, hvalid, hf],
    fun hf => by simp [modeReady, hvalid, hf, hok]⟩

end Sys2Proof.Machine
end

