-- ==== Sys2Proof/Proofs/RoundTransform.lean ====
section
/-! The steps of a round and how they are undone: the byte steps, the row shifts, the column mixes (R170 to R178). -/

namespace Sys2Proof.Machine

/-! ## AddRoundKey, SubBytes and their inverses (R171 to R173) -/

@[simp] theorem addRoundKey_addRoundKey (s k : Block) : addRoundKey (addRoundKey s k) k = s := by
  ext i hi : 1
  simp

@[simp] theorem invSubBytes_subBytes (s : Block) : invSubBytes (subBytes s) = s := by
  ext i hi : 1
  simp

@[simp] theorem subBytes_invSubBytes (s : Block) : subBytes (invSubBytes s) = s := by
  ext i hi : 1
  simp

/-! ## The row shifts (R174, R175)

They move bytes and do not read them, so the laws are equalities of places. -/

@[simp] theorem invShiftRows_shiftRows (s : Block) : invShiftRows (shiftRows s) = s := by
  ext i hi : 1
  rw [getElem_invShiftRows, getElem_shiftRows]
  exact getElem_congr_idx (by omega)

@[simp] theorem shiftRows_invShiftRows (s : Block) : shiftRows (invShiftRows s) = s := by
  ext i hi : 1
  rw [getElem_shiftRows, getElem_invShiftRows]
  exact getElem_congr_idx (by omega)

theorem shiftRows_subBytes (s : Block) : shiftRows (subBytes s) = subBytes (shiftRows s) := by
  ext i hi : 1
  simp [getElem_shiftRows]

theorem invSubBytes_invShiftRows (s : Block) : invSubBytes (invShiftRows s) = invShiftRows (invSubBytes s) := by
  ext i hi : 1
  simp [getElem_invShiftRows]

/-- Row r of the matrix moves left by r places (R174). -/
theorem shiftRows_matrix (s : Block) (r c : Fin 4) :
    (shiftRows s)[r.val + 4 * c.val] = s[r.val + 4 * (c + r).val] := by
  rw [getElem_shiftRows]
  refine getElem_congr_idx ?_
  rw [Fin.val_add]
  omega

/-- Row r of the matrix moves right by r places (R175). -/
theorem invShiftRows_matrix (s : Block) (r c : Fin 4) :
    (invShiftRows s)[r.val + 4 * c.val] = s[r.val + 4 * (c - r).val] := by
  rw [getElem_invShiftRows]
  refine getElem_congr_idx ?_
  rw [Fin.val_sub]
  omega

/-- Settles O10: byte by byte, the laws of XOR, of the S-boxes, and of the places that the row shifts read. -/
theorem byteStepsInvertAndRowsShift : Obligations.ByteStepsInvertAndRowsShift :=
  ⟨addRoundKey_addRoundKey, fun s => ⟨invSubBytes_subBytes s, subBytes_invSubBytes s⟩,
    fun s => ⟨invShiftRows_shiftRows s, shiftRows_invShiftRows s⟩, shiftRows_subBytes,
    fun s r c => ⟨shiftRows_matrix s r c, invShiftRows_matrix s r c⟩⟩

/-! ## The column mixes (R176, R177)

Two mixes one after the other are one mix by the product of their matrices, so the laws follow from the products of the
two printed matrices. -/

/-- The product of two 4 by 4 matrices over the field. -/
def mulMatrix (a b : Vector (Vector Byte 4) 4) : Vector (Vector Byte 4) 4 :=
  Vector.ofFn fun r => Vector.ofFn fun c =>
    gmul a[r][0] b[0][c] ^^^ gmul a[r][1] b[1][c] ^^^ gmul a[r][2] b[2][c] ^^^ gmul a[r][3] b[3][c]

/-- The identity matrix over the field. -/
def oneMatrix : Vector (Vector Byte 4) 4 :=
  Vector.ofFn fun r => Vector.ofFn fun c => if r = c then 0x01#8 else 0x00#8

theorem mulMatrix_invMixMatrix_mixMatrix : mulMatrix invMixMatrix mixMatrix = oneMatrix := by decide +kernel

theorem mulMatrix_mixMatrix_invMixMatrix : mulMatrix mixMatrix invMixMatrix = oneMatrix := by decide +kernel

/-- Byte k of column c after a mix. -/
theorem getElem_mulColumns_column (m : Vector (Vector Byte 4) 4) (s : Block) {c k : Nat} (hc : c < 4) (hk : k < 4) :
    (mulColumns m s)[4 * c + k] =
      gmul m[k][0] s[4 * c + 0] ^^^ gmul m[k][1] s[4 * c + 1] ^^^ gmul m[k][2] s[4 * c + 2] ^^^
        gmul m[k][3] s[4 * c + 3] := by
  have hdiv : (4 * c + k) / 4 = c := by omega
  have hmod : (4 * c + k) % 4 = k := by omega
  simp only [getElem_mulColumns, hdiv, hmod, Nat.add_zero]

/-- Blocks are equal when their columns are. -/
theorem block_ext_columns {a b : Block}
    (h : ∀ c k : Nat, (hc : c < 4) → (hk : k < 4) → a[4 * c + k] = b[4 * c + k]) : a = b := by
  ext i hi : 1
  simpa only [Nat.div_add_mod] using h (i / 4) (i % 4) (by omega) (by omega)

theorem mulColumns_mulColumns (a b : Vector (Vector Byte 4) 4) (s : Block) :
    mulColumns a (mulColumns b s) = mulColumns (mulMatrix a b) s := by
  refine block_ext_columns fun c k hc hk => ?_
  simp only [getElem_mulColumns_column _ _ hc, hk, Nat.reduceLT, mulMatrix, Vector.getElem_ofFn, Fin.getElem_fin,
    gmul_xor_left, gmul_xor_right, gmul_assoc]
  ac_rfl

theorem mulColumns_oneMatrix (s : Block) : mulColumns oneMatrix s = s := by
  refine block_ext_columns fun c k hc hk => ?_
  rw [getElem_mulColumns_column _ _ hc hk]
  interval_cases k <;> simp [oneMatrix]

/-- Mixing is linear, whatever the matrix. -/
theorem mulColumns_blockXor (m : Vector (Vector Byte 4) 4) (a b : Block) :
    mulColumns m (blockXor a b) = blockXor (mulColumns m a) (mulColumns m b) := by
  ext i hi : 1
  simp only [getElem_mulColumns, getElem_blockXor, gmul_xor_right]
  ac_rfl

@[simp] theorem invMixColumns_mixColumns (s : Block) : invMixColumns (mixColumns s) = s := by
  rw [invMixColumns, mixColumns, mulColumns_mulColumns, mulMatrix_invMixMatrix_mixMatrix, mulColumns_oneMatrix]

@[simp] theorem mixColumns_invMixColumns (s : Block) : mixColumns (invMixColumns s) = s := by
  rw [invMixColumns, mixColumns, mulColumns_mulColumns, mulMatrix_mixMatrix_invMixMatrix, mulColumns_oneMatrix]

/-- Settles O11: the two matrices are inverses of each other, and mixing is linear. -/
theorem mixColumnsInverts : Obligations.MixColumnsInverts :=
  ⟨fun s => ⟨invMixColumns_mixColumns s, mixColumns_invMixColumns s⟩, mulColumns_blockXor invMixMatrix⟩

end Sys2Proof.Machine
end

