-- ==== Sys2Proof/Proofs/BlockCipher.lean ====
section
/-! Cipher and InvCipher undo each other under a consistent key store, and what ENCRYPT and DECRYPT make of them
(R178 to R187).

The straightforward inverse cipher undoes the rounds of Cipher one by one, since its middle round stands against the
middle round of Cipher; InvCipher equals it because InvMixColumns is linear. -/

namespace Sys2Proof.Machine

/-! ## A middle round, and the straightforward round that undoes it (R178, R182) -/

/-- The byte steps of a round before the columns are mixed (R178). -/
def shiftSub (s : Block) : Block := shiftRows (subBytes s)

/-- The byte steps of a decryption round (R179). -/
def unshiftSub (s : Block) : Block := invSubBytes (invShiftRows s)

/-- The middle round of the straightforward inverse cipher (R182 (b)). -/
def straightRound (k s : Block) : Block := invMixColumns (addRoundKey (unshiftSub s) k)

@[simp] theorem unshiftSub_shiftSub (s : Block) : unshiftSub (shiftSub s) = s := by simp [unshiftSub, shiftSub]

@[simp] theorem shiftSub_unshiftSub (s : Block) : shiftSub (unshiftSub s) = s := by simp [unshiftSub, shiftSub]

/-- The byte steps of decryption stand between the rounds, so they are on both sides (R183). -/
theorem straightRound_shiftSub_roundEnc (s k : Block) : straightRound k (shiftSub (roundEnc s k)) = shiftSub s := by
  rw [straightRound, unshiftSub_shiftSub, roundEnc, addRoundKey_addRoundKey, invMixColumns_mixColumns, shiftSub]

theorem roundEnc_unshiftSub_straightRound (k s : Block) :
    roundEnc (unshiftSub (straightRound k s)) k = unshiftSub s := by
  show addRoundKey (mixColumns (shiftSub (unshiftSub (straightRound k s)))) k = _
  rw [shiftSub_unshiftSub, straightRound, mixColumns_invMixColumns, addRoundKey_addRoundKey]

theorem foldr_straightRound_foldl_roundEnc (ks : List Block) (s : Block) :
    ks.foldr straightRound (shiftSub (ks.foldl roundEnc s)) = shiftSub s := by
  induction ks generalizing s with
  | nil => rfl
  | cons k ks ih => rw [List.foldl_cons, List.foldr_cons, ih, straightRound_shiftSub_roundEnc]

theorem foldl_roundEnc_foldr_straightRound (ks : List Block) (s : Block) :
    ks.foldl roundEnc (unshiftSub (ks.foldr straightRound s)) = unshiftSub s := by
  induction ks with
  | nil => rfl
  | cons k ks ih => rw [List.foldl_cons, List.foldr_cons, roundEnc_unshiftSub_straightRound, ih]

/-! ## The straightforward inverse cipher undoes Cipher -/

theorem cipher_eq_shiftSub (ek : Vector Block 15) (n : Rounds) (p : Block) :
    cipher ek n p =
      addRoundKey (shiftSub ((middleKeys ek n).foldl roundEnc (addRoundKey p ek[0]))) (lastKey ek n) := rfl

theorem straightInverse_eq_unshiftSub (ek : Vector Block 15) (n : Rounds) (c : Block) :
    straightInverse ek n c =
      addRoundKey (unshiftSub ((middleKeys ek n).foldr straightRound (addRoundKey c (lastKey ek n)))) ek[0] := rfl

theorem straightInverse_cipher (ek : Vector Block 15) (n : Rounds) (p : Block) :
    straightInverse ek n (cipher ek n p) = p := by
  rw [straightInverse_eq_unshiftSub, cipher_eq_shiftSub, addRoundKey_addRoundKey, foldr_straightRound_foldl_roundEnc,
    unshiftSub_shiftSub, addRoundKey_addRoundKey]

theorem cipher_straightInverse (ek : Vector Block 15) (n : Rounds) (c : Block) :
    cipher ek n (straightInverse ek n c) = c := by
  rw [straightInverse_eq_unshiftSub, cipher_eq_shiftSub, addRoundKey_addRoundKey, foldl_roundEnc_foldr_straightRound,
    shiftSub_unshiftSub, addRoundKey_addRoundKey]

/-! ## InvCipher is the straightforward inverse cipher (R182 (b)) -/

/-- The keys dk are the decryption keys of ek: what `keyStoreOk` says of a valid key store (R34, R146). -/
structure IsDecryptionKeys (n : Rounds) (ek dk : Vector Block 15) : Prop where
  first : dk[0] = ek[0]
  last : lastKey dk n = lastKey ek n
  middle : ∀ r : Fin 15, 1 ≤ r.val → r.val < roundCount n → dk[r] = invMixColumns ek[r]

theorem keyStoreOk_iff (s : State) :
    keyStoreOk s ↔ (s.keyValid = true → IsDecryptionKeys s.nr s.ek s.dk) :=
  forall_congr' fun _ => ⟨fun ⟨hfirst, hlast, hmiddle⟩ => ⟨hfirst, hlast, hmiddle⟩,
    fun h => ⟨h.first, h.last, h.middle⟩⟩

/-- Linearity: the key goes in before the mix, or its own mix goes in behind (R177). -/
theorem roundDec_invMixColumns (s k : Block) : roundDec s (invMixColumns k) = straightRound k s :=
  (mulColumns_blockXor invMixMatrix (unshiftSub s) k).symm

namespace IsDecryptionKeys

variable {n : Rounds} {ek dk : Vector Block 15}

theorem middleKeys_eq (h : IsDecryptionKeys n ek dk) : middleKeys dk n = (middleKeys ek n).map invMixColumns := by
  apply List.ext_getElem (by simp [length_middleKeys])
  intro i hi _
  have hlen := length_middleKeys dk n
  have hn := roundCount_lt n
  rw [List.getElem_map, getElem_middleKeys, getElem_middleKeys]
  exact h.middle ⟨i + 1, by omega⟩ (by simp) (by simp only; omega)

theorem invCipher_eq (h : IsDecryptionKeys n ek dk) (c : Block) : invCipher dk n c = straightInverse ek n c := by
  rw [straightInverse_eq_unshiftSub, invCipher, h.first, h.last, h.middleKeys_eq, List.foldr_map]
  simp only [roundDec_invMixColumns]
  rfl

theorem invCipher_cipher (h : IsDecryptionKeys n ek dk) (p : Block) : invCipher dk n (cipher ek n p) = p := by
  rw [h.invCipher_eq, straightInverse_cipher]

theorem cipher_invCipher (h : IsDecryptionKeys n ek dk) (c : Block) : cipher ek n (invCipher dk n c) = c := by
  rw [h.invCipher_eq, cipher_straightInverse]

theorem bijective_cipher (h : IsDecryptionKeys n ek dk) : Function.Bijective (cipher ek n) :=
  ⟨Function.LeftInverse.injective h.invCipher_cipher, Function.RightInverse.surjective h.cipher_invCipher⟩

end IsDecryptionKeys

/-! ## The printed order is another function (R182)

The printed order is the straightforward inverse cipher run with DK in the place of EK. By
`IsDecryptionKeys.invCipher_eq` it is InvCipher with keys that had InvMixColumns twice; it differs from InvCipher with DK, because InvCipher under two
key arrays that differ in round key 1 alone gives two different blocks. -/

def zeroBlock : Block := Vector.replicate 16 0x00#8

/-- The round keys that are zero but for round key 1. -/
def onlyFirstKey (k : Block) : Vector Block 15 := (Vector.replicate 15 zeroBlock).set 1 k

theorem getElem_onlyFirstKey (k : Block) (r : Fin 15) :
    (onlyFirstKey k)[r] = if 1 = r.val then k else zeroBlock := by
  simp [onlyFirstKey, Vector.getElem_set]

theorem middleKeys_onlyFirstKey (k : Block) :
    middleKeys (onlyFirstKey k) .r10 = k :: List.replicate 8 zeroBlock := rfl

theorem isDecryptionKeys_onlyFirstKey (k : Block) :
    IsDecryptionKeys .r10 (onlyFirstKey k) (onlyFirstKey (invMixColumns k)) where
  first := by simp [onlyFirstKey]
  last := by simp [onlyFirstKey, lastKey, roundCount]
  middle r _ _ := by
    have hzero : invMixColumns zeroBlock = zeroBlock := by decide +kernel
    rw [getElem_onlyFirstKey, getElem_onlyFirstKey, apply_ite invMixColumns, hzero]

theorem addRoundKey_left_cancel {s k k' : Block} (h : addRoundKey s k = addRoundKey s k') : k = k' := by
  ext i hi : 1
  have hi' := congrArg (fun b : Block => b[i]) h
  simpa using hi'

theorem addRoundKey_right_cancel {s s' k : Block} (h : addRoundKey s k = addRoundKey s' k) : s = s' := by
  rw [← addRoundKey_addRoundKey s k, h, addRoundKey_addRoundKey]

theorem roundDecLast_cancel {s s' k : Block} (h : roundDecLast s k = roundDecLast s' k) : s = s' := by
  rw [← shiftSub_unshiftSub s, ← shiftSub_unshiftSub s']
  exact congrArg shiftSub (addRoundKey_right_cancel h)

theorem key_eq_of_invCipher_onlyFirstKey {k k' c : Block}
    (h : invCipher (onlyFirstKey k) .r10 c = invCipher (onlyFirstKey k') .r10 c) : k = k' := by
  rw [invCipher, invCipher, middleKeys_onlyFirstKey, middleKeys_onlyFirstKey] at h
  exact addRoundKey_left_cancel (roundDecLast_cancel h)

/-- A block whose InvMixColumns is no fixed point of InvMixColumns. -/
def unitBlock : Block := zeroBlock.set 0 0x01#8

theorem invMixColumns_invMixColumns_unitBlock :
    invMixColumns (invMixColumns unitBlock) ≠ invMixColumns unitBlock := by decide +kernel

/-- A valid and consistent key store: round key 1 is `unitBlock`, the others are zero. -/
def unitKeyed : State :=
  { State.reset with keyValid := true, ek := onlyFirstKey unitBlock, dk := onlyFirstKey (invMixColumns unitBlock) }

theorem keyStoreOk_unitKeyed : keyStoreOk unitKeyed :=
  (keyStoreOk_iff _).2 fun _ => isDecryptionKeys_onlyFirstKey unitBlock

theorem invCipher_unitKeyed_ne (c : Block) :
    invCipher unitKeyed.dk unitKeyed.nr c ≠ straightInverse unitKeyed.dk unitKeyed.nr c := by
  intro h
  have hstraight := (isDecryptionKeys_onlyFirstKey (invMixColumns unitBlock)).invCipher_eq c
  exact invMixColumns_invMixColumns_unitBlock (key_eq_of_invCipher_onlyFirstKey (hstraight.trans h.symm))

/-- Settles O12: the byte steps commute, linearity makes the two formulations one, and the key store `unitKeyed` tells
the printed order from them at every block. -/
theorem equivalentDecryptionFormulations : Obligations.EquivalentDecryptionFormulations :=
  ⟨invSubBytes_invShiftRows, fun _ hv hs => ((keyStoreOk_iff _).1 hs hv).invCipher_eq,
    unitKeyed, rfl, keyStoreOk_unitKeyed, unitBlock, invCipher_unitKeyed_ne unitBlock⟩

/-! ## The round trip under SET_KEY (R183) -/

/-- Settles O13: SET_KEY loads a consistent key store. -/
theorem cipherRoundTripForEveryKey : Obligations.CipherRoundTripForEveryKey := by
  intro s keylen hlegal
  obtain ⟨n, hn⟩ : ∃ n, roundsOfKeyLength keylen = some n := by
    rcases hlegal with rfl | rfl | rfl
    exacts [⟨.r10, rfl⟩, ⟨.r12, rfl⟩, ⟨.r14, rfl⟩]
  have hkeys := (keyStoreOk_iff _).1 (KeyStoreMeets.of_loadKey n s).keyStore rfl
  exact ⟨_, exec_setKey_of_legal hn s, hkeys.invCipher_cipher, hkeys.cipher_invCipher, hkeys.bijective_cipher⟩

/-! ## ENCRYPT and DECRYPT (R186, R187) -/

theorem blockCommandError_of_lengths {a b : Nat} (h : ¬(a = 16 ∧ b = 16)) (s : State) :
    blockCommandError a b s = some .blockSize := by
  simp only [blockCommandError, blockLengthsOk, blockBytes, h, decide_false, if_true]

theorem blockCommandError_of_key {s : State} (h : s.keyValid = true) : blockCommandError 16 16 s = none := by
  simp [blockCommandError, blockLengthsOk, blockBytes, h]

/-- The three results of a block command whose output is `out`: the checks in order, then the output. -/
theorem blockCommand_results {i : Instr} {a b : Nat} {s : State} {out : Block}
    (h : exec i s = .next (blockResult (blockCommandError a b s) out s)) :
    (¬(a = 16 ∧ b = 16) →
      exec i s = .next { s with busy := false, done := true, fail := true, err := .blockSize }) ∧
    (a = 16 ∧ b = 16 → s.keyValid = false →
      exec i s = .next { s with busy := false, done := true, fail := true, err := .keyInvalid }) ∧
    (a = 16 ∧ b = 16 → s.keyValid = true →
      exec i s = .next { s with dout := out, busy := false, done := true, fail := false, err := .none }) := by
  refine ⟨fun hlen => ?_, ?_, ?_⟩
  · rw [h, blockCommandError_of_lengths hlen]
    rfl
  · rintro ⟨rfl, rfl⟩ hv
    rw [h, blockCommandError_of_no_key hv]
    rfl
  · rintro ⟨rfl, rfl⟩ hv
    rw [h, blockCommandError_of_key hv]
    rfl

/-- Settles O14. -/
theorem encryptResult : Obligations.EncryptResult := fun s a b => blockCommand_results (exec_encrypt a b s)

/-- Settles O15. -/
theorem decryptResult : Obligations.DecryptResult := fun s a b => blockCommand_results (exec_decrypt a b s)

theorem exec_encrypt_of_key {s : State} (h : s.keyValid = true) :
    exec (.encrypt 16 16) s = .next (completeSuccess (setDout (cipher s.ek s.nr s.ldin) s)) := by
  rw [exec_encrypt, blockCommandError_of_key h]
  rfl

theorem exec_decrypt_of_key {s : State} (h : s.keyValid = true) :
    exec (.decrypt 16 16) s = .next (completeSuccess (setDout (invCipher s.dk s.nr s.ldin) s)) := by
  rw [exec_decrypt, blockCommandError_of_key h]
  rfl

/-- Settles O16: ENCRYPT keeps the key store, so DECRYPT runs InvCipher under the keys of the same store. -/
theorem decryptUndoesEncrypt : Obligations.DecryptUndoesEncrypt := by
  intro s hv hs
  refine ⟨_, _, exec_encrypt_of_key hv, exec_decrypt_of_key ?_, ?_, ?_⟩
  · simpa using hv
  · simpa using ((keyStoreOk_iff _).1 hs hv).invCipher_cipher s.ldin
  · simp

end Sys2Proof.Machine
end

