-- ==== Sys2Proof/Proofs/Modes.lean ====
section
/-! MODE_INIT and PROCESS, for every operand and state (R210 to R235). -/

namespace Sys2Proof.Machine

/-! ## MODE_INIT (R211 to R214) -/

/-- Settles O18. -/
theorem modeInitEcbResult : Obligations.ModeInitEcbResult := fun _ _ _ _ => rfl

theorem exec_modeInitCbc_of_length (d : Dir) (b : Nat) (s : State) :
    exec (.modeInitCbc d 16 b) s = .next (completeSuccess (setCv s.liv (configureMode .cbc d 0 s))) := rfl

theorem exec_modeInitCbc_of_bad_length {l : Nat} (h : l ≠ 16) (d : Dir) (b : Nat) (s : State) :
    exec (.modeInitCbc d l b) s = .next (raiseFailure .ivLength (invalidateMode s)) := if_pos h

theorem exec_modeInitCtr_of_width {m : Nat} (h1 : 1 ≤ m) (h2 : m ≤ 128) (d : Dir) (s : State) :
    exec (.modeInitCtr d 16 m) s =
      .next (completeSuccess (setCv (ctrLoad s.liv m) (configureMode .ctr d m s))) := if_neg (by omega)

theorem exec_modeInitCtr_of_bad_width {m : Nat} (h : m < 1 ∨ 128 < m) (d : Dir) (s : State) :
    exec (.modeInitCtr d 16 m) s = .next (raiseFailure .ctrWidth (invalidateMode s)) := if_pos h

theorem exec_modeInitCtr_of_bad_length {l : Nat} (h : l ≠ 16) (d : Dir) (m : Nat) (s : State) :
    exec (.modeInitCtr d l m) s = .next (raiseFailure .ivLength (invalidateMode s)) := if_pos h

/-- Settles O19. -/
theorem modeInitCbcResult : Obligations.ModeInitCbcResult := by
  refine fun s d l b => ⟨?_, fun h => exec_modeInitCbc_of_bad_length h d b s⟩
  rintro rfl
  exact exec_modeInitCbc_of_length d b s

/-- Settles O20: a legal width fits CTR_M. -/
theorem modeInitCtrResult : Obligations.ModeInitCtrResult := by
  refine fun s d l m => ⟨?_, ?_, fun h => exec_modeInitCtr_of_bad_length h d m s⟩
  · rintro rfl h1 h2
    have hm : m % 2 ^ 8 = m := Nat.mod_eq_of_lt (by omega)
    refine ⟨_, exec_modeInitCtr_of_width h1 h2 d s, hm, ?_⟩
    simp only [completeSuccess, setCv, configureMode]
  · rintro rfl h
    exact exec_modeInitCtr_of_bad_width h d s

/-! ## The checks of PROCESS (R230, R263) -/

theorem processError_of_no_mode {s : State} (h : s.modeParamsOk = false) (a b : Nat) :
    processError a b s = some .modeNotInit := by
  simp [processError, h]

theorem processError_of_lengths {s : State} (hm : s.modeParamsOk = true) {a b : Nat} (h : ¬(a = 16 ∧ b = 16)) :
    processError a b s = some .blockSize := by
  simp only [processError, hm, blockLengthsOk, blockBytes, h, decide_false, if_true, Bool.true_eq_false, if_false]

theorem processError_of_ready {s : State} (hm : s.modeParamsOk = true) (hv : s.keyValid = true) :
    processError 16 16 s = none := by
  simp [processError, blockLengthsOk, blockBytes, hm, hv]

theorem exec_process_of_no_mode {s : State} (h : s.modeParamsOk = false) (a b : Nat) :
    exec (.process a b) s = .next (raiseFailure .modeNotInit s) :=
  exec_process_of_error (processError_of_no_mode h a b)

/-! ## What PROCESS makes of a block (R231 to R235) -/

/-- The output block for the chaining vector v and the input x, in the mode and direction of s. -/
def blockOutput (s : State) (v x : Block) : Block :=
  match s.mode, s.dir with
  | .ecb, .encrypt => cipher s.ek s.nr x
  | .ecb, .decrypt => invCipher s.dk s.nr x
  | .cbc, .encrypt => cipher s.ek s.nr (blockXor x v)
  | .cbc, .decrypt => blockXor (invCipher s.dk s.nr x) v
  | .ctr, _ => blockXor (cipher s.ek s.nr v) x

/-- The chaining vector that follows v when the input is x, in the mode and direction of s. -/
def nextCv (s : State) (v x : Block) : Block :=
  match s.mode, s.dir with
  | .ecb, _ => v
  | .cbc, .encrypt => cipher s.ek s.nr (blockXor x v)
  | .cbc, .decrypt => x
  | .ctr, _ => ctrInc v s.ctrM.toNat

theorem blockOutput_ecb_encrypt {s : State} (hmode : s.mode = .ecb) (hdir : s.dir = .encrypt) :
    blockOutput s = fun _ x => cipher s.ek s.nr x := by
  funext v x
  simp only [blockOutput, hmode, hdir]

theorem blockOutput_ecb_decrypt {s : State} (hmode : s.mode = .ecb) (hdir : s.dir = .decrypt) :
    blockOutput s = fun _ x => invCipher s.dk s.nr x := by
  funext v x
  simp only [blockOutput, hmode, hdir]

theorem blockOutput_cbc_encrypt {s : State} (hmode : s.mode = .cbc) (hdir : s.dir = .encrypt) :
    blockOutput s = fun v x => cipher s.ek s.nr (blockXor x v) := by
  funext v x
  simp only [blockOutput, hmode, hdir]

theorem blockOutput_cbc_decrypt {s : State} (hmode : s.mode = .cbc) (hdir : s.dir = .decrypt) :
    blockOutput s = fun v x => blockXor (invCipher s.dk s.nr x) v := by
  funext v x
  simp only [blockOutput, hmode, hdir]

theorem blockOutput_ctr {s : State} (hmode : s.mode = .ctr) :
    blockOutput s = fun v x => blockXor (cipher s.ek s.nr v) x := by
  funext v x
  simp only [blockOutput, hmode]

theorem nextCv_ecb {s : State} (hmode : s.mode = .ecb) : nextCv s = fun v _ => v := by
  funext v x
  simp only [nextCv, hmode]

theorem nextCv_cbc_encrypt {s : State} (hmode : s.mode = .cbc) (hdir : s.dir = .encrypt) :
    nextCv s = fun v x => cipher s.ek s.nr (blockXor x v) := by
  funext v x
  simp only [nextCv, hmode, hdir]

theorem nextCv_cbc_decrypt {s : State} (hmode : s.mode = .cbc) (hdir : s.dir = .decrypt) :
    nextCv s = fun _ x => x := by
  funext v x
  simp only [nextCv, hmode, hdir]

theorem nextCv_ctr {s : State} (hmode : s.mode = .ctr) : nextCv s = fun v _ => ctrInc v s.ctrM.toNat := by
  funext v x
  simp only [nextCv, hmode]

theorem processBlock_eq (s : State) :
    processBlock s = setDout (blockOutput s s.cv s.ldin) (setCv (nextCv s s.cv s.ldin) s) := by
  unfold processBlock blockOutput nextCv
  cases s.mode <;> cases s.dir <;> rfl

/-- On a Ready engine PROCESS succeeds (R230). -/
theorem exec_process_of_ready {s : State} (hm : s.modeParamsOk = true) (hv : s.keyValid = true) :
    exec (.process 16 16) s =
      .next (completeSuccess (setDout (blockOutput s s.cv s.ldin) (setCv (nextCv s s.cv s.ldin) s))) := by
  rw [← processBlock_eq]
  simp [exec, execProcess, processError_of_ready hm hv]

/-- Settles O24: the checks in order, then `blockOutput` and `nextCv` at each mode and direction. -/
theorem processResult : Obligations.ProcessResult := by
  refine ⟨fun s hm hv => ?_, fun s a b => ⟨fun hm => exec_process_of_no_mode hm a b,
    fun hm hlen => exec_process_of_error (processError_of_lengths hm hlen), ?_⟩⟩
  · have hrun := exec_process_of_ready hm hv
    simp only [completeSuccess, setDout, setCv] at hrun
    refine ⟨fun hmode hdir => ?_, fun hmode hdir => ?_, fun hmode hdir => ?_, fun hmode hdir => ?_, fun hmode => ?_⟩
    · rw [hrun, blockOutput_ecb_encrypt hmode hdir, nextCv_ecb hmode]
    · rw [hrun, blockOutput_ecb_decrypt hmode hdir, nextCv_ecb hmode]
    · rw [hrun, blockOutput_cbc_encrypt hmode hdir, nextCv_cbc_encrypt hmode hdir]
    · rw [hrun, blockOutput_cbc_decrypt hmode hdir, nextCv_cbc_decrypt hmode hdir]
    · rw [hrun, blockOutput_ctr hmode, nextCv_ctr hmode]
  · rintro hm ⟨rfl, rfl⟩ hv
    exact exec_process_of_error (processError_of_no_key hv hm)

/-! ## The mode state after a failure (R214) -/

/-- Only a MODE_INIT that succeeds sets MODE_PARAMS_OK (R214). -/
theorem Ran.modeInit_of_paramsOk {i : Instr} {s t : State} (h : Ran i s t) (hs : s.modeParamsOk = false)
    (ht : t.modeParamsOk = true) : t.fail = false ∧ isModeInit i = true := by
  cases h with
  | ecbConfigured => exact ⟨rfl, rfl⟩
  | cbcConfigured => exact ⟨rfl, rfl⟩
  | ctrConfigured => exact ⟨rfl, rfl⟩
  | processed => simp [processBlock_eq, hs] at ht
  | _ => simp [hs] at ht

/-- A MODE_INIT that fails answers IV_LENGTH or CTR_WIDTH and clears MODE_PARAMS_OK (R214). -/
theorem Ran.invalidateMode_of_fail {i : Instr} {s t : State} (h : Ran i s t) (hi : isModeInit i = true)
    (hf : t.fail = true) : ∃ e, (e = .ivLength ∨ e = .ctrWidth) ∧ t = raiseFailure e (invalidateMode s) := by
  cases h with
  | cbcRejected => exact ⟨_, .inl rfl, rfl⟩
  | ctrRejectedIv => exact ⟨_, .inl rfl, rfl⟩
  | ctrRejectedWidth => exact ⟨_, .inr rfl, rfl⟩
  | ecbConfigured | cbcConfigured | ctrConfigured => simp at hf
  | _ => cases hi

/-- Settles O21: the failures by `Ran.invalidateMode_of_fail`, the steps by `Ran.modeInit_of_paramsOk`. -/
theorem failedModeInitClearsOnlyParamsOk : Obligations.FailedModeInitClearsOnlyParamsOk := by
  refine ⟨fun s d l b m i hi t h hf => ?_, fun s a b hm => exec_process_of_no_mode hm a b, fun s t hs h ht => ?_,
    fun s why h => ?_⟩
  · have hmode : isModeInit i = true := by rcases hi with rfl | rfl <;> rfl
    obtain ⟨e, he, rfl⟩ := (ran_of_exec h).invalidateMode_of_fail hmode hf
    exact ⟨he, rfl, by simp [modeReady]⟩
  · rcases step_reset_or_ran_or_same h with ⟨-, u, rfl⟩ | ⟨hc, es, i, hd, hr⟩ | hsame
    · simp [State.reset] at ht
    · obtain ⟨hfail, hi⟩ := hr.modeInit_of_paramsOk hs ht
      exact ⟨hc, hfail, i, hd, hi⟩
    · simp [hsame.modeParamsOk, hs] at ht
  · simp only [completeCommand, h]
    rfl

end Sys2Proof.Machine
end

