-- ==== Sys2Proof/Proofs/Counter.lean ====
section
/-! CtrLoad and CtrInc on the block as an integer (R220 to R223).

Below 2^m the block holds the window; above it everything stays, but for the bits of the partial counter byte, which
CtrLoad clears. A block is its integer, and the integer is read bit by bit. -/

namespace Sys2Proof.Machine

/-! ## The bits of the integer -/

/-- Bit k of a byte string lies in the byte k / 8 from its end (R63). -/
theorem testBit_bigEndian_reverse (bs : List Byte) (k : Nat) :
    (bigEndian bs.reverse).testBit k = (bs[k / 8]?.getD 0#8).getLsbD (k % 8) := by
  induction bs generalizing k with
  | nil => simp [bigEndian]
  | cons b bs ih =>
    have hcons : bigEndian (b :: bs).reverse = 2 ^ 8 * bigEndian bs.reverse + b.toNat := by
      simp [bigEndian, List.foldl_append]
    rw [hcons, Nat.testBit_two_pow_mul_add _ b.isLt]
    split
    next hk =>
      simp [Nat.div_eq_of_lt hk, Nat.mod_eq_of_lt hk, BitVec.testBit_toNat, -BitVec.getLsbD_eq_getElem]
    next hk =>
      have hdiv : k / 8 = (k - 8) / 8 + 1 := by omega
      have hmod : k % 8 = (k - 8) % 8 := by omega
      rw [ih, hdiv, hmod, List.getElem?_cons_succ]

theorem testBit_bigEndian (bs : List Byte) (k : Nat) :
    (bigEndian bs).testBit k = (bs.reverse[k / 8]?.getD 0#8).getLsbD (k % 8) := by
  simpa using testBit_bigEndian_reverse bs.reverse k

/-- Bit k of a block lies in byte 15 - k / 8 (R223). -/
theorem testBit_blockValue (b : Block) {k : Nat} (h : k < 128) :
    (blockValue b).testBit k = b[15 - k / 8].getLsbD (k % 8) := by
  have hk : k / 8 < 16 := by omega
  rw [blockValue, testBit_bigEndian, List.getElem?_reverse (by simpa using hk)]
  have hget : b[15 - k / 8]? = some b[15 - k / 8] := Vector.getElem?_eq_getElem _
  simp [hget]

theorem testBit_blockValue_of_ge (b : Block) {k : Nat} (h : 128 ≤ k) : (blockValue b).testBit k = false := by
  rw [blockValue, testBit_bigEndian, List.getElem?_eq_none (by simp; omega)]
  simp

theorem blockValue_injective : Function.Injective blockValue := by
  intro a b h
  ext i hi : 1
  apply BitVec.eq_of_getLsbD_eq
  intro t ht
  have hbit := congrArg (Nat.testBit · (8 * (15 - i) + t)) h
  have hplace : 15 - (8 * (15 - i) + t) / 8 = i := by omega
  have hmod : (8 * (15 - i) + t) % 8 = t := by omega
  simpa [testBit_blockValue _ (show 8 * (15 - i) + t < 128 by omega), hplace, hmod] using hbit

/-! ## The counter bytes (R220) -/

theorem counterBytes_le {m : Nat} (h : m ≤ 128) : counterBytes m ≤ 16 := by
  unfold counterBytes
  omega

theorem le_counterBits (m : Nat) : m ≤ 8 * counterBytes m := by
  unfold counterBytes
  omega

theorem counterValue_eq (cv : Block) {m : Nat} (h : m ≤ 128) :
    counterValue cv m = blockValue cv % 2 ^ (8 * counterBytes m) := by
  have hcb := counterBytes_le h
  have hlen : 16 - (16 - counterBytes m) = counterBytes m := by omega
  apply Nat.eq_of_testBit_eq
  intro k
  rw [Nat.testBit_mod_two_pow, blockValue, testBit_bigEndian, counterValue, testBit_bigEndian, List.reverse_drop,
    List.getElem?_take, counterLow, Vector.length_toList, hlen]
  by_cases hk : k / 8 < counterBytes m
  · have hlt : k < 8 * counterBytes m := by omega
    simp [hk, hlt]
  · have hge : ¬ k < 8 * counterBytes m := by omega
    simp [hk, hge]

/-! ## CtrLoad (R221) -/

/-- CtrLoad clears the bits from m up to the end of the partial counter byte and keeps the others. -/
theorem testBit_blockValue_ctrLoad (iv : Block) {m : Nat} (h1 : 1 ≤ m) (h2 : m ≤ 128) (k : Nat) :
    (blockValue (ctrLoad iv m)).testBit k =
      (decide (k < m ∨ 8 * counterBytes m ≤ k) && (blockValue iv).testBit k) := by
  by_cases hk : k < 128
  · rw [testBit_blockValue _ hk, testBit_blockValue _ hk]
    simp only [ctrLoad, Vector.getElem_ofFn, Fin.getElem_fin]
    split
    next hpart =>
      have hplace : decide (k % 8 < m % 8) = decide (k < m ∨ 8 * counterBytes m ≤ k) := by
        rw [decide_eq_decide]
        simp only [counterLow, counterBytes] at hpart ⊢
        omega
      rw [BitVec.getLsbD_and, BitVec.getLsbD_ofNat, Nat.testBit_two_pow_sub_one, hplace]
      simp [Nat.mod_lt, Bool.and_comm]
    next hfull =>
      have hkept : k < m ∨ 8 * counterBytes m ≤ k := by
        simp only [counterLow, counterBytes] at hfull ⊢
        omega
      simp [hkept]
  · simp [testBit_blockValue_of_ge _ (Nat.not_lt.1 hk)]

theorem blockValue_ctrLoad (iv : Block) {m : Nat} (h1 : 1 ≤ m) (h2 : m ≤ 128) :
    blockValue (ctrLoad iv m) =
      2 ^ (8 * counterBytes m) * (blockValue iv / 2 ^ (8 * counterBytes m)) + blockValue iv % 2 ^ m := by
  have hm := le_counterBits m
  have hlt : blockValue iv % 2 ^ m < 2 ^ (8 * counterBytes m) :=
    (Nat.mod_lt _ (Nat.two_pow_pos m)).trans_le (Nat.pow_le_pow_right (by decide) hm)
  apply Nat.eq_of_testBit_eq
  intro k
  rw [testBit_blockValue_ctrLoad iv h1 h2, Nat.testBit_two_pow_mul_add _ hlt, Nat.testBit_mod_two_pow,
    Nat.testBit_div_two_pow]
  split
  next hk => simp [Nat.not_le.2 hk]
  next hk =>
    have hge : 8 * counterBytes m ≤ k := by omega
    simp [hge]

/-- Settles O22. -/
theorem counterLoadClearsPartialByte : Obligations.CounterLoadClearsPartialByte := by
  intro iv m h1 h2
  have h256 : 256 ^ ((m + 7) / 8) = 2 ^ (8 * counterBytes m) := (pow_mul 2 8 _).symm
  refine ⟨?_, fun h8 => ?_⟩
  · rw [blockValue_ctrLoad iv h1 h2, h256, Nat.mul_comm]
  · simp [ctrLoad, h8]

/-! ## CtrInc (R222) -/

/-- The number x with its low m bits advanced by one modulo 2^m: what CtrInc does to the counter value. -/
def advance (x m : Nat) : Nat := x - x % 2 ^ m + (x % 2 ^ m + 1) % 2 ^ m

theorem advance_eq (x m : Nat) : advance x m = 2 ^ m * (x / 2 ^ m) + (x % 2 ^ m + 1) % 2 ^ m := by
  have hx := Nat.div_add_mod x (2 ^ m)
  unfold advance
  omega

theorem advance_div (x m : Nat) : advance x m / 2 ^ m = x / 2 ^ m := by
  have hlt := Nat.mod_lt (x % 2 ^ m + 1) (Nat.two_pow_pos m)
  rw [advance_eq, Nat.mul_add_div (Nat.two_pow_pos m), Nat.div_eq_of_lt hlt, Nat.add_zero]

theorem advance_mod (x m : Nat) : advance x m % 2 ^ m = (x % 2 ^ m + 1) % 2 ^ m := by
  rw [advance_eq, Nat.mul_add_mod, Nat.mod_mod]

/-- With at least m bits, the bits above them do not matter to an advance, nor does it reach them. -/
theorem advance_add {m n : Nat} (h : m ≤ n) {x : Nat} (hx : x < 2 ^ n) (y : Nat) :
    advance (2 ^ n * y + x) m = 2 ^ n * y + advance x m ∧ advance x m < 2 ^ n := by
  obtain ⟨d, rfl⟩ := Nat.exists_eq_add_of_le h
  have hmul : 2 ^ (m + d) * y = 2 ^ m * (2 ^ d * y) := by rw [pow_add, Nat.mul_assoc]
  constructor
  · rw [advance_eq, advance_eq, hmul, Nat.mul_add_mod, Nat.mul_add_div (Nat.two_pow_pos m), Nat.mul_add, Nat.add_assoc]
  · rw [Nat.pow_add, Nat.mul_comm] at hx ⊢
    rwa [← Nat.div_lt_iff_lt_mul (Nat.two_pow_pos m), advance_div, Nat.div_lt_iff_lt_mul (Nat.two_pow_pos m)]

theorem getElem_ctrInc (cv : Block) (m : Nat) {i : Nat} (h : i < 16) :
    (ctrInc cv m)[i] =
      if i < counterLow m then cv[i] else BitVec.ofNat 8 (advance (counterValue cv m) m / 256 ^ (15 - i)) := by
  simp [ctrInc, advance]

/-- CtrInc writes the advanced counter value to the counter bytes. -/
theorem testBit_blockValue_ctrInc (cv : Block) {m k : Nat} (h2 : m ≤ 128) (hk : k < 128) :
    (blockValue (ctrInc cv m)).testBit k =
      if k < 8 * counterBytes m then (advance (counterValue cv m) m).testBit k else (blockValue cv).testBit k := by
  have hcb := counterBytes_le h2
  have hlow : 15 - k / 8 < counterLow m ↔ ¬ k < 8 * counterBytes m := by
    unfold counterLow
    omega
  have hbyte : 15 - (15 - k / 8) = k / 8 := by omega
  have h256 : 256 ^ (k / 8) = 2 ^ (8 * (k / 8)) := (pow_mul 2 8 _).symm
  have hmod : k % 8 < 8 := Nat.mod_lt _ (by decide)
  rw [testBit_blockValue _ hk, getElem_ctrInc, apply_ite (BitVec.getLsbD · (k % 8)), ← testBit_blockValue _ hk,
    BitVec.getLsbD_ofNat, hbyte, h256, Nat.testBit_div_two_pow, Nat.mod_add_div]
  simp only [hlow, hmod, ite_not, decide_true, Bool.true_and]

/-- The whole block advances as its counter value does, since the window lies in the counter bytes (R223). -/
theorem blockValue_ctrInc (cv : Block) {m : Nat} (h2 : m ≤ 128) :
    blockValue (ctrInc cv m) = advance (blockValue cv) m := by
  have hcb := counterBytes_le h2
  have hx : counterValue cv m < 2 ^ (8 * counterBytes m) := counterValue_eq cv h2 ▸ Nat.mod_lt _ (Nat.two_pow_pos _)
  have hsplit : 2 ^ (8 * counterBytes m) * (blockValue cv / 2 ^ (8 * counterBytes m)) + counterValue cv m =
      blockValue cv := by rw [counterValue_eq cv h2, Nat.div_add_mod]
  obtain ⟨hadv, hlt⟩ := advance_add (le_counterBits m) hx (blockValue cv / 2 ^ (8 * counterBytes m))
  rw [hsplit] at hadv
  rw [hadv]
  apply Nat.eq_of_testBit_eq
  intro k
  rw [Nat.testBit_two_pow_mul_add _ hlt, Nat.testBit_div_two_pow]
  by_cases hk : k < 128
  · rw [testBit_blockValue_ctrInc cv h2 hk]
    split
    · rfl
    · congr 1; omega
  · have hge : ¬ k < 8 * counterBytes m := by omega
    rw [testBit_blockValue_of_ge _ (by omega), if_neg hge, testBit_blockValue_of_ge _ (by omega)]

/-! ## The counter laws (R223)

Two blocks are equal when their windows are and the bits above are. -/

theorem block_eq_of_window {a b : Block} (m : Nat) (hhigh : blockValue a / 2 ^ m = blockValue b / 2 ^ m)
    (hlow : blockValue a % 2 ^ m = blockValue b % 2 ^ m) : a = b := by
  apply blockValue_injective
  rw [← Nat.div_add_mod (blockValue a) (2 ^ m), hhigh, hlow, Nat.div_add_mod]

theorem ctrInc_high (cv : Block) {m : Nat} (h : m ≤ 128) :
    blockValue (ctrInc cv m) / 2 ^ m = blockValue cv / 2 ^ m := by
  rw [blockValue_ctrInc cv h, advance_div]

theorem ctrInc_low (cv : Block) {m : Nat} (h : m ≤ 128) :
    blockValue (ctrInc cv m) % 2 ^ m = (blockValue cv % 2 ^ m + 1) % 2 ^ m := by
  rw [blockValue_ctrInc cv h, advance_mod]

/-- CtrLoad clears the d bits between the window and the end of the counter bytes. -/
theorem ctrLoad_window (iv : Block) {m d : Nat} (h1 : 1 ≤ m) (h2 : m ≤ 128) (hd : 8 * counterBytes m = m + d) :
    blockValue (ctrLoad iv m) / 2 ^ m = 2 ^ d * (blockValue iv / 2 ^ m / 2 ^ d) ∧
      blockValue (ctrLoad iv m) % 2 ^ m = blockValue iv % 2 ^ m := by
  have hlt := Nat.mod_lt (blockValue iv) (Nat.two_pow_pos m)
  rw [blockValue_ctrLoad iv h1 h2, hd, pow_add, Nat.mul_assoc, Nat.div_div_eq_div_mul]
  constructor
  · rw [Nat.mul_add_div (Nat.two_pow_pos m), Nat.div_eq_of_lt hlt, Nat.add_zero]
  · rw [Nat.mul_add_mod, Nat.mod_mod]

theorem ctrInc_ctrLoad (cv : Block) {m : Nat} (h1 : 1 ≤ m) (h2 : m ≤ 128) :
    ctrInc (ctrLoad cv m) m = ctrLoad (ctrInc cv m) m := by
  obtain ⟨d, hd⟩ := Nat.exists_eq_add_of_le (le_counterBits m)
  obtain ⟨hhigh, hlow⟩ := ctrLoad_window cv h1 h2 hd
  obtain ⟨hhigh', hlow'⟩ := ctrLoad_window (ctrInc cv m) h1 h2 hd
  apply block_eq_of_window m
  · rw [ctrInc_high _ h2, hhigh, hhigh', ctrInc_high _ h2]
  · rw [ctrInc_low _ h2, hlow, hlow', ctrInc_low _ h2]

theorem iterate_ctrInc (cv : Block) {m : Nat} (h : m ≤ 128) (k : Nat) :
    blockValue ((fun b => ctrInc b m)^[k] cv) / 2 ^ m = blockValue cv / 2 ^ m ∧
      blockValue ((fun b => ctrInc b m)^[k] cv) % 2 ^ m = (blockValue cv + k) % 2 ^ m := by
  induction k with
  | zero => exact ⟨rfl, rfl⟩
  | succ k ih =>
    obtain ⟨hhigh, hlow⟩ := ih
    rw [Function.iterate_succ_apply', ctrInc_high _ h, ctrInc_low _ h, hlow, Nat.mod_add_mod]
    exact ⟨hhigh, rfl⟩

/-- The counter is back after k steps exactly when 2^m divides k. -/
theorem iterate_ctrInc_eq_iff (cv : Block) {m : Nat} (h : m ≤ 128) (k : Nat) :
    (fun b => ctrInc b m)^[k] cv = cv ↔ 2 ^ m ∣ k := by
  obtain ⟨hhigh, hlow⟩ := iterate_ctrInc cv h k
  have hback : (blockValue cv + k) % 2 ^ m = blockValue cv % 2 ^ m ↔ 2 ^ m ∣ k :=
    Nat.add_modEq_left_iff
  rw [← hback, ← hlow]
  exact ⟨fun heq => by rw [heq], block_eq_of_window m hhigh⟩

/-- Settles O23: CtrInc keeps the bits above the window and advances the window. -/
theorem counterIncrementLaws : Obligations.CounterIncrementLaws := by
  intro cv m h1 h2
  refine ⟨?_, ctrInc_high cv h2, ctrInc_low cv h2, ⟨(iterate_ctrInc_eq_iff cv h2 _).2 dvd_rfl, fun k h0 hk => ?_⟩,
    ctrInc_ctrLoad cv h1 h2, blockValue_ctrInc cv h2⟩
  · rw [counterValue_eq cv h2, Nat.mod_mod_of_dvd _ (pow_dvd_pow 2 (le_counterBits m))]
  · rw [ne_eq, iterate_ctrInc_eq_iff cv h2]
    exact Nat.not_dvd_of_pos_of_lt h0 hk

end Sys2Proof.Machine
end

