-- ==== Sys2Proof/Proofs/Messages.lean ====
section
/-! Messages of any number of blocks, in every mode and direction (R236).

Whatever the mode, a message is a chain: one function gives the output of a block from the chaining vector and the
input, another the vector that follows. -/

namespace Sys2Proof.Machine

/-! ## Chains -/

/-- The outputs of a list of inputs, from the vector v: `out` gives an output, `next` the vector that follows. -/
def chain (out next : Block → Block → Block) : Block → List Block → List Block
  | _, [] => []
  | v, x :: xs => out v x :: chain out next (next v x) xs

theorem chain_eq_map (f : Block → Block) (next : Block → Block → Block) (v : Block) (xs : List Block) :
    chain (fun _ x => f x) next v xs = xs.map f := by
  induction xs generalizing v with
  | nil => rfl
  | cons x xs ih => rw [chain, ih, List.map_cons]

theorem chain_eq_cbcEncrypt (e : Block → Block) (v : Block) (xs : List Block) :
    chain (fun v x => e (blockXor x v)) (fun v x => e (blockXor x v)) v xs = cbcEncrypt e v xs := by
  induction xs generalizing v with
  | nil => rfl
  | cons x xs ih => rw [chain, ih, cbcEncrypt]

theorem chain_eq_cbcDecrypt (d : Block → Block) (v : Block) (xs : List Block) :
    chain (fun v x => blockXor (d x) v) (fun _ x => x) v xs = cbcDecrypt d v xs := by
  induction xs generalizing v with
  | nil => rfl
  | cons x xs ih => rw [chain, ih, cbcDecrypt]

theorem chain_eq_ctrCrypt (e : Block → Block) (m : Nat) (v : Block) (xs : List Block) :
    chain (fun v x => blockXor (e v) x) (fun v _ => ctrInc v m) v xs = ctrCrypt e m v xs := by
  induction xs generalizing v with
  | nil => rfl
  | cons x xs ih => rw [chain, ih, ctrCrypt]

/-- When every output is the vector that follows, the last output is the last vector. -/
theorem foldl_eq_getLast?_chain (out : Block → Block → Block) (v : Block) (xs : List Block) :
    xs.foldl out v = (chain out out v xs).getLast?.getD v := by
  induction xs generalizing v with
  | nil => rfl
  | cons x xs ih => rw [List.foldl_cons, ih, chain, List.getLast?_cons, Option.getD_some]

theorem foldl_eq_getLast? (v : Block) (xs : List Block) : xs.foldl (fun _ x => x) v = xs.getLast?.getD v := by
  induction xs generalizing v with
  | nil => rfl
  | cons x xs ih => rw [List.foldl_cons, ih, List.getLast?_cons, Option.getD_some]

/-- A chain undoes another when it undoes each output and follows the same vectors. -/
theorem chain_chain {out next out' next' : Block → Block → Block} (hout : ∀ v x, out' v (out v x) = x)
    (hnext : ∀ v x, next' v (out v x) = next v x) (v : Block) (xs : List Block) :
    chain out' next' v (chain out next v xs) = xs := by
  induction xs generalizing v with
  | nil => rfl
  | cons x xs ih => rw [chain, chain, hout, hnext, ih]

/-! ## A message is a chain (R236) -/

/-- What PROCESS reads and never writes: the key store, MODE, DIR, CTR_M and MODE_PARAMS_OK are those of s. -/
structure SameSetup (s t : State) : Prop extends SameKeyStore s t, SameModecfg s t where
  modeParamsOk : t.modeParamsOk = s.modeParamsOk

theorem SameSetup.refl (s : State) : SameSetup s s := ⟨⟨rfl, rfl, rfl, rfl, rfl⟩, ⟨rfl, rfl, rfl⟩, rfl⟩

theorem SameSetup.trans {s t u : State} (h : SameSetup s t) (h' : SameSetup t u) : SameSetup s u where
  keyValid := h'.keyValid.trans h.keyValid
  keyBits := h'.keyBits.trans h.keyBits
  nr := h'.nr.trans h.nr
  ek := h'.ek.trans h.ek
  dk := h'.dk.trans h.dk
  mode := h'.mode.trans h.mode
  dir := h'.dir.trans h.dir
  ctrM := h'.ctrM.trans h.ctrM
  modeParamsOk := h'.modeParamsOk.trans h.modeParamsOk

theorem SameSetup.blockOutput {s t : State} (h : SameSetup s t) : blockOutput t = blockOutput s := by
  funext v x
  simp only [Machine.blockOutput, h.mode, h.dir, h.ek, h.dk, h.nr]

theorem SameSetup.nextCv {s t : State} (h : SameSetup s t) : nextCv t = nextCv s := by
  funext v x
  simp only [Machine.nextCv, h.mode, h.dir, h.ek, h.nr, h.ctrM]

/-- The completion of a command word whose command is legal. -/
theorem completeCommand_accept_encode {i : Instr} (h : i.wellFormed = true) (s : State) :
    completeCommand (accept (encode i) s) = exec i (accept (encode i) s) := by
  rw [completeCommand, accept_lcmd, decode_encode h]

/-- The state with x staged in DIN (R25). -/
def withDin (x : Block) (s : State) : State := { s with din := Vector.ofFn fun j => wordOfBlock x j }

theorem sameSetup_accept_withDin (w : Word) (x : Block) (s : State) : SameSetup s (accept w (withDin x s)) :=
  ⟨⟨rfl, rfl, rfl, rfl, rfl⟩, ⟨rfl, rfl, rfl⟩, rfl⟩

theorem accept_withDin_cv (w : Word) (x : Block) (s : State) : (accept w (withDin x s)).cv = s.cv := rfl

theorem accept_withDin_ldin (w : Word) (x : Block) (s : State) : (accept w (withDin x s)).ldin = x :=
  blockOfWords_wordOfBlock x

theorem sameSetup_processed (out v : Block) (s : State) : SameSetup s (completeSuccess (setDout out (setCv v s))) :=
  ⟨⟨rfl, rfl, rfl, rfl, rfl⟩, ⟨rfl, rfl, rfl⟩, rfl⟩

/-- PROCESS on one block of a message, on a Ready engine (R230 to R235). -/
theorem issueOnBlock_process {s : State} (hm : s.modeParamsOk = true) (hv : s.keyValid = true) (x : Block) :
    ∃ t, issueOnBlock 0x00101005#32 x s = .next t ∧ t.fail = false ∧ SameSetup s t ∧
      t.dout = blockOutput s s.cv x ∧ t.cv = nextCv s s.cv x := by
  have hword : 0x00101005#32 = encode (.process 16 16) := by decide
  have haccept := sameSetup_accept_withDin (encode (.process 16 16)) x s
  have hrun : issueOnBlock (encode (.process 16 16)) x s = _ :=
    (completeCommand_accept_encode rfl (withDin x s)).trans
      (exec_process_of_ready (haccept.modeParamsOk.trans hm) (haccept.keyValid.trans hv))
  rw [haccept.blockOutput, haccept.nextCv, accept_withDin_cv, accept_withDin_ldin] at hrun
  rw [hword]
  exact ⟨_, hrun, rfl, haccept.trans (sameSetup_processed _ _ _), rfl, rfl⟩

/-- The first block of a message, then the rest of it. (`processMessage` is opened with its command word hidden in
`issue`: with the word in place the kernel would run the whole command to look at its outcome.) -/
theorem processMessage_cons {x : Block} {xs ys : List Block} {s t u : State}
    (h : issueOnBlock 0x00101005#32 x s = .next t) (hfail : t.fail = false)
    (hrest : processMessage xs t = some (ys, u)) : processMessage (x :: xs) s = some (t.dout :: ys, u) := by
  generalize hf : processMessage = f at hrest ⊢
  delta processMessage processMessage._f at hf
  obtain ⟨issue, hissue⟩ : ∃ issue, issue = issueOnBlock 0x00101005#32 := ⟨_, rfl⟩
  rw [← hissue] at h hf
  have hcons : f (x :: xs) s =
      match issue x s with
      | .next t =>
        if t.fail then none
        else
          match f xs t with
          | some (ys, u) => some (t.dout :: ys, u)
          | none => none
      | .fault _ => none
      | .refused _ => none := by
    subst hf
    rfl
  rw [hcons, h]
  simp [hfail, hrest]

/-- On a Ready engine every message is processed, and it is the chain of `blockOutput` and `nextCv` from CV. -/
theorem processMessage_eq_chain {s : State} (hm : s.modeParamsOk = true) (hv : s.keyValid = true) (xs : List Block) :
    ∃ t, processMessage xs s = some (chain (blockOutput s) (nextCv s) s.cv xs, t) ∧
      t.cv = xs.foldl (nextCv s) s.cv ∧ SameSetup s t := by
  induction xs generalizing s with
  | nil => exact ⟨s, rfl, rfl, .refl s⟩
  | cons x xs ih =>
    obtain ⟨t, hissue, hfail, hsame, hdout, hcv⟩ := issueOnBlock_process hm hv x
    obtain ⟨u, hrest, hcvu, hsameu⟩ := ih (hsame.modeParamsOk.trans hm) (hsame.keyValid.trans hv)
    rw [hsame.blockOutput, hsame.nextCv, hcv] at hrest
    rw [hsame.nextCv, hcv] at hcvu
    have hrun := processMessage_cons hissue hfail hrest
    rw [hdout] at hrun
    exact ⟨u, hrun, hcvu, hsame.trans hsameu⟩

/-- Settles O25: in each mode the chain is the mode's formula. -/
theorem messageFormulas : Obligations.MessageFormulas := by
  intro s xs hm hv
  obtain ⟨t, hrun, hcv, -⟩ := processMessage_eq_chain hm hv xs
  refine ⟨fun hmode hdir => ?_, fun hmode hdir => ?_, fun hmode hdir => ?_, fun hmode hdir => ?_, fun hmode => ?_⟩
  · rw [blockOutput_ecb_encrypt hmode hdir, chain_eq_map] at hrun
    rw [nextCv_ecb hmode, List.foldl_fixed] at hcv
    exact ⟨t, hrun, hcv⟩
  · rw [blockOutput_ecb_decrypt hmode hdir, chain_eq_map] at hrun
    rw [nextCv_ecb hmode, List.foldl_fixed] at hcv
    exact ⟨t, hrun, hcv⟩
  · rw [blockOutput_cbc_encrypt hmode hdir, nextCv_cbc_encrypt hmode hdir, chain_eq_cbcEncrypt] at hrun
    rw [nextCv_cbc_encrypt hmode hdir, foldl_eq_getLast?_chain, chain_eq_cbcEncrypt] at hcv
    exact ⟨t, hrun, hcv⟩
  · rw [blockOutput_cbc_decrypt hmode hdir, nextCv_cbc_decrypt hmode hdir, chain_eq_cbcDecrypt] at hrun
    rw [nextCv_cbc_decrypt hmode hdir, foldl_eq_getLast?] at hcv
    exact ⟨t, hrun, hcv⟩
  · rw [blockOutput_ctr hmode, nextCv_ctr hmode, chain_eq_ctrCrypt] at hrun
    rw [nextCv_ctr hmode, List.foldl_const] at hcv
    exact ⟨t, hrun, hcv⟩

/-! ## MODE_INIT in every mode (R211 to R213) -/

/-- The MODE_INIT of a mode and direction with an IV of 16 bytes; m is the width that CTR takes. -/
def modeInit (md : Mode) (d : Dir) (m : Nat) : Instr :=
  match md with
  | .ecb => .modeInitEcb d 0 0
  | .cbc => .modeInitCbc d 16 0
  | .ctr => .modeInitCtr d 16 m

/-- The width that MODE_INIT leaves in CTR_M. -/
def modeWidth (md : Mode) (m : Nat) : Nat :=
  match md with
  | .ecb => 0
  | .cbc => 0
  | .ctr => m

/-- The chaining vector that MODE_INIT leaves, for the latched IV and the vector before it. -/
def initialCv (md : Mode) (m : Nat) (iv cv : Block) : Block :=
  match md with
  | .ecb => cv
  | .cbc => iv
  | .ctr => ctrLoad iv m

theorem wellFormed_modeInit (md : Mode) (d : Dir) {m : Nat} (h : m ≤ 128) : (modeInit md d m).wellFormed = true := by
  have hm : fitsLengthField m = true := decide_eq_true (by omega)
  cases md with
  | ecb => rfl
  | cbc => rfl
  | ctr => exact hm

theorem exec_modeInit (md : Mode) (d : Dir) {m : Nat} (h1 : 1 ≤ m) (h2 : m ≤ 128) (s : State) :
    exec (modeInit md d m) s =
      .next (completeSuccess (setCv (initialCv md m s.liv s.cv) (configureMode md d (modeWidth md m) s))) := by
  cases md with
  | ecb => rfl
  | cbc => exact exec_modeInitCbc_of_length d 0 s
  | ctr => exact exec_modeInitCtr_of_width h1 h2 d s

/-- What a MODE_INIT that succeeds at s leaves: its mode state, with this CV, and the key store of s. -/
structure Initialized (md : Mode) (d : Dir) (m : Nat) (cv : Block) (s t : State) : Prop extends SameKeyStore s t where
  mode : t.mode = md
  dir : t.dir = d
  ctrM : t.ctrM = BitVec.ofNat 8 (modeWidth md m)
  modeParamsOk : t.modeParamsOk = true
  cv : t.cv = cv

/-- The state with v staged in IV (R24). -/
def withIv (v : Block) (s : State) : State := { s with iv := Vector.ofFn fun j => wordOfBlock v j }

theorem issueOnIv_modeInit (md : Mode) (d : Dir) {m : Nat} (h1 : 1 ≤ m) (h2 : m ≤ 128) (v : Block) (s : State) :
    ∃ t, issueOnIv (encode (modeInit md d m)) v s = .next t ∧ Initialized md d m (initialCv md m v s.cv) s t := by
  have hliv : (accept (encode (modeInit md d m)) (withIv v s)).liv = v := blockOfWords_wordOfBlock v
  have hcv : (accept (encode (modeInit md d m)) (withIv v s)).cv = s.cv := rfl
  have hrun : issueOnIv (encode (modeInit md d m)) v s = _ :=
    (completeCommand_accept_encode (wellFormed_modeInit md d h2) (withIv v s)).trans (exec_modeInit md d h1 h2 _)
  rw [hliv, hcv] at hrun
  exact ⟨_, hrun, ⟨rfl, rfl, rfl, rfl, rfl⟩, rfl, rfl, rfl, rfl, rfl⟩

/-! ## Decryption undoes encryption (R236) -/

theorem blockXor_blockXor_right (a b : Block) : blockXor (blockXor a b) b = a := by
  ext i hi : 1
  simp

theorem blockXor_blockXor_left (a b : Block) : blockXor a (blockXor a b) = b := by
  ext i hi : 1
  simp

/-- Two states with the two directions of one mode, under the same valid and consistent key store. -/
structure Opposite (s t : State) : Prop extends SameKeyStore s t where
  keys : IsDecryptionKeys s.nr s.ek s.dk
  mode : t.mode = s.mode
  ctrM : t.ctrM = s.ctrM
  encrypts : s.dir = .encrypt
  decrypts : t.dir = .decrypt

/-- In each mode the output of a block is undone in the other direction, and the same vector follows. -/
theorem Opposite.undoes {s t : State} (h : Opposite s t) (v x : Block) :
    blockOutput t v (blockOutput s v x) = x ∧ nextCv t v (blockOutput s v x) = nextCv s v x := by
  cases hmode : s.mode with
  | ecb =>
    have hmode' := h.mode.trans hmode
    rw [blockOutput_ecb_encrypt hmode h.encrypts, blockOutput_ecb_decrypt hmode' h.decrypts, nextCv_ecb hmode,
      nextCv_ecb hmode', h.dk, h.nr]
    exact ⟨h.keys.invCipher_cipher x, rfl⟩
  | cbc =>
    have hmode' := h.mode.trans hmode
    rw [blockOutput_cbc_encrypt hmode h.encrypts, blockOutput_cbc_decrypt hmode' h.decrypts,
      nextCv_cbc_encrypt hmode h.encrypts, nextCv_cbc_decrypt hmode' h.decrypts, h.dk, h.nr]
    simp only [h.keys.invCipher_cipher, blockXor_blockXor_right, and_self]
  | ctr =>
    have hmode' := h.mode.trans hmode
    rw [blockOutput_ctr hmode, blockOutput_ctr hmode', nextCv_ctr hmode, nextCv_ctr hmode', h.ek, h.nr, h.ctrM]
    exact ⟨blockXor_blockXor_left _ x, rfl⟩

/-- After a message a MODE_INIT with the same IV leaves the CV that the first one left: in ECB because no block of the
message changed it, in CBC and CTR because it comes from the IV. -/
theorem initialCv_after_message {md : Mode} {s : State} (hmode : s.mode = md) (m : Nat) (v cv : Block)
    (hcv : s.cv = initialCv md m v cv) (xs : List Block) : initialCv md m v (xs.foldl (nextCv s) s.cv) = s.cv := by
  cases md with
  | ecb => rw [nextCv_ecb hmode, List.foldl_fixed, initialCv]
  | cbc => exact hcv.symm
  | ctr => exact hcv.symm

theorem message_roundTrip (md : Mode) {m : Nat} (h1 : 1 ≤ m) (h2 : m ≤ 128) {s : State} (hv : s.keyValid = true)
    (hs : keyStoreOk s) (v : Block) (xs : List Block) :
    ∃ s1 ys s2 s3 s4, issueOnIv (encode (modeInit md .encrypt m)) v s = .next s1 ∧
      processMessage xs s1 = some (ys, s2) ∧ issueOnIv (encode (modeInit md .decrypt m)) v s2 = .next s3 ∧
      processMessage ys s3 = some (xs, s4) := by
  obtain ⟨s1, hinit1, hs1⟩ := issueOnIv_modeInit md .encrypt h1 h2 v s
  have hv1 := hs1.keyValid.trans hv
  obtain ⟨s2, hrun1, hcv2, hs2⟩ := processMessage_eq_chain hs1.modeParamsOk hv1 xs
  obtain ⟨s3, hinit3, hs3⟩ := issueOnIv_modeInit md .decrypt h1 h2 v s2
  have hv3 := hs3.keyValid.trans (hs2.keyValid.trans hv1)
  obtain ⟨s4, hrun3, -, -⟩ :=
    processMessage_eq_chain hs3.modeParamsOk hv3 (chain (blockOutput s1) (nextCv s1) s1.cv xs)
  have hcv3 : s3.cv = s1.cv := by rw [hs3.cv, hcv2, initialCv_after_message hs1.mode m v s.cv hs1.cv xs]
  have hopp : Opposite s1 s3 :=
    { keyValid := hs3.keyValid.trans hs2.keyValid
      keyBits := hs3.keyBits.trans hs2.keyBits
      nr := hs3.nr.trans hs2.nr
      ek := hs3.ek.trans hs2.ek
      dk := hs3.dk.trans hs2.dk
      keys := (keyStoreOk_iff s1).1 (hs1.keyStoreOk hs) hv1
      mode := hs3.mode.trans hs1.mode.symm
      ctrM := hs3.ctrM.trans hs1.ctrM.symm
      encrypts := hs1.dir
      decrypts := hs3.dir }
  rw [hcv3, chain_chain (fun v x => (hopp.undoes v x).1) (fun v x => (hopp.undoes v x).2)] at hrun3
  exact ⟨s1, _, s2, s3, s4, hinit1, hrun1, hinit3, hrun3⟩

/-- Settles O26: each pair of words is the two MODE_INITs of one mode. -/
theorem messageRoundTripInEveryMode : Obligations.MessageRoundTripInEveryMode := by
  rintro s v xs we wd hv hs (⟨rfl, rfl⟩ | ⟨rfl, rfl⟩ | ⟨m, h1, h2, rfl, rfl⟩)
  · exact message_roundTrip .ecb le_rfl (by decide) hv hs v xs
  · exact message_roundTrip .cbc le_rfl (by decide) hv hs v xs
  · exact message_roundTrip .ctr h1 h2 hv hs v xs

end Sys2Proof.Machine
end

