-- ==== Sys2Proof/Proofs/Results.lean ====
section
/-! The one result in which each command ends: which check it names, what a failure leaves unchanged, and that no read
shows key material (R260 to R268). -/

namespace Sys2Proof.Machine

/-! ## One result for each command (R260) -/

/-- Settles O48: `commandStateOk` of what a completion leaves, and `step_commandState_cases` with no completion. -/
theorem everyCommandEndsInOneResult : Obligations.EveryCommandEndsInOneResult := by
  refine ⟨fun s => ?_, fun s t hb h => ?_⟩
  · obtain ⟨t, ht, -⟩ := completeCommand_cases s
    obtain ⟨-, hfail, -⟩ := completeCommand_commandStateOk ht
    have hend := completeCommand_untouched ht
    refine ⟨t, ht, hend.idle, hend.finished, ?_⟩
    cases hf : t.fail with
    | false => exact .inl ⟨rfl, by simpa [hf] using hfail⟩
    | true => exact .inr ⟨rfl, hfail.1 hf⟩
  · rcases step_commandState_cases h with ⟨hreset | haccept | ⟨hbusy, -⟩, -⟩ | ⟨hbusy, hdone, hfail, herr⟩
    · exact .inl hreset
    · exact .inr (.inl haccept)
    · simp [hb] at hbusy
    · exact .inr (.inr ⟨hbusy.trans hb, hdone, hfail, herr⟩)

/-! ## The first failing check (R263) -/

/-- The first check of the command that fails at s, in the order of R263's table; `none` when all of them pass. -/
def firstFailingCheck (s : State) : Instr → ErrCode
  | .setKey k => if k = 16 ∨ k = 24 ∨ k = 32 then .none else .keyLength
  | .encrypt a b | .decrypt a b =>
    if a ≠ 16 ∨ b ≠ 16 then .blockSize else if s.keyValid = false then .keyInvalid else .none
  | .modeInitEcb _ _ _ => .none
  | .modeInitCbc _ l _ => if l ≠ 16 then .ivLength else .none
  | .modeInitCtr _ l m => if l ≠ 16 then .ivLength else if m = 0 ∨ 128 < m then .ctrWidth else .none
  | .process a b =>
    if s.modeParamsOk = false then .modeNotInit
    else if a ≠ 16 ∨ b ≠ 16 then .blockSize
    else if s.keyValid = false then .keyInvalid
    else .none

theorem blockLengthsOk_eq_false_iff (a b : Nat) : blockLengthsOk a b = false ↔ a ≠ 16 ∨ b ≠ 16 := by
  rw [blockLengthsOk, decide_eq_false_iff_not]
  exact not_and_or

/-- The checks of ENCRYPT and DECRYPT, as the code they report. -/
theorem blockCommandError_getD (a b : Nat) (s : State) :
    (blockCommandError a b s).getD .none =
      if a ≠ 16 ∨ b ≠ 16 then .blockSize else if s.keyValid = false then .keyInvalid else .none := by
  simp only [blockCommandError, blockLengthsOk_eq_false_iff]
  split_ifs <;> rfl

/-- The checks of PROCESS, as the code they report. -/
theorem processError_getD (a b : Nat) (s : State) :
    (processError a b s).getD .none = firstFailingCheck s (.process a b) := by
  simp only [processError, blockLengthsOk_eq_false_iff, firstFailingCheck]
  split_ifs <;> rfl

/-- Every command reports its first failing check. -/
theorem Ran.err_eq {i : Instr} {s t : State} (h : Ran i s t) : t.err = firstFailingCheck s i := by
  cases h with
  | keyLoaded k n _ hk =>
    obtain rfl := (roundsOfKeyLength_eq_some k n).1 hk
    cases n <;> rfl
  | keyRejected k _ hk =>
    have hlen := (roundsOfKeyLength_eq_none k).1 hk
    exact (if_neg (by omega)).symm
  | encrypted _ _ _ hc | decrypted _ _ _ hc | encryptRejected _ _ _ _ hc | decryptRejected _ _ _ _ hc =>
    rw [firstFailingCheck, ← blockCommandError_getD, hc]
    rfl
  | ecbConfigured => rfl
  | cbcConfigured _ _ _ _ hl => exact (if_neg (not_not.2 hl)).symm
  | cbcRejected _ _ _ _ hl => exact (if_pos hl).symm
  | ctrConfigured _ _ m _ hl h1 h2 =>
    subst hl
    exact (if_neg (by omega)).symm
  | ctrRejectedIv _ _ _ _ hl => exact (if_pos hl).symm
  | ctrRejectedWidth _ _ m _ hl hm =>
    subst hl
    exact (if_pos (by omega)).symm
  | processed _ _ _ hc | processRejected _ _ _ _ hc =>
    rw [← processError_getD, hc]
    rfl

/-- The completion of a latched PROCESS that fails a check reports that check. -/
theorem completeCommand_of_processError {a b : Nat} {s : State} {e : ErrCode}
    (hd : decode s.lcmd = .legal (.process a b)) (he : processError a b s = some e) :
    completeCommand s = .next (raiseFailure e s) := by
  rw [completeCommand, hd]
  exact exec_process_of_error he

/-- Settles O49: `Ran.err_eq` for a decoded word, and the two examples at PROCESS. -/
theorem firstFailingCheckIsReported : Obligations.FirstFailingCheckIsReported := by
  refine ⟨fun s => ?_, fun s hw hv hm => ?_, fun s a b hd hm => ?_⟩
  · obtain ⟨t, ht, ⟨i, hd, -, hr⟩ | ⟨⟨why, hd⟩, rfl⟩⟩ := completeCommand_cases s
    · refine ⟨t, ht, ?_⟩
      rw [hr.err_eq, hd]
      cases i <;> rfl
    · refine ⟨_, ht, ?_⟩
      rw [hd]
      rfl
  · have hd : decode s.lcmd = .legal (.process 15 16) := by rw [hw]; decide
    exact ⟨_, completeCommand_of_processError hd (processError_of_lengths hm (by decide)), rfl, rfl⟩
  · exact ⟨_, completeCommand_of_processError hd (processError_of_no_mode hm a b), rfl, rfl⟩

/-! ## What a failure changes (R262) -/

/-- A command that fails leaves the writes of R262's table and the command state: SET_KEY invalidates the key store,
MODE_INIT the mode, and every other command writes nothing. -/
theorem Ran.fail_cases {i : Instr} {s t : State} (h : Ran i s t) (hf : t.fail = true) :
    (∃ k, i = .setKey k ∧ t = raiseFailure .keyLength (invalidateKey s)) ∨
    (isModeInit i = true ∧ ∃ e, (e = .ivLength ∨ e = .ctrWidth) ∧ t = raiseFailure e (invalidateMode s)) ∨
    ((∀ k, i ≠ .setKey k) ∧ isModeInit i = false ∧ ∃ e, t = raiseFailure e s) := by
  cases hi : isModeInit i with
  | true => exact .inr (.inl ⟨rfl, h.invalidateMode_of_fail hi hf⟩)
  | false =>
    cases h with
    | keyRejected k => exact .inl ⟨k, rfl, rfl⟩
    | encryptRejected _ _ _ e | decryptRejected _ _ _ e | processRejected _ _ _ e =>
      exact .inr (.inr ⟨by simp, rfl, e, rfl⟩)
    | cbcRejected | ctrRejectedIv | ctrRejectedWidth => cases hi
    | _ => simp at hf

/-- Settles O50: `Ran.fail_cases` for a decoded word; an ILLEGAL word writes nothing. -/
theorem failuresAreAtomic : Obligations.FailuresAreAtomic := by
  intro s t h hf
  cases hd : decode s.lcmd with
  | legal i =>
    rcases (ran_of_completeCommand h hd).fail_cases hf with ⟨k, rfl, rfl⟩ | ⟨hi, e, he, rfl⟩ | ⟨hk, hi, e, rfl⟩
    · exact .inl ⟨k, rfl, rfl, rfl⟩
    · exact .inr (.inl ⟨i, rfl, hi, he, rfl⟩)
    · exact .inr (.inr ⟨by simpa using hk, by simpa using hi, rfl⟩)
  | illegal why =>
    rw [completeCommand, hd] at h
    cases h
    exact .inr (.inr ⟨by simp, by simp, rfl⟩)

/-! ## Key material (R268) -/

/-- Settles O46: each register reads fields that are no key material, or reads 0. -/
theorem readsNeverDependOnKeyMaterial : Obligations.ReadsNeverDependOnKeyMaterial := by
  intro r s k n e d lc lk li ld
  cases r <;> rfl

end Sys2Proof.Machine
end

