-- ==== Sys2Proof/Proofs/Progress.lean ====
section
/-! No command hangs: every step takes something off the work that is left, until the engine is idle and nothing is to
arrive (R264, R295). -/

namespace Sys2Proof.Machine

/-- How many steps the engine still has work for, at most: an arrival takes one step, and one more if it is a CMD write
that is held first; the command in flight takes one. -/
def workLeft (s : State) : Nat := 2 * s.arrivals.length + s.busy.toNat

theorem workLeft_le (s : State) : workLeft s ≤ 2 * s.arrivals.length + 1 :=
  Nat.add_le_add_left (Bool.toNat_le s.busy) _

theorem workLeft_eq_zero_iff (s : State) : workLeft s = 0 ↔ s.arrivals = [] ∧ s.busy = false := by
  simp [workLeft]

/-- After the engine's turn no command is in flight, and what is to arrive is still to arrive. -/
theorem engineTurn_idle (s : State) : ∃ t, engineTurn s = .next t ∧ t.busy = false ∧ t.arrivals = s.arrivals := by
  obtain ⟨t, ht, ⟨-, hc⟩ | ⟨hb, rfl⟩⟩ := engineTurn_cases s
  · have hend := completeCommand_untouched hc
    exact ⟨t, ht, hend.idle, hend.arrivals⟩
  · exact ⟨t, ht, hb, rfl⟩

theorem writeReg_arrivals (r : WindowReg) (v : Word) (s : State) : (writeReg r v s).arrivals = s.arrivals := by
  cases r <;> rfl

/-- A clean access that is not held answers a next state, and touches nothing that is to arrive. -/
theorem busAccess_of_clean {a : Access} (h : cleanEvent (.access a) = true) (s : State) :
    ∃ t, busAccess a s = .next t ∧ t.arrivals = s.arrivals := by
  obtain ⟨ha, hw⟩ := Bool.and_eq_true_iff.1 h
  rcases busAccess_cases a s with ⟨hnone, -⟩ | ⟨off, -, hbad, -⟩ | ⟨off, -, -, -, hb⟩ | ⟨off, v, -, -, -, hb⟩
  · simp [hnone] at hw
  · simp [hbad] at ha
  · exact ⟨_, hb, rfl⟩
  · exact ⟨_, hb, writeReg_arrivals _ v s⟩

/-- A clean step takes the first arrival, or it ends the command in flight while a CMD write is held or nothing is to
arrive. -/
theorem step_of_clean {s : State} (h : cleanArrivals s = true) :
    ∃ t, step s = .next t ∧
      ((∃ e, s.arrivals = e :: t.arrivals) ∨
        t.busy = false ∧ t.arrivals = s.arrivals ∧ (s.busy = true ∨ s.arrivals = [])) := by
  cases harr : s.arrivals with
  | nil =>
    obtain ⟨t, ht, hb, ha⟩ := engineTurn_idle s
    exact ⟨t, by simpa [step, portStep, harr] using ht, .inr ⟨hb, ha.trans harr, .inr rfl⟩⟩
  | cons e rest =>
    cases e with
    | engine =>
      obtain ⟨t, ht, -, ha⟩ := engineTurn_idle (withArrivals rest s)
      exact ⟨t, by simpa [step, portStep, harr] using ht, .inl ⟨_, by rw [ha, withArrivals_arrivals]⟩⟩
    | reset => exact ⟨resetEvent (withArrivals rest s), by simp [step, portStep, harr], .inl ⟨_, rfl⟩⟩
    | access a =>
      cases hheld : heldAccess a s with
      | true =>
        obtain ⟨t, ht, -⟩ := completeCommand_cases s
        have hend := completeCommand_untouched ht
        exact ⟨t, (step_of_heldAccess harr hheld).trans ht,
          .inr ⟨hend.idle, hend.arrivals.trans harr, .inl (Bool.and_eq_true_iff.1 hheld).1⟩⟩
      | false =>
        have hclean : cleanEvent (.access a) = true := List.all_eq_true.1 h _ (by simp [harr])
        obtain ⟨t, ht, ha⟩ := busAccess_of_clean hclean (withArrivals rest s)
        exact ⟨t, (step_of_access harr hheld).trans ht, .inl ⟨_, by rw [ha, withArrivals_arrivals]⟩⟩

/-- A clean step leaves a clean state with less work, or with none. -/
theorem step_workLeft_le {s : State} (h : cleanArrivals s = true) :
    ∃ t, step s = .next t ∧ cleanArrivals t = true ∧ workLeft t ≤ workLeft s - 1 := by
  obtain ⟨t, ht, ⟨e, harr⟩ | ⟨hb, harr, hs⟩⟩ := step_of_clean h
  · have hle := workLeft_le t
    refine ⟨t, ht, ?_, ?_⟩
    · rw [cleanArrivals, harr, List.all_cons, Bool.and_eq_true] at h
      exact h.2
    · simp only [workLeft, harr, List.length_cons] at hle ⊢
      omega
  · refine ⟨t, ht, by rwa [cleanArrivals, harr], ?_⟩
    rcases hs with hs | hs <;> simp [workLeft, hb, harr, hs]

/-- As many steps as there is work for leave none. -/
theorem run_of_workLeft_le {k : Nat} {s : State} (h : cleanArrivals s = true) (hk : workLeft s ≤ k) :
    ∃ t, Sys2Proof.core.run k s = .next t ∧ workLeft t = 0 := by
  induction k generalizing s with
  | zero => exact ⟨s, rfl, Nat.le_zero.1 hk⟩
  | succ k ih =>
    obtain ⟨t, ht, hclean, hle⟩ := step_workLeft_le h
    rw [run_succ ht]
    exact ih hclean (by omega)

/-- Settles O58: the work left is at most two steps for each arrival and one more. -/
theorem engineNeverHangs : Obligations.EngineNeverHangs := by
  refine ⟨fun s => ?_, fun s h => ?_⟩
  · obtain ⟨t, ht, hb, -⟩ := engineTurn_idle s
    exact ⟨t, ht, hb⟩
  · obtain ⟨t, hrun, hwork⟩ := run_of_workLeft_le h (workLeft_le s)
    exact ⟨t, hrun, (workLeft_eq_zero_iff t).1 hwork⟩

end Sys2Proof.Machine
end

