-- ==== Sys2Proof/Proofs/ResetAndHazards.lean ====
section
/-! Reset, what a command in flight shows and keeps from the host, and how it ends (R290 to R302). -/

namespace Sys2Proof.Machine

/-! ## Reset (R290, R291) -/

/-- Settles O51: the registers are evaluated, and the block commands fail at the checks of a machine with no key and
no mode. -/
theorem resetRegisterValues : Obligations.ResetRegisterValues := by
  refine ⟨rfl, by decide, by decide, by decide, fun j => ⟨rfl, ?key⟩, fun j => ⟨?iv, ?din, ?dout, ?cv⟩, fun _ => rfl,
    rfl, rfl, rfl, rfl, rfl, rfl, rfl, rfl, rfl, rfl, rfl, ?encrypt, ?decrypt, ?process⟩
  case key => exact Vector.getElem_replicate j.isLt
  case iv => exact Vector.getElem_replicate j.isLt
  case din => exact Vector.getElem_replicate j.isLt
  case dout => decide +revert
  case cv => decide +revert
  case encrypt => exact ⟨_, exec_encrypt 16 16 _, by rw [blockCommandError_of_no_key rfl]; rfl⟩
  case decrypt => exact ⟨_, exec_decrypt 16 16 _, by rw [blockCommandError_of_no_key rfl]; rfl⟩
  case process => exact ⟨_, exec_process_of_no_mode rfl 16 16, rfl⟩

theorem step_of_reset {s : State} {rest : List PortEvent} (h : s.arrivals = .reset :: rest) :
    step s = .next (resetEvent (withArrivals rest s)) := by
  rw [step, portStep, h]

/-- Settles O52: whatever the state was, the step is `resetEvent`. -/
theorem resetAbandonsTheCommand : Obligations.ResetAbandonsTheCommand :=
  fun _ _ h => ⟨_, step_of_reset h, rfl⟩

/-- Settles O59: no key is valid at reset, the mode is ECB with width 0, and no command has run. -/
theorem resetMeetsTheInvariant : Obligations.ResetMeetsTheInvariant where
  keyStore := (KeyStoreMeets.of_no_key rfl rfl).keyStore
  keySchedule := (KeyStoreMeets.of_no_key rfl rfl).keySchedule
  keyBits := (KeyStoreMeets.of_no_key rfl rfl).keyBits
  modeState := by unfold modeStateOk; decide
  commandState := by unfold commandStateOk; decide

/-! ## A write to CMD (R294, R295) -/

/-- A write to CMD that the engine does not hold is accepted (R294). -/
theorem step_of_cmdWriteNext {v : Word} {rest : List PortEvent} {s : State} (h : CmdWriteNext v rest s)
    (hb : s.busy = false) : step s = .next { accept v s with arrivals := rest, answer := .written } :=
  step_cmdWrite_idle (writeNext_of_cmdWriteNext h) hb

/-- Settles O53: the lanes of the three latched groups, and `accept` for all the rest. -/
theorem acceptanceLatchesEverything : Obligations.AcceptanceLatchesEverything :=
  fun s _ _ hb hw => ⟨_, step_of_cmdWriteNext hw hb, getElem_keyBytesOfWords s.key,
    fun j t => ⟨getElem_blockOfWords s.iv j t.isLt, getElem_blockOfWords s.din j t.isLt⟩, rfl⟩

/-- Settles O54: the completion leaves the held write next to arrive and BUSY = 0. -/
theorem heldWriteIsAcceptedAfterCompletion : Obligations.HeldWriteIsAcceptedAfterCompletion := by
  intro s v rest hb hw
  obtain ⟨t, ht, -⟩ := completeCommand_cases s
  have hend := completeCommand_untouched ht
  have hwt : CmdWriteNext v rest t := by
    obtain ⟨a, harr, ha⟩ := hw
    exact ⟨a, hend.arrivals.trans harr, ha⟩
  exact ⟨t, (step_cmdWrite_busy (writeNext_of_cmdWriteNext hw) hb).trans ht, ht, hend.idle, hend.arrivals,
    step_of_cmdWriteNext hwt hend.idle⟩

/-! ## The engine's turn (R296) -/

theorem completeCommand_of_decode {s : State} {i : Instr} (h : decode s.lcmd = .legal i) :
    completeCommand s = exec i s := by
  rw [completeCommand, h]

theorem engineTurn_of_decode {s : State} {i : Instr} (hb : s.busy = true) (h : decode s.lcmd = .legal i) :
    engineTurn s = exec i s := by
  rw [engineTurn, if_pos hb, completeCommand_of_decode h]

theorem step_of_nothing {s : State} (h : s.arrivals = []) : step s = engineTurn s := by
  rw [step, portStep, h]

theorem step_of_engine {s : State} {rest : List PortEvent} (h : s.arrivals = .engine :: rest) :
    step s = engineTurn (withArrivals rest s) := by
  rw [step, portStep, h]

/-- Settles O57: each of the three arrivals gives the engine its turn, and so does `placeCommand`. -/
theorem stepRunsTheDecodedCommand : Obligations.StepRunsTheDecodedCommand := by
  refine ⟨fun s i hb hd => ⟨fun h => ?nothing, fun rest h => ?engine, fun v rest hw => ?held⟩, fun s c i hd => ?placed⟩
  case nothing => rw [step_of_nothing h, engineTurn_of_decode hb hd]
  case engine => exact (step_of_engine h).trans (engineTurn_of_decode hb hd)
  case held => rw [step_cmdWrite_busy (writeNext_of_cmdWriteNext hw) hb, completeCommand_of_decode hd]
  case placed =>
    have hword : s.withFetchWord 32 c.toNat = placeCommand c s := by
      rw [State.withFetchWord, Nat.mod_eq_of_lt c.isLt, BitVec.ofNat_toNat, BitVec.setWidth_eq]
    rw [hword]
    exact (step_of_engine rfl).trans (engineTurn_of_decode rfl hd)

/-! ## Staging while a command is in flight (R297)

No command reads the staging registers, so a completion does not depend on what they hold. -/

/-- The state with other values in KEY, IV and DIN. -/
def withStaging (k : Vector Word 8) (i d : Vector Word 4) (s : State) : State := { s with key := k, iv := i, din := d }

/-- A staging write to two states with the same staging gives them the same new staging (R65). -/
theorem writeReg_eq_withStaging {r : WindowReg} (hr : isStaging r = true) (v : Word) {s t : State}
    (hk : t.key = s.key) (hi : t.iv = s.iv) (hd : t.din = s.din) :
    ∃ k i d, writeReg r v s = withStaging k i d s ∧ writeReg r v t = withStaging k i d t := by
  refine ⟨(writeReg r v s).key, (writeReg r v s).iv, (writeReg r v s).din, ?_⟩
  cases r with
  | key j => exact ⟨rfl, by simp only [writeReg, withStaging, ← hk, ← hi, ← hd]⟩
  | iv j => exact ⟨rfl, by simp only [writeReg, withStaging, ← hk, ← hi, ← hd]⟩
  | din j => exact ⟨rfl, by simp only [writeReg, withStaging, ← hk, ← hi, ← hd]⟩
  | _ => cases hr

/-- `Ran` says all that exec does: it is the graph of exec. -/
theorem exec_of_ran {i : Instr} {s t : State} (h : Ran i s t) : exec i s = .next t := by
  cases h with
  | keyLoaded _ _ _ h => exact exec_setKey_of_legal h s
  | keyRejected _ _ h => exact exec_setKey_of_illegal h s
  | encrypted a b _ h => rw [exec_encrypt, h]; rfl
  | encryptRejected a b _ _ h => rw [exec_encrypt, h]; rfl
  | decrypted a b _ h => rw [exec_decrypt, h]; rfl
  | decryptRejected a b _ _ h => rw [exec_decrypt, h]; rfl
  | ecbConfigured => rfl
  | cbcConfigured d _ b _ h => subst h; exact exec_modeInitCbc_of_length d b s
  | cbcRejected d _ b _ h => exact exec_modeInitCbc_of_bad_length h d b s
  | ctrConfigured d _ _ _ h h1 h2 => subst h; exact exec_modeInitCtr_of_width h1 h2 d s
  | ctrRejectedIv d _ m _ h => exact exec_modeInitCtr_of_bad_length h d m s
  | ctrRejectedWidth d _ _ _ h h1 => subst h; exact exec_modeInitCtr_of_bad_width h1 d s
  | processed _ _ _ h => simp [exec, execProcess, h]
  | processRejected _ _ _ _ h => exact exec_process_of_error h

theorem processBlock_withStaging (k : Vector Word 8) (i d : Vector Word 4) (s : State) :
    processBlock (withStaging k i d s) = withStaging k i d (processBlock s) := by
  rw [processBlock_eq, processBlock_eq]
  rfl

/-- A command that ran, ran just so with any other staging. -/
theorem Ran.withStaging {c : Instr} {s t : State} (h : Ran c s t) (k : Vector Word 8) (i d : Vector Word 4) :
    Ran c (withStaging k i d s) (withStaging k i d t) := by
  cases h with
  | keyLoaded keylen n _ h => exact .keyLoaded keylen n _ h
  | keyRejected keylen _ h => exact .keyRejected keylen _ h
  | encrypted a b _ h => exact .encrypted a b (Machine.withStaging k i d s) h
  | encryptRejected a b _ e h => exact .encryptRejected a b _ e h
  | decrypted a b _ h => exact .decrypted a b (Machine.withStaging k i d s) h
  | decryptRejected a b _ e h => exact .decryptRejected a b _ e h
  | ecbConfigured => exact .ecbConfigured _ _ _ _
  | cbcConfigured _ _ _ _ h => exact .cbcConfigured _ _ _ _ h
  | cbcRejected _ _ _ _ h => exact .cbcRejected _ _ _ _ h
  | ctrConfigured _ _ _ _ h h1 h2 => exact .ctrConfigured _ _ _ _ h h1 h2
  | ctrRejectedIv _ _ _ _ h => exact .ctrRejectedIv _ _ _ _ h
  | ctrRejectedWidth _ _ _ _ h h1 => exact .ctrRejectedWidth _ _ _ _ h h1
  | processed a b _ h =>
    have hrun : Ran (.process a b) (Machine.withStaging k i d s) _ := .processed a b _ h
    rwa [processBlock_withStaging] at hrun
  | processRejected a b _ e h => exact .processRejected a b _ e h

theorem completeCommand_withStaging {s t : State} (h : completeCommand s = .next t) (k : Vector Word 8)
    (i d : Vector Word 4) : completeCommand (withStaging k i d s) = .next (withStaging k i d t) := by
  obtain ⟨u, hu, hcase⟩ := completeCommand_cases s
  rw [h] at hu
  cases hu
  rcases hcase with ⟨c, hd, -, hr⟩ | ⟨⟨why, hd⟩, rfl⟩
  · rw [completeCommand_of_decode (s := withStaging k i d s) hd, exec_of_ran (hr.withStaging k i d)]
  · have hd' : decode (withStaging k i d s).lcmd = .illegal why := hd
    rw [completeCommand, hd']
    rfl

/-- Settles O55: the staging write is `withStaging` at both states, since a completion touches no staging register. -/
theorem stagingWritesDoNotTouchTheCommand : Obligations.StagingWritesDoNotTouchTheCommand := by
  intro s t r v hr h
  have hend := completeCommand_untouched h
  obtain ⟨k, i, d, hs, ht⟩ := writeReg_eq_withStaging hr v hend.key hend.iv hend.din
  rw [hs, ht]
  exact ⟨completeCommand_withStaging h k i d, rfl, rfl, rfl, rfl, rfl⟩

/-! ## Reads while a command is in flight (R298) -/

/-- Bits 31:8 of STATUS depend on KEY_VALID and MODE_PARAMS_OK only (R30). -/
theorem statusWord_validity {s t : State} (hv : t.keyValid = s.keyValid) (hm : t.modeParamsOk = s.modeParamsOk) :
    (statusWord t).extractLsb' 8 24 = (statusWord s).extractLsb' 8 24 := by
  simp [statusWord, BitVec.extractLsb'_or, modeReady, hv, hm]

/-- While a command is in flight STATUS reads as it does right after an acceptance (R294). -/
theorem statusWord_of_inFlight {s : State} (hs : commandStateOk s) (hb : s.busy = true) (v : Word) :
    statusWord s = statusWord (accept v s) := by
  obtain ⟨hdone, hfail, herr⟩ := hs.1 hb
  simp [statusWord, modeReady, hb, hdone, hfail, herr]

theorem readReg_accept {r : WindowReg} (hr : r ≠ .status) (v : Word) (s : State) :
    readReg r (accept v s) = readReg r s := by
  cases r with
  | status => exact absurd rfl hr
  | _ => rfl

/-- A write to a register other than CMD shows in no register but KEY, IV and DIN. -/
theorem readReg_writeReg {r w : WindowReg} (hr : isStaging r = false) (hw : w ≠ .cmd) (v : Word) (s : State) :
    readReg r (writeReg w v s) = readReg r s := by
  cases hstage : isStaging w with
  | true =>
    obtain ⟨k, i, d, hs, -⟩ := writeReg_eq_withStaging hstage v (s := s) rfl rfl rfl
    rw [hs]
    cases r with
    | iv => cases hr
    | din => cases hr
    | _ => rfl
  | false =>
    cases w with
    | cmd => exact absurd rfl hw
    | key | iv | din => cases hstage
    | _ => rfl

/-- Settles O56: the acceptance register by register, then each kind of step with BUSY = 1, then the command state. -/
theorem readsWhileBusyAreStale : Obligations.ReadsWhileBusyAreStale := by
  refine ⟨fun s v r => ⟨fun hr => readReg_accept hr v s, statusWord_accept v s, statusWord_validity rfl rfl⟩,
    fun s t hb h => ?step, fun s hs hb => ?inFlight⟩
  case step =>
    cases moved_of_step h with
    | reset rest harr _ => exact .inl ⟨rest, harr⟩
    | ran _ _ hc => exact .inr (.inl hc)
    | illegal _ hc => exact .inr (.inl hc)
    | wrote w v rest _ hw ht =>
      have hcmd : w ≠ .cmd := fun hcmd => by simp [hw hcmd] at hb
      refine .inr (.inr fun r hr => ?_)
      rw [ht]
      exact readReg_writeReg hr hcmd v (withArrivals rest s)
    | passed es ans ht => exact .inr (.inr fun r _ => by rw [ht, readReg_port])
  case inFlight =>
    rw [readReg, statusWord_of_inFlight hs hb 0#32]
    exact statusWord_accept 0#32 s

/-! ## The counter comes round (R302) -/

/-- A message of one block or more on a Ready engine ends with Success. -/
theorem processMessage_success {s : State} (hm : s.modeParamsOk = true) (hv : s.keyValid = true) (x : Block)
    (xs : List Block) :
    ∃ ys t, processMessage (x :: xs) s = some (ys, t) ∧ t.fail = false ∧ t.err = .none := by
  induction xs generalizing s x with
  | nil =>
    obtain ⟨t, hissue, hfail, -⟩ := issueOnBlock_process hm hv x
    obtain ⟨-, herr, -⟩ := completeCommand_commandStateOk hissue
    exact ⟨_, t, processMessage_cons hissue hfail rfl, hfail, by simpa [hfail] using herr⟩
  | cons x' xs ih =>
    obtain ⟨t, hissue, hfail, hsame, -⟩ := issueOnBlock_process hm hv x
    obtain ⟨ys, u, hrest, hend⟩ := ih (hsame.modeParamsOk.trans hm) (hsame.keyValid.trans hv) x'
    exact ⟨_, u, processMessage_cons hissue hfail hrest, hend⟩

/-- Settles O27: 2^m advances of the counter give it back, and the last PROCESS ended with Success. -/
theorem counterExhaustionIsSilent : Obligations.CounterExhaustionIsSilent := by
  intro s xs hm hv hmode hwidth hlen
  obtain ⟨-, -, -, -, hctr⟩ := messageFormulas s xs hm hv
  obtain ⟨t, hrun, hcv⟩ := hctr hmode
  rw [hlen, (iterate_ctrInc_eq_iff s.cv (hwidth.1 hmode).2 _).2 dvd_rfl] at hcv
  cases xs with
  | nil => exact absurd hlen (Nat.two_pow_pos _).ne
  | cons x xs =>
    obtain ⟨ys, u, hrun', hend⟩ := processMessage_success hm hv x xs
    rw [hrun] at hrun'
    cases hrun'
    exact ⟨_, t, hrun, hcv, hend⟩

end Sys2Proof.Machine
end
